-- ==== Sys2Proof/Word.lean ====
section
/-! DEFINITION. The 32-bit word every port of the block carries (00_scope.md R8, 20_memory.md R72), and its two
readings: an `i32` operand and an `f32` operand (30_encoding.md R92). -/

namespace Sys2Proof

/-- A word of the command stream or of the sample output stream; bit 0 is the least significant (R8). -/
abbrev Word := BitVec 32

/-- The 32 bits of an IEEE 754 binary32 value: sign in bit 31, biased exponent in 30:23, fraction in 22:0 (R8).
`f32(w)` and `bits(x)` of R8 are therefore the identity on the bits. -/
abbrev F32 := BitVec 32

/-- `s32(w)`: the two's-complement reading of a word, in [−2^31, 2^31−1] (R8). -/
def s32 (w : Word) : Int := w.toInt

/-- The word whose `s32` is `k`, for `k` in [−2^31, 2^31−1]. -/
def ofS32 (k : Int) : Word := BitVec.ofInt 32 k

end Sys2Proof
end

