-- ==== Sys2Proof/Syntax.lean ====
section
/-! DEFINITION. The instructions: the 26 commands of 30_encoding.md R96, one constructor for each row of
spec/opcode_table.json, in the table's order. -/

namespace Sys2Proof

/-- A command with its operands. An `i32` operand is the integer `s32(w)` and an `f32` operand is the 32 bits of a
binary32 value (30_encoding.md R92). -/
inductive Instr where
  | init (sampleRate : F32) (tableSize : Int)
  | shutdown
  | noteOn (midi : Int) (velocity : F32)
  | noteOffAll
  | noteOffMidi (midi : Int)
  | setAmp (amp : F32)
  | setFreq (freq : F32)
  | setEnv (atk dec sus rel : F32)
  | setPoly (n : Int)
  | setWave (type : Int)
  | setWave1 (type : Int)
  | setWave2 (type : Int)
  | setDetune1 (semitones : F32)
  | setDetune2 (semitones : F32)
  | setGain1 (gain : F32)
  | setGain2 (gain : F32)
  | fm1 (carrierRatio modulatorRatio index : F32)
  | fm2 (carrierRatio modulatorRatio index : F32)
  | filterSet (cutoffHz resonance : F32)
  | filterEnv (atk dec sus rel : F32)
  | filterEnvAmount (hz : F32)
  | lfoSet (rateHz : F32)
  | lfoDest (destinationId : Int)
  | lfoAmount (value : F32)
  | lfoAmountSemi (semitones : F32)
  | render (frameCount : Int)
deriving DecidableEq, Repr

end Sys2Proof
end

