-- ==== Sys2Proof/WellFormed.lean ====
section
/-! DEFINITION. When a term of `Instr` is a command the word stream can carry (30_encoding.md R92, R93): an `i32` operand
is the `s32` of some word. No operand value is otherwise refused. -/

namespace Sys2Proof

/-- `k` is the `s32` of some word (00_scope.md R8). -/
def fitsI32 (k : Int) : Bool := decide (-(2 ^ 31) ≤ k) && decide (k < 2 ^ 31)

/-- Every `i32` operand of `i` fits its word; every `f32` pattern is legal (30_encoding.md R95). -/
def Instr.wellFormed (i : Instr) : Bool :=
  match i with
  | .init _ tableSize => fitsI32 tableSize
  | .noteOn midi _ => fitsI32 midi
  | .noteOffMidi midi => fitsI32 midi
  | .setPoly n => fitsI32 n
  | .setWave type => fitsI32 type
  | .setWave1 type => fitsI32 type
  | .setWave2 type => fitsI32 type
  | .lfoDest destinationId => fitsI32 destinationId
  | .render frameCount => fitsI32 frameCount
  | .shutdown | .noteOffAll => true
  | .setAmp _ | .setFreq _ | .setEnv _ _ _ _ => true
  | .setDetune1 _ | .setDetune2 _ | .setGain1 _ | .setGain2 _ => true
  | .fm1 _ _ _ | .fm2 _ _ _ => true
  | .filterSet _ _ | .filterEnv _ _ _ _ | .filterEnvAmount _ => true
  | .lfoSet _ | .lfoAmount _ | .lfoAmountSemi _ => true

end Sys2Proof
end

