-- ==== Sys2Proof/Decode.lean ====
section
/-! DEFINITION. The decoder and the encoder of 30_encoding.md: header fields (R91), the opcode map (R96), the checks of
`Execute` (R94), decoding of a whole command, and the words of a command. -/

namespace Sys2Proof

/-! ## Header fields (R91) -/

/-- `OPC`, header bits 7:0. -/
def opcField (h : Word) : Nat := (h.extractLsb' 0 8).toNat
/-- `LEN`, header bits 15:8: how many operand words follow (R90). -/
def lenField (h : Word) : Nat := (h.extractLsb' 8 8).toNat
/-- `RSV`, header bits 31:16: reserved, must be 0. -/
def rsvField (h : Word) : Nat := (h.extractLsb' 16 16).toNat

/-- `header(OPC, LEN) = (LEN << 8) | OPC` (R91). -/
def header (opc len : Nat) : Word := (BitVec.ofNat 32 len <<< 8) ||| BitVec.ofNat 32 opc

/-! ## The opcode map (R96) -/

/-- The type of an operand word (R92). -/
inductive OperandType where
  | i32 | f32
deriving DecidableEq, Repr

/-- A row of the opcode map: opcode, mnemonic, and the operand types in word order. -/
structure OpRow where
  opc      : Nat
  mnemonic : String
  operands : List OperandType
deriving DecidableEq, Repr

/-- Rows 0x01 to 0x0D of R96. -/
def opcodeRowsLow : List OpRow :=
  [ ⟨0x01, "INIT", [.f32, .i32]⟩,
    ⟨0x02, "SHUTDOWN", []⟩,
    ⟨0x03, "NOTE_ON", [.i32, .f32]⟩,
    ⟨0x04, "NOTE_OFF_ALL", []⟩,
    ⟨0x05, "NOTE_OFF_MIDI", [.i32]⟩,
    ⟨0x06, "SET_AMP", [.f32]⟩,
    ⟨0x07, "SET_FREQ", [.f32]⟩,
    ⟨0x08, "SET_ENV", [.f32, .f32, .f32, .f32]⟩,
    ⟨0x09, "SET_POLY", [.i32]⟩,
    ⟨0x0A, "SET_WAVE", [.i32]⟩,
    ⟨0x0B, "SET_WAVE1", [.i32]⟩,
    ⟨0x0C, "SET_WAVE2", [.i32]⟩,
    ⟨0x0D, "SET_DETUNE1", [.f32]⟩ ]

/-- Rows 0x0E to 0x1A of R96. -/
def opcodeRowsHigh : List OpRow :=
  [ ⟨0x0E, "SET_DETUNE2", [.f32]⟩,
    ⟨0x0F, "SET_GAIN1", [.f32]⟩,
    ⟨0x10, "SET_GAIN2", [.f32]⟩,
    ⟨0x11, "FM1", [.f32, .f32, .f32]⟩,
    ⟨0x12, "FM2", [.f32, .f32, .f32]⟩,
    ⟨0x13, "FILTER_SET", [.f32, .f32]⟩,
    ⟨0x14, "FILTER_ENV", [.f32, .f32, .f32, .f32]⟩,
    ⟨0x15, "FILTER_ENV_AMOUNT", [.f32]⟩,
    ⟨0x16, "LFO_SET", [.f32]⟩,
    ⟨0x17, "LFO_DEST", [.i32]⟩,
    ⟨0x18, "LFO_AMOUNT", [.f32]⟩,
    ⟨0x19, "LFO_AMOUNT_SEMI", [.f32]⟩,
    ⟨0x1A, "RENDER", [.i32]⟩ ]

/-- The complete opcode map of R96. -/
def opcodeTable : List OpRow := opcodeRowsLow ++ opcodeRowsHigh

/-- The row of an opcode, if R96 has one. -/
def opcodeRow (opc : Nat) : Option OpRow := opcodeTable.find? fun r => r.opc == opc

/-- The header word of a row: `LEN` is the number of its operand words (R96). -/
def OpRow.header (r : OpRow) : Word := Sys2Proof.header r.opc r.operands.length

/-! ## Decoding (R94) -/

/-- Why a header is illegal (R94, R95). -/
inductive DecodeError where
  /-- `RSV` is not 0. -/
  | reservedBits
  /-- `OPC` is not in R96. -/
  | undefinedOpcode
  /-- `LEN` is not the opcode's. -/
  | badLength
deriving DecidableEq, Repr

/-- The commands without operands, by opcode. -/
def instrOf0 (opc : Nat) : Option Instr :=
  match opc with
  | 0x02 => some .shutdown
  | 0x04 => some .noteOffAll
  | _ => none

/-- The commands with one operand. -/
def instrOf1 (opc : Nat) (a : Word) : Option Instr :=
  match opc with
  | 0x05 => some (.noteOffMidi (s32 a))
  | 0x06 => some (.setAmp a)
  | 0x07 => some (.setFreq a)
  | 0x09 => some (.setPoly (s32 a))
  | 0x0A => some (.setWave (s32 a))
  | 0x0B => some (.setWave1 (s32 a))
  | 0x0C => some (.setWave2 (s32 a))
  | 0x0D => some (.setDetune1 a)
  | 0x0E => some (.setDetune2 a)
  | 0x0F => some (.setGain1 a)
  | 0x10 => some (.setGain2 a)
  | 0x15 => some (.filterEnvAmount a)
  | 0x16 => some (.lfoSet a)
  | 0x17 => some (.lfoDest (s32 a))
  | 0x18 => some (.lfoAmount a)
  | 0x19 => some (.lfoAmountSemi a)
  | 0x1A => some (.render (s32 a))
  | _ => none

/-- The commands with two operands. -/
def instrOf2 (opc : Nat) (a b : Word) : Option Instr :=
  match opc with
  | 0x01 => some (.init a (s32 b))
  | 0x03 => some (.noteOn (s32 a) b)
  | 0x13 => some (.filterSet a b)
  | _ => none

/-- The commands with three operands. -/
def instrOf3 (opc : Nat) (a b c : Word) : Option Instr :=
  match opc with
  | 0x11 => some (.fm1 a b c)
  | 0x12 => some (.fm2 a b c)
  | _ => none

/-- The commands with four operands. -/
def instrOf4 (opc : Nat) (a b c d : Word) : Option Instr :=
  match opc with
  | 0x08 => some (.setEnv a b c d)
  | 0x14 => some (.filterEnv a b c d)
  | _ => none

/-- The command of an opcode and its operand words (R92, R96), if they are as many as its row says. -/
def instrOf (opc : Nat) (ops : List Word) : Option Instr :=
  match ops with
  | [] => instrOf0 opc
  | [a] => instrOf1 opc a
  | [a, b] => instrOf2 opc a b
  | [a, b, c] => instrOf3 opc a b c
  | [a, b, c, d] => instrOf4 opc a b c d
  | _ => none

/-- The decoding half of `Execute` (R94): the checks in the rule's order, then the command. The decoder state machine always
hands over exactly `LEN` operand words; with any other number of them the length is wrong. -/
def decode (h : Word) (ops : List Word) : Except DecodeError Instr :=
  if rsvField h ≠ 0 then .error .reservedBits
  else match opcodeRow (opcField h) with
    | none => .error .undefinedOpcode
    | some r =>
      if lenField h ≠ r.operands.length then .error .badLength
      else match instrOf (opcField h) ops with
        | some i => .ok i
        | none => .error .badLength

/-- Decode one whole command given as its words, header first (R90): exactly `LEN` operand words must follow. -/
def decodeWords : List Word → Except DecodeError Instr
  | [] => .error .badLength
  | h :: ops => decode h ops

/-! ## Encoding (R91, R92, R96) -/

/-- The opcode of a command (R96). -/
def Instr.opcode : Instr → Nat
  | .init _ _ => 0x01
  | .shutdown => 0x02
  | .noteOn _ _ => 0x03
  | .noteOffAll => 0x04
  | .noteOffMidi _ => 0x05
  | .setAmp _ => 0x06
  | .setFreq _ => 0x07
  | .setEnv _ _ _ _ => 0x08
  | .setPoly _ => 0x09
  | .setWave _ => 0x0A
  | .setWave1 _ => 0x0B
  | .setWave2 _ => 0x0C
  | .setDetune1 _ => 0x0D
  | .setDetune2 _ => 0x0E
  | .setGain1 _ => 0x0F
  | .setGain2 _ => 0x10
  | .fm1 _ _ _ => 0x11
  | .fm2 _ _ _ => 0x12
  | .filterSet _ _ => 0x13
  | .filterEnv _ _ _ _ => 0x14
  | .filterEnvAmount _ => 0x15
  | .lfoSet _ => 0x16
  | .lfoDest _ => 0x17
  | .lfoAmount _ => 0x18
  | .lfoAmountSemi _ => 0x19
  | .render _ => 0x1A

/-- The operand words of a command, in word order (R92, R96). -/
def Instr.operandWords : Instr → List Word
  | .init sampleRate tableSize => [sampleRate, ofS32 tableSize]
  | .shutdown | .noteOffAll => []
  | .noteOn midi velocity => [ofS32 midi, velocity]
  | .noteOffMidi midi => [ofS32 midi]
  | .setAmp amp => [amp]
  | .setFreq freq => [freq]
  | .setEnv a d s r => [a, d, s, r]
  | .setPoly n => [ofS32 n]
  | .setWave type => [ofS32 type]
  | .setWave1 type => [ofS32 type]
  | .setWave2 type => [ofS32 type]
  | .setDetune1 semitones => [semitones]
  | .setDetune2 semitones => [semitones]
  | .setGain1 gain => [gain]
  | .setGain2 gain => [gain]
  | .fm1 c m index => [c, m, index]
  | .fm2 c m index => [c, m, index]
  | .filterSet cutoffHz resonance => [cutoffHz, resonance]
  | .filterEnv a d s r => [a, d, s, r]
  | .filterEnvAmount hz => [hz]
  | .lfoSet rateHz => [rateHz]
  | .lfoDest destinationId => [ofS32 destinationId]
  | .lfoAmount value => [value]
  | .lfoAmountSemi semitones => [semitones]
  | .render frameCount => [ofS32 frameCount]

/-- The header word of a command. -/
def Instr.headerWord (i : Instr) : Word := header i.opcode i.operandWords.length

/-- The words of a command, header first. -/
def encode (i : Instr) : List Word := i.headerWord :: i.operandWords

/-! ## The words of a table row (for the host) -/

/-- Word number `k` of the `nbits` low bits of `w`, the first word in the lowest bits. -/
def tableWord (nbits w k : Nat) : Word := BitVec.ofNat 32 (w % 2 ^ nbits / 2 ^ (32 * k))

/-- The operand words that the header in `w` says follow it; words above `nbits` are 0. -/
def tableOperands (nbits w : Nat) : List Word :=
  (List.range (lenField (tableWord nbits w 0))).map fun k => tableWord nbits w (k + 1)

/-- The command the decoder reads from an instruction whose bits are `w`, none where it is illegal. -/
def decodeTableWord (nbits w : Nat) : Option Instr :=
  match decode (tableWord nbits w 0) (tableOperands nbits w) with
  | .ok i => some i
  | .error _ => none

end Sys2Proof
end

