-- ==== Sys2Proof/Config.lean ====
section
/-! DEFINITION. What is fixed for one implementation: the named constants of 00_scope.md R6, the types of the values the
external DSP-primitive library hands out (R14), the requests the block makes to it (R14, R80), and the OPEN parameters of
R7 as one record `Config` whose value `Config.impl` has no body, so that nothing can be proved of it. -/

namespace Sys2Proof

/-! ## The fixed constants (R6) -/

/-- `NV`: voice slots in the voice register file. -/
abbrev NV : Nat := 16
/-- `POLY_MIN`: least legal polyphony. -/
abbrev POLY_MIN : Int := 1
/-- `POLY_MAX`: greatest legal polyphony. -/
abbrev POLY_MAX : Int := 16
/-- `A4_MIDI`: the reference note. -/
abbrev A4_MIDI : Int := 69
/-- `MIDI_MIN` of the note clamp (40_voice_pool.md R134). -/
abbrev MIDI_MIN : Int := 0
/-- `MIDI_MAX` of the note clamp (40_voice_pool.md R134). -/
abbrev MIDI_MAX : Int := 127
/-- `TABLE_MIN`: smallest accepted table size. -/
abbrev TABLE_MIN : Int := 64
/-- `TABLE_DEFAULT`: replacement table size. -/
abbrev TABLE_DEFAULT : Int := 2048
/-- `NDEST`: LFO destinations. -/
abbrev NDEST : Nat := 8
/-- `NWAVE`: oscillator-slot types. -/
abbrev NWAVE : Nat := 5
/-- The least LFO destination: they are numbered from 0 (R6). -/
abbrev DEST_MIN : Int := 0
/-- The greatest LFO destination, from `NDEST` (10_state.md R38). -/
abbrev DEST_MAX : Int := (NDEST : Int) - 1
/-- The least oscillator-slot type: they are numbered from 0 (R6). -/
abbrev WAVE_MIN : Int := 0
/-- The greatest oscillator-slot type, from `NWAVE` (10_state.md R37). -/
abbrev WAVE_MAX : Int := (NWAVE : Int) - 1

/-- +0.0. -/
abbrev posZero : F32 := 0x00000000#32
/-- −0.0. -/
abbrev negZero : F32 := 0x80000000#32
/-- 1.0. -/
abbrev one : F32 := 0x3F800000#32
/-- 2.0. -/
abbrev two : F32 := 0x40000000#32
/-- `A4_HZ` = 440.0. -/
abbrev A4_HZ : F32 := 0x43DC0000#32
/-- `SEMIS` = 12.0. -/
abbrev SEMIS : F32 := 0x41400000#32
/-- `RELEASE_THRESHOLD`: the binary32 nearest to 1e-4, as R6 gives it. -/
abbrev RELEASE_THRESHOLD : F32 := 0x38D1B717#32
/-- `VEL_MIN` = 0.0. -/
abbrev VEL_MIN : F32 := posZero
/-- `VEL_MAX` = 1.0. -/
abbrev VEL_MAX : F32 := one
/-- `GAIN_MIN` = 0.0. -/
abbrev GAIN_MIN : F32 := posZero
/-- `GAIN_MAX` = 2.0. -/
abbrev GAIN_MAX : F32 := two
/-- `AMP_MIN` = 0.0. -/
abbrev AMP_MIN : F32 := posZero
/-- `AMP_MAX` = 2.0. -/
abbrev AMP_MAX : F32 := two
/-- `RES_MIN` = 0.0. -/
abbrev RES_MIN : F32 := posZero
/-- `RES_MAX` = 1.0. -/
abbrev RES_MAX : F32 := one
/-- `CUTOFF_MIN` = 20.0 Hz. -/
abbrev CUTOFF_MIN : F32 := 0x41A00000#32
/-- `CUTOFF_MARGIN` = 100.0 Hz. -/
abbrev CUTOFF_MARGIN : F32 := 0x42C80000#32

/-! ## What the DSP-primitive library hands out (R14)

Each unit's internal state is opaque to the block, which stores it and never inspects it (10_state.md R30). It stands here
as a number `code`: a digital unit's state is finitely many bits, and any such state has a number. -/

/-- The four wavetable shapes: 0 sine, 1 saw, 2 square, 3 triangle (R14). -/
inductive Shape where
  | sine | saw | square | triangle
deriving DecidableEq, Repr

/-- The tag of an oscillator unit (R14): a wavetable oscillator, or an FM oscillator. -/
inductive OscKind where
  | wt | fm
deriving DecidableEq, Repr

/-- A reference to a table in the library. `ref` is its identity, which a rebuild keeps; `contents` numbers what the
builder last wrote into it (R14, 60_exceptions.md R272). -/
structure TableRef where
  ref      : Nat
  contents : Nat
deriving DecidableEq, Repr, Inhabited

/-- An oscillator unit: its tag, which the block tests (42_signal_chain_and_mixer.md R182), and its opaque state. -/
structure OscState where
  kind : OscKind
  code : Nat
deriving DecidableEq, Repr

/-- An ADSR envelope unit's opaque state. -/
structure EnvState where
  code : Nat
deriving DecidableEq, Repr, Inhabited

/-- A filter unit's opaque state. -/
structure FiltState where
  code : Nat
deriving DecidableEq, Repr, Inhabited

/-- One request on the port to the DSP-primitive library, with its arguments (R14). -/
inductive Request where
  | tblBuild (size : Word) (shape : Shape)
  | tblRebuild (t : TableRef) (shape : Shape)
  | oscNew (kind : OscKind) (t : TableRef)
  | oscStep (o : OscState) (freq : F32)
  | fmStep (o : OscState) (freq carrier modulator index : F32)
  | envNew
  | envSet (e : EnvState) (a d s r : F32)
  | envStep (e : EnvState) (gate : F32)
  | filtNew (sampleRate : F32)
  | filtStep (f : FiltState) (x cutoff res : F32)
  | releaseOsc (o : OscState)
  | releaseEnv (e : EnvState)
  | releaseFilt (f : FiltState)
  | releaseTbl (t : TableRef)
deriving DecidableEq, Repr

/-! ## The open parameters (R7) -/

/-- The open parameters of R7, and the values the rules leave open. Every function is total and deterministic in its
arguments (R14). The fields marked "raw" are brought into the range the spec allows by the operation that reads them:
`Machine.nan`, `Machine.pow2` and `Machine.State.reset`. -/
structure Config where
  /-- `POW2` away from the points that `POW2_EXACT` fixes (R13). -/
  pow2Raw      : F32 → F32
  /-- `NAN_RESULT`, raw: used where it is a NaN (R11). -/
  nanRaw       : F32
  /-- `RESET_PARAMS` of a real-valued parameter register, by the register's number in 10_state.md R35. -/
  resetReal    : Nat → F32
  /-- `RESET_PARAMS` of an integer parameter register, by number, raw (10_state.md R35). -/
  resetInt     : Nat → Int
  /-- The power-on value of a register whose reset value is unspecified (70_reset_and_hazards.md R290). -/
  resetOpen    : Nat → Word
  /-- `TblBuild`: the table built by the creation request numbered `draw`. -/
  tblBuild     : (draw : Nat) → (size : Word) → Shape → TableRef
  /-- `TblRebuild`: the contents the table gets; its identity is kept. -/
  tblRebuild   : TableRef → Shape → Nat
  /-- `OscNew`: the state of a new unit; its tag is the kind asked for. -/
  oscNew       : OscKind → TableRef → Nat
  /-- `OscStep`: the sample and the unit's next state; the tag is kept. -/
  oscStep      : OscState → F32 → F32 × Nat
  /-- `FmStep`: the sample and the unit's next state; the tag is kept. -/
  fmStep       : OscState → F32 → F32 → F32 → F32 → F32 × Nat
  envNew       : EnvState
  envSet       : EnvState → F32 → F32 → F32 → F32 → EnvState
  envStep      : EnvState → F32 → F32 × EnvState
  filtNew      : F32 → FiltState
  filtStep     : FiltState → F32 → F32 → F32 → F32 × FiltState
  /-- `CreateFails`: whether the creation request numbered `draw` answers FAIL (R14). -/
  createFails  : (draw : Nat) → Request → Bool
  /-- Whether a Fatal puts back the registers its command wrote before it. 60_exceptions.md R266 says it leaves the state before
  the command, torn down; the pseudocode of R263 undoes no write, and 95_test_vectors.md F-4 and F-5 keep what was written. No
  ruling of 90_conflicts.md chooses, so it is open (DESIGN CHOICE, log 24). -/
  fatalRestores : Bool
  /-- What a unit that is not there would answer. No rule asks one (10_state.md R33, R40). -/
  noUnitSample : F32
deriving Inhabited

/-- The implementation's open parameters: a constant with no body, so a claim about it holds for every choice. -/
opaque Config.impl : Config

end Sys2Proof
end

