-- ==== Sys2Proof/Machine/State.lean ====
section
/-! DEFINITION. The block's state (10_state.md R30): the engine registers, the parameter registers, the voice register file,
STATUS, the command-decoder state and the sample output stream; the two other ports' words (20_memory.md R70); and the
power-on values (70_reset_and_hazards.md R290). -/

namespace Sys2Proof.Machine

/-- The two oscillator slots of a voice (00_scope.md R16). -/
inductive OscSlot where
  | one | two
deriving DecidableEq, Repr

/-- The two envelopes of a voice: amplitude (`aenv`) and filter (`fenv`) (10_state.md R40). -/
inductive EnvRole where
  | amp | filt
deriving DecidableEq, Repr

/-- The legal values of `P.wave1` and `P.wave2`: 0 sine, 1 saw, 2 square, 3 triangle, 4 FM (10_state.md R37). -/
inductive Wave where
  | sine | saw | square | triangle | fm
deriving DecidableEq, Repr

/-- The number of a waveform type (R37). -/
def Wave.number : Wave → Nat
  | .sine => 0
  | .saw => 1
  | .square => 2
  | .triangle => 3
  | .fm => 4

/-- The legal values of `P.lfoDest`, in the order of 10_state.md R38. -/
inductive LfoDest where
  | pitch | cutoff | amp | res | gain1 | gain2 | fm1 | fm2
deriving DecidableEq, Repr

/-- The number of an LFO destination (R38). -/
def LfoDest.number : LfoDest → Nat
  | .pitch => 0
  | .cutoff => 1
  | .amp => 2
  | .res => 3
  | .gain1 => 4
  | .gain2 => 5
  | .fm1 => 6
  | .fm2 => 7

/-- The engine registers `E` (10_state.md R32). -/
structure Engine where
  /-- `E.init`: engine initialized. -/
  init       : Bool
  /-- `E.sampleRate`, in Hz. -/
  sampleRate : F32
  /-- `E.tableSize`, a uint32. -/
  tableSize  : Word
  /-- `E.alloc`, 0..16: slots 0..alloc−1 have DSP units. -/
  alloc      : Nat
  /-- `E.rr`, 0..15: round-robin steal counter. -/
  rr         : Nat
  /-- `E.lfo`: master LFO oscillator unit. -/
  lfo        : Option OscState
  /-- `E.sine`: shared sine table. -/
  sine       : Option TableRef
  /-- `E.tbl1`: oscillator-slot-1 wavetable. -/
  tbl1       : Option TableRef
  /-- `E.tbl2`: oscillator-slot-2 wavetable. -/
  tbl2       : Option TableRef
deriving DecidableEq, Repr

/-- The parameter registers `P`, in the order of their numbers 0x00..0x1B (10_state.md R35). -/
structure Params where
  masterAmp  : F32
  envA       : F32
  envD       : F32
  envS       : F32
  envR       : F32
  /-- `P.poly`, 1..16. -/
  poly       : Nat
  wave1      : Wave
  wave2      : Wave
  detune1    : F32
  detune2    : F32
  gain1      : F32
  gain2      : F32
  fm1Carrier : F32
  fm1Mod     : F32
  fm1Index   : F32
  fm2Carrier : F32
  fm2Mod     : F32
  fm2Index   : F32
  cutoff     : F32
  res        : F32
  fenvA      : F32
  fenvD      : F32
  fenvS      : F32
  fenvR      : F32
  fenvAmount : F32
  lfoRate    : F32
  lfoDest    : LfoDest
  lfoAmount  : F32
deriving DecidableEq, Repr

/-- One entry `V[i]` of the voice register file (10_state.md R40). -/
structure Voice where
  active   : Bool
  /-- Only +0.0 or 1.0. -/
  gate     : F32
  /-- −1..127, −1 when unassigned. -/
  midi     : Int
  baseFreq : F32
  velocity : F32
  osc1     : Option OscState
  osc2     : Option OscState
  aenv     : Option EnvState
  fenv     : Option EnvState
  filt     : Option FiltState
deriving DecidableEq, Repr

/-- The stored fields of STATUS (10_state.md R44). `S.INIT` mirrors `E.init` and the reserved bits read 0, so neither is
stored: `Machine.statusWord` is the register as the host reads it. -/
structure Status where
  /-- `S.ERR_CMD`, sticky. -/
  errCmd  : Bool
  /-- `S.FATAL`, sticky. -/
  fatal   : Bool
  /-- `S.ERRCODE`, the first error's code. -/
  errCode : BitVec 8
deriving DecidableEq, Repr

/-- `D.phase` (10_state.md R45). -/
inductive Phase where
  | header | operands
deriving DecidableEq, Repr

/-- The number of entries of `D.ops` (10_state.md R45). -/
abbrev NOPS : Nat := 255

/-- The decoder state `D` (10_state.md R45). -/
structure Decoder where
  /-- `D.phase`: waiting for a header, or collecting operands. -/
  phase : Phase
  /-- `D.hdr`: the header word being collected for. -/
  hdr   : Word
  /-- `D.k`, 0..255: how many operand words of the command have been received. -/
  k     : Nat
  /-- `D.ops[0..254]`: the operand words received; an entry keeps its word until it is written again (00_scope.md R9). -/
  ops   : Vector Word NOPS
deriving DecidableEq, Repr

/-- The state of the block and of its ports. -/
structure State where
  /-- The engine registers `E`. -/
  eng      : Engine
  /-- The parameter registers `P`. -/
  par      : Params
  /-- The voice register file `V[0..15]`. -/
  voices   : Vector Voice NV
  /-- STATUS, `S`. -/
  st       : Status
  /-- The command-decoder state `D`. -/
  dec      : Decoder
  /-- The sample output stream: every word emitted since power-on, oldest first (R46). -/
  out      : List Word
  /-- The command input port: the words the host has sent and the block has not received, oldest first (R70). The model's. -/
  input    : List Word
  /-- The request port: every request made to the DSP library since power-on, oldest first (R70, R80). The model's. -/
  requests : List Request
  /-- How many creation requests were made: the number of the next draw of `CreateFails` (R14). The model's. -/
  draws    : Nat
deriving DecidableEq, Repr

/-- What stops a step with a fault: nothing. The block has no exceptions and no traps (60_exceptions.md R260), its decoder is
total on every word sequence (30_encoding.md R94), and both error paths end in a next state (R262, R263). -/
inductive Fault where
deriving DecidableEq, Repr

/-- What stops a step without a meaning. -/
inductive Refusal where
  /-- An instruction that has no meaning yet. Raised by no arm of `exec`; were it raised, the stop would be safe. -/
  | notModelled (mnemonic : String)
deriving DecidableEq, Repr

/-! ## Power-on reset (70_reset_and_hazards.md R290) -/

/-- An integer register's open power-on value, brought into its legal range `lo .. hi` (R290). -/
def resetInRange (k lo hi : Int) : Nat := (if k < lo then lo else if hi < k then hi else k).toNat

/-- The waveform type with a number; above 3 is FM (R37). -/
def Wave.ofNumber : Nat → Wave
  | 0 => .sine
  | 1 => .saw
  | 2 => .square
  | 3 => .triangle
  | _ => .fm

/-- The LFO destination with a number; above 6 is FM-2 index (R38). -/
def LfoDest.ofNumber : Nat → LfoDest
  | 0 => .pitch
  | 1 => .cutoff
  | 2 => .amp
  | 3 => .res
  | 4 => .gain1
  | 5 => .gain2
  | 6 => .fm1
  | _ => .fm2

/-- `RESET_PARAMS`: every parameter register's power-on value, an OPEN parameter, by the register's number (R35, R290). -/
def Params.powerOn (c : Config) : Params where
  masterAmp  := c.resetReal 0x00
  envA       := c.resetReal 0x01
  envD       := c.resetReal 0x02
  envS       := c.resetReal 0x03
  envR       := c.resetReal 0x04
  poly       := resetInRange (c.resetInt 0x05) POLY_MIN POLY_MAX
  wave1      := Wave.ofNumber (resetInRange (c.resetInt 0x06) WAVE_MIN WAVE_MAX)
  wave2      := Wave.ofNumber (resetInRange (c.resetInt 0x07) WAVE_MIN WAVE_MAX)
  detune1    := c.resetReal 0x08
  detune2    := c.resetReal 0x09
  gain1      := c.resetReal 0x0A
  gain2      := c.resetReal 0x0B
  fm1Carrier := c.resetReal 0x0C
  fm1Mod     := c.resetReal 0x0D
  fm1Index   := c.resetReal 0x0E
  fm2Carrier := c.resetReal 0x0F
  fm2Mod     := c.resetReal 0x10
  fm2Index   := c.resetReal 0x11
  cutoff     := c.resetReal 0x12
  res        := c.resetReal 0x13
  fenvA      := c.resetReal 0x14
  fenvD      := c.resetReal 0x15
  fenvS      := c.resetReal 0x16
  fenvR      := c.resetReal 0x17
  fenvAmount := c.resetReal 0x18
  lfoRate    := c.resetReal 0x19
  lfoDest    := LfoDest.ofNumber (resetInRange (c.resetInt 0x1A) DEST_MIN DEST_MAX)
  lfoAmount  := c.resetReal 0x1B

/-- The engine registers after power-on; the rate and the table size are unspecified (R290). -/
def Engine.powerOn (c : Config) : Engine where
  init       := false
  sampleRate := c.resetOpen 0
  tableSize  := c.resetOpen 1
  alloc      := 0
  rr         := 0
  lfo        := none
  sine       := none
  tbl1       := none
  tbl2       := none

/-- An idle voice without units (R41), with a given base frequency, which is unread while the voice is idle. -/
def Voice.blank (baseFreq : F32) : Voice where
  active   := false
  gate     := posZero
  midi     := -1
  baseFreq := baseFreq
  velocity := posZero
  osc1     := none
  osc2     := none
  aenv     := none
  fenv     := none
  filt     := none

/-- `n` open power-on values, from the one numbered `first` on. -/
def openWords (c : Config) (first n : Nat) : List Word :=
  match n with
  | 0 => []
  | m + 1 => c.resetOpen first :: openWords c (first + 1) m

theorem openWords_length (c : Config) (first n : Nat) : (openWords c first n).length = n := by
  induction n generalizing first with
  | zero => rfl
  | succ m ih => exact congrArg (· + 1) (ih (first + 1))

/-- The block after power-on reset, under a configuration (R290). -/
def State.powerOn (c : Config) : State where
  eng      := Engine.powerOn c
  par      := Params.powerOn c
  voices   := Vector.ofFn fun i => Voice.blank (c.resetOpen (3 + i.val))
  st       := { errCmd := false, fatal := false, errCode := 0 }
  dec      :=
    { phase := .header, hdr := c.resetOpen 2, k := 0, ops := Vector.mk (Array.mk (openWords c (3 + NV) NOPS)) (openWords_length c _ NOPS) }
  out      := []
  input    := []
  requests := []
  draws    := 0

/-- The block right after power-on reset (R290). -/
def State.reset : State := State.powerOn Config.impl

end Sys2Proof.Machine
end

