-- ==== Sys2Proof/Machine/Float.lean ====
section
/-! DEFINITION. Binary32 arithmetic of 00_scope.md R10, R11 and R13: the fields of a value, rounding to nearest even, the four
operations, the quiet comparisons, `i2f`, and `POW2`.

Every finite binary32 value is a whole number of units of 2^-149, so an operation computes the exact result as a ratio of
whole numbers of units and rounds it once. -/

namespace Sys2Proof.Machine

/-! ## Fields and classes (R8) -/

/-- The sign, bit 31. -/
def signBit (x : F32) : Bool := x.msb
/-- The biased exponent, bits 30:23. -/
def expField (x : F32) : Nat := (x.extractLsb' 23 8).toNat
/-- The fraction, bits 22:0. -/
def fracField (x : F32) : Nat := (x.extractLsb' 0 23).toNat

/-- `x` is a NaN. -/
def isNaN (x : F32) : Bool := expField x == 255 && fracField x != 0
/-- `x` is an infinity. -/
def isInf (x : F32) : Bool := expField x == 255 && fracField x == 0
/-- `x` is +0.0 or −0.0. -/
def isZero (x : F32) : Bool := expField x == 0 && fracField x == 0

/-- The magnitude of a finite value, in units of 2^-149. Subnormals are not flushed (R11). -/
def magUnits (x : F32) : Nat :=
  if expField x = 0 then fracField x else (2 ^ 23 + fracField x) * 2 ^ (expField x - 1)

/-- A finite value, in units of 2^-149. -/
def valUnits (x : F32) : Int := if signBit x then -(magUnits x : Int) else magUnits x

/-! ## Rounding -/

/-- `n / d` rounded to the nearest whole number, ties to even. -/
def roundEven (n d : Nat) : Nat :=
  let q := n / d
  let r := n % d
  if 2 * r < d then q else if d < 2 * r then q + 1 else q + q % 2

/-- Bits 30:0 of infinity. -/
abbrev infBits : Nat := 0x7F800000

/-- Bits 30:0 of the binary32 magnitude nearest to `n / d` units (roundTiesToEven); too large a magnitude gives infinity.
The quantum is the power of two that leaves 24 significant bits, never below one unit. -/
def roundBits (n d : Nat) : Nat :=
  let sh := Nat.log2 (n / d) - 23
  let b := roundEven n (d * 2 ^ sh) + sh * 2 ^ 23
  if b < infBits then b else infBits

/-- A binary32 word from its sign and its bits 30:0. -/
def pack (neg : Bool) (bits : Nat) : F32 := BitVec.ofNat 32 ((if neg then 2 ^ 31 else 0) + bits)

/-- The binary32 value nearest to ± `n / d` units. -/
def roundF32 (neg : Bool) (n d : Nat) : F32 := pack neg (roundBits n d)

/-! ## The operations (R11) -/

/-- `NAN_RESULT` (R11): the configuration's value where it is a NaN. -/
def nan (c : Config) : F32 := if isNaN c.nanRaw then c.nanRaw else 0x7FC00000#32

/-- `x + y`. -/
def fadd (c : Config) (x y : F32) : F32 :=
  if isNaN x || isNaN y then nan c
  else if isInf x then (if isInf y && signBit x != signBit y then nan c else x)
  else if isInf y then y
  else
    let v := valUnits x + valUnits y
    if v = 0 then (if signBit x && signBit y then negZero else posZero)
    else roundF32 (decide (v < 0)) v.natAbs 1

/-- `x` with its sign turned. -/
def fneg (x : F32) : F32 := x ^^^ negZero

/-- `x − y`. -/
def fsub (c : Config) (x y : F32) : F32 := fadd c x (fneg y)

/-- `x × y`. -/
def fmul (c : Config) (x y : F32) : F32 :=
  let neg := signBit x != signBit y
  if isNaN x || isNaN y then nan c
  else if isInf x || isInf y then (if isZero x || isZero y then nan c else pack neg infBits)
  else roundF32 neg (magUnits x * magUnits y) (2 ^ 149)

/-- `x / y`. -/
def fdiv (c : Config) (x y : F32) : F32 :=
  let neg := signBit x != signBit y
  if isNaN x || isNaN y then nan c
  else if isInf x then (if isInf y then nan c else pack neg infBits)
  else if isInf y then pack neg 0
  else if isZero y then (if isZero x then nan c else pack neg infBits)
  else roundF32 neg (magUnits x * 2 ^ 149) (magUnits y)

/-! ## The quiet comparisons (R11) -/

/-- The place of a value that is not a NaN in the order of binary32 values; both zeros are at 0. -/
def ordKey (x : F32) : Int :=
  let mag : Nat := (x.extractLsb' 0 31).toNat
  if signBit x then -(mag : Int) else mag

/-- `x < y`: false when either is a NaN. -/
def flt (x y : F32) : Bool := !isNaN x && !isNaN y && decide (ordKey x < ordKey y)
/-- `x <= y`: false when either is a NaN. -/
def fle (x y : F32) : Bool := !isNaN x && !isNaN y && decide (ordKey x ≤ ordKey y)
/-- `x > y`: false when either is a NaN. -/
def fgt (x y : F32) : Bool := flt y x
/-- `x == y`: false when either is a NaN, and +0.0 == −0.0. -/
def feq (x y : F32) : Bool := !isNaN x && !isNaN y && decide (ordKey x = ordKey y)

/-! ## `i2f` and `POW2` -/

/-- `i2f(k)`: an integer as a binary32, roundTiesToEven (R10). -/
def i2f (k : Int) : F32 := roundF32 (decide (k < 0)) (k.natAbs * 2 ^ 149) 1

/-- The integer `k` with `x = i2f(k)`, for |k| ≤ 127, if there is one. −0.0 is no `i2f`. -/
def smallInt (x : F32) : Option Int :=
  let k := valUnits x / 2 ^ 149
  if -127 ≤ k ∧ k ≤ 127 ∧ x = i2f k then some k else none

/-- 2^k as a binary32, for −126 ≤ k ≤ 127. -/
def pow2Bits (k : Int) : F32 := pack false ((k + 127).toNat * 2 ^ 23)

/-- `POW2(x)` (R13): exact where `POW2_EXACT` fixes it, the configuration's value elsewhere. -/
def pow2 (c : Config) (x : F32) : F32 :=
  match smallInt x with
  | some k => if -126 ≤ k ∧ k ≤ 127 then pow2Bits k else c.pow2Raw x
  | none => c.pow2Raw x

end Sys2Proof.Machine
end

