-- ==== Sys2Proof/Machine/Operands.lean ====
section
/-! DEFINITION. What a command does with an operand before it uses it: the integer clamp (00_scope.md R10), the binary32 clamp
(R12), and the clamps of the integer registers (10_state.md R36 to R38, 44_engine_lifecycle.md R240). -/

namespace Sys2Proof.Machine

/-- `clampI(k, lo, hi)` (R10). -/
def clampI (k lo hi : Int) : Int := if k < lo then lo else if hi < k then hi else k

/-- `clamp(x, lo, hi)` on binary32 values (R12). -/
def clamp (x lo hi : F32) : F32 := if flt x lo then lo else if fgt x hi then hi else x

/-- A note operand, clamped to 0..127 (40_voice_pool.md R134, R135). -/
def midiOperand (k : Int) : Int := clampI k MIDI_MIN MIDI_MAX

/-- A polyphony operand, clamped to 1..16 (40_voice_pool.md R137). -/
def polyOperand (k : Int) : Nat := (clampI k POLY_MIN POLY_MAX).toNat

/-- A waveform-type operand, clamped to 0..4 (43_parameter_store.md R224). -/
def waveOperand (k : Int) : Wave := Wave.ofNumber (clampI k WAVE_MIN WAVE_MAX).toNat

/-- An LFO-destination operand, clamped to 0..7 (41_modulation_router.md R163). -/
def destOperand (k : Int) : LfoDest := LfoDest.ofNumber (clampI k DEST_MIN DEST_MAX).toNat

/-- A table-size operand: below 64 it is replaced by 2048 (44_engine_lifecycle.md R240). -/
def tableSizeOperand (k : Int) : Word := ofS32 (if k < TABLE_MIN then TABLE_DEFAULT else k)

/-- The builder's shape of a waveform type, none for FM. -/
def Wave.shape? : Wave → Option Shape
  | .sine => some .sine
  | .saw => some .saw
  | .square => some .square
  | .triangle => some .triangle
  | .fm => none

/-- `shape(t)` of INIT: an FM slot's table is built as sine (44_engine_lifecycle.md R240). -/
def Wave.shapeAtInit (w : Wave) : Shape := w.shape?.getD .sine

/-- The kind of oscillator unit a waveform type needs (40_voice_pool.md R131). -/
def Wave.kind (w : Wave) : OscKind := if w = .fm then .fm else .wt

end Sys2Proof.Machine
end

