-- ==== Sys2Proof/Machine/Flags.lean ====
section
/-! DEFINITION. The STATUS register (10_state.md R44) and what the two error paths record in it (60_exceptions.md R262 to R265).
The block has no condition codes (10_state.md R47): no arithmetic writes a flag. -/

namespace Sys2Proof.Machine

/-- STATUS as the host reads it (R44): reserved bits 31:16 and 7:3 read as 0. Reading it changes nothing (20_memory.md R74). -/
def statusWord (s : State) : Word :=
  0#16 ++ s.st.errCode ++ 0#5 ++ BitVec.ofBool s.st.fatal ++ BitVec.ofBool s.st.errCmd ++ BitVec.ofBool s.eng.init

/-- 0x01 CMD_UNDEFINED_OPCODE (R264). -/
abbrev CMD_UNDEFINED_OPCODE : BitVec 8 := 0x01#8
/-- 0x02 CMD_RESERVED_BITS (R264). -/
abbrev CMD_RESERVED_BITS : BitVec 8 := 0x02#8
/-- 0x03 CMD_BAD_LENGTH (R264). -/
abbrev CMD_BAD_LENGTH : BitVec 8 := 0x03#8
/-- 0x10 FATAL_RESOURCE (R264). -/
abbrev FATAL_RESOURCE : BitVec 8 := 0x10#8

/-- `if S.ERRCODE = 0: S.ERRCODE <- code`: the first code since power-on reset is kept (R265). -/
def Status.firstCode (st : Status) (code : BitVec 8) : Status :=
  if st.errCode = 0 then { st with errCode := code } else st

/-- What `CmdError(code)` writes to STATUS (R262). -/
def Status.cmdError (st : Status) (code : BitVec 8) : Status := { st with errCmd := true }.firstCode code

/-- What `Fatal(code)` writes to STATUS (R263). -/
def Status.fatalError (st : Status) (code : BitVec 8) : Status := { st with fatal := true }.firstCode code

/-- `CmdError(code)` (R262): the command is discarded and nothing but STATUS changes. -/
def cmdError (code : BitVec 8) (s : State) : State := { s with st := s.st.cmdError code }

end Sys2Proof.Machine
end

