-- ==== Sys2Proof/Machine/Ops.lean ====
section
/-! DEFINITION. The shared operations: access to the voice register file, counted loops, requests to the DSP library and their
answers, creation that may fail, Teardown (44_engine_lifecycle.md R242) and the fatal path (60_exceptions.md R263).

A request goes to the library only for a unit or table that is there. The rules never ask one that is not (10_state.md R33,
R40); where a state that no run reaches lacks one, no request is made, the field stays none and a sample is the open value
`Config.noUnitSample`. -/

namespace Sys2Proof.Machine

/-! ## Registers by slot -/

/-- `V[i]`. The rules index slots 0..15 only. -/
def State.voice (s : State) (i : Nat) : Voice := s.voices[i]?.getD (Voice.blank posZero)

/-- Write `V[i]`. -/
def State.setVoice (s : State) (i : Nat) (v : Voice) : State := { s with voices := s.voices.setIfInBounds i v }

/-- `V[i].osc<k>`. -/
def Voice.osc (v : Voice) : OscSlot → Option OscState
  | .one => v.osc1
  | .two => v.osc2

/-- Write `V[i].osc<k>`. -/
def Voice.setOsc (v : Voice) (k : OscSlot) (o : Option OscState) : Voice :=
  match k with
  | .one => { v with osc1 := o }
  | .two => { v with osc2 := o }

/-- The amplitude or the filter envelope of a voice. -/
def Voice.env (v : Voice) : EnvRole → Option EnvState
  | .amp => v.aenv
  | .filt => v.fenv

/-- Write an envelope of a voice. -/
def Voice.setEnv (v : Voice) (role : EnvRole) (e : Option EnvState) : Voice :=
  match role with
  | .amp => { v with aenv := e }
  | .filt => { v with fenv := e }

/-- `E.tbl<k>`. -/
def Engine.tbl (e : Engine) : OscSlot → Option TableRef
  | .one => e.tbl1
  | .two => e.tbl2

/-- Write `E.tbl<k>`. -/
def Engine.setTbl (e : Engine) (k : OscSlot) (t : Option TableRef) : Engine :=
  match k with
  | .one => { e with tbl1 := t }
  | .two => { e with tbl2 := t }

/-- `P.wave<k>`. -/
def Params.wave (p : Params) : OscSlot → Wave
  | .one => p.wave1
  | .two => p.wave2

/-- Write `P.wave<k>`. -/
def Params.setWave (p : Params) (k : OscSlot) (w : Wave) : Params :=
  match k with
  | .one => { p with wave1 := w }
  | .two => { p with wave2 := w }

/-- Four envelope parameters: attack, decay, sustain, release. -/
structure Adsr where
  a : F32
  d : F32
  s : F32
  r : F32
deriving DecidableEq, Repr

/-- The envelope parameter registers of a role (10_state.md R35). -/
def Params.adsr (p : Params) : EnvRole → Adsr
  | .amp => ⟨p.envA, p.envD, p.envS, p.envR⟩
  | .filt => ⟨p.fenvA, p.fenvD, p.fenvS, p.fenvR⟩

/-- Write the engine registers. -/
def State.setEng (s : State) (e : Engine) : State := { s with eng := e }

/-- Write the parameter registers. -/
def State.setPar (s : State) (p : Params) : State := { s with par := p }

/-- A voice is idle (10_state.md R41). -/
def Voice.idle (v : Voice) : Bool := !v.active && v.gate == posZero && v.midi == -1

/-- The idle values (40_voice_pool.md R131, 44_engine_lifecycle.md R242). -/
def Voice.makeIdle (v : Voice) : Voice :=
  { v with active := false, gate := posZero, midi := -1, velocity := posZero }

/-- `Eligible(i)` (42_signal_chain_and_mixer.md R181). -/
def Voice.eligible (v : Voice) : Bool := v.active || fgt v.gate posZero

/-! ## Loops -/

/-- `for i in 0 .. n−1: body i`, in ascending order (00_scope.md R9). -/
def forBelow (n : Nat) (body : Nat → State → State) (s : State) : State :=
  match n with
  | 0 => s
  | m + 1 => body m (forBelow m body s)

/-! ## The streams and the request port -/

/-- `emit(v)` (10_state.md R46). -/
def State.emit (s : State) (v : F32) : State := { s with out := s.out ++ [v] }

/-- Make requests, in order (20_memory.md R80). -/
def State.ask (s : State) (rs : List Request) : State := { s with requests := s.requests ++ rs }

/-! ## Creation -/

/-- Where a sequence of creations stands: all answered so far, or one answered FAIL and the rest is not executed. -/
inductive Attempt where
  | ok (s : State)
  | fail (s : State)
deriving DecidableEq, Repr

/-- Go on unless a creation failed. -/
def Attempt.andThen (x : Attempt) (f : State → Attempt) : Attempt :=
  match x with
  | .ok s => f s
  | .fail s => .fail s

/-- Make a creation request. Unless the draw says FAIL, `store` keeps its answer. -/
def create (c : Config) (r : Request) (store : State → State) (s : State) : Attempt :=
  let asked := { s.ask [r] with draws := s.draws + 1 }
  if c.createFails s.draws r then .fail asked else .ok (store asked)

/-- `TblBuild(size, shape)`; `store` puts the table's reference where it belongs. -/
def createTable (c : Config) (size : Word) (shape : Shape) (store : TableRef → State → State) (s : State) : Attempt :=
  create c (.tblBuild size shape) (store (c.tblBuild s.draws size shape)) s

/-- `OscNew(kind, t)`. -/
def createOsc (c : Config) (kind : OscKind) (t : Option TableRef) (store : OscState → State → State)
    (s : State) : Attempt :=
  match t with
  | none => .ok s
  | some t => create c (.oscNew kind t) (store ⟨kind, c.oscNew kind t⟩) s

/-! ## Units at work -/

/-- `OscStep(o, freq)`: the sample, the unit afterwards, and the request made. -/
def stepOsc (c : Config) (o : Option OscState) (freq : F32) : F32 × Option OscState × List Request :=
  match o with
  | none => (c.noUnitSample, none, [])
  | some o => ((c.oscStep o freq).1, some { o with code := (c.oscStep o freq).2 }, [.oscStep o freq])

/-- `FmStep(o, freq, cr, mr, idx)`. -/
def stepFm (c : Config) (o : Option OscState) (freq carrier modulator index : F32) :
    F32 × Option OscState × List Request :=
  match o with
  | none => (c.noUnitSample, none, [])
  | some o =>
    let r := c.fmStep o freq carrier modulator index
    (r.1, some { o with code := r.2 }, [.fmStep o freq carrier modulator index])

/-- `EnvStep(e, gate)`. -/
def stepEnv (c : Config) (e : Option EnvState) (gate : F32) : F32 × Option EnvState × List Request :=
  match e with
  | none => (c.noUnitSample, none, [])
  | some e => ((c.envStep e gate).1, some (c.envStep e gate).2, [.envStep e gate])

/-- `FiltStep(f, x, cutoff, res)`. -/
def stepFilt (c : Config) (f : Option FiltState) (x cutoff res : F32) : F32 × Option FiltState × List Request :=
  match f with
  | none => (c.noUnitSample, none, [])
  | some f => ((c.filtStep f x cutoff res).1, some (c.filtStep f x cutoff res).2, [.filtStep f x cutoff res])

/-- The unit after `EnvSet` with four parameters. -/
def envAfterSet (c : Config) (q : Adsr) (e : Option EnvState) : Option EnvState :=
  e.map fun e => c.envSet e q.a q.d q.s q.r

/-- The `EnvSet` request for a unit. -/
def envSetRequest (q : Adsr) (e : Option EnvState) : List Request :=
  (e.map fun e => Request.envSet e q.a q.d q.s q.r).toList

/-- `V[i].<env> <- EnvSet(V[i].<env>, …)` with the role's parameter registers. -/
def State.pushEnv (c : Config) (role : EnvRole) (i : Nat) (s : State) : State :=
  let v := s.voice i
  (s.setVoice i (v.setEnv role (envAfterSet c (s.par.adsr role) (v.env role)))).ask
    (envSetRequest (s.par.adsr role) (v.env role))

/-- Push the role's parameters to every allocated voice (43_parameter_store.md R211, R222). -/
def State.propagateEnv (c : Config) (role : EnvRole) (s : State) : State :=
  if s.eng.init then forBelow s.eng.alloc (State.pushEnv c role) s else s

/-! ## Teardown and the fatal path -/

/-- The `Release` requests for the units a voice holds, in the order osc1, osc2, aenv, fenv, filt (R242). -/
def Voice.releases (v : Voice) : List Request :=
  (v.osc1.map .releaseOsc).toList ++ (v.osc2.map .releaseOsc).toList ++ (v.aenv.map .releaseEnv).toList ++
    (v.fenv.map .releaseEnv).toList ++ (v.filt.map .releaseFilt).toList

/-- A voice without units and with idle values; the base frequency is kept (R242). -/
def Voice.torn (v : Voice) : Voice :=
  { v.makeIdle with osc1 := none, osc2 := none, aenv := none, fenv := none, filt := none }

/-- Release the units of `V[i]` and make it idle. -/
def tearVoice (i : Nat) (s : State) : State := (s.setVoice i (s.voice i).torn).ask (s.voice i).releases

/-- The `Release` requests for the LFO and the tables the engine holds, in the order of R242. -/
def Engine.releases (e : Engine) : List Request :=
  (e.lfo.map .releaseOsc).toList ++ (e.tbl1.map .releaseTbl).toList ++ (e.tbl2.map .releaseTbl).toList ++
    (e.sine.map .releaseTbl).toList

/-- The engine registers after Teardown: `rr`, the sample rate and the table size are kept (R242). -/
def Engine.torn (e : Engine) : Engine :=
  { e with init := false, alloc := 0, lfo := none, sine := none, tbl1 := none, tbl2 := none }

/-- `Teardown()` (44_engine_lifecycle.md R242): the units, then the LFO, then the tables, then the context. -/
def teardown (s : State) : State :=
  let t := forBelow NV tearVoice s
  { t.ask t.eng.releases with eng := t.eng.torn }

/-- The pseudocode of `Fatal(code)` (60_exceptions.md R263), on the state the command has reached: record it, tear the engine
down; the command ends here. -/
def fatal (code : BitVec 8) (s : State) : State := teardown { s with st := s.st.fatalError code }

/-- `t` with the registers that a command can write before a Fatal, and that Teardown keeps, as they were in `s`: the
parameters, the sample rate, the table size and the steal counter. -/
def State.restoring (s t : State) : State :=
  { t with
    par := s.par
    eng := { t.eng with sampleRate := s.eng.sampleRate, tableSize := s.eng.tableSize, rr := s.eng.rr } }

/-- A Fatal raised at state `u` by a command that began at state `s`: the state the pseudocode of R263 leaves, or, by the
sentence of R266, the state before the command, torn down, with the update of STATUS. Which of the two is open (log 24). -/
def fatalFrom (c : Config) (code : BitVec 8) (s u : State) : State :=
  if c.fatalRestores then s.restoring (fatal code u) else fatal code u

/-- The end of a command that began at state `s`: a creation that answered FAIL raises `Fatal(0x10)` (R263, R266). -/
def Attempt.orFatal (c : Config) (s : State) (x : Attempt) : State :=
  match x with
  | .ok t => t
  | .fail u => fatalFrom c FATAL_RESOURCE s u

end Sys2Proof.Machine
end

