-- ==== Sys2Proof/Machine/VoicePool.lean ====
section
/-! DEFINITION. The voice pool, 40_voice_pool.md: `midiToHz`, Ensure, Allocate, ReleaseIfSilent, and the commands NOTE_ON,
NOTE_OFF_MIDI, NOTE_OFF_ALL, SET_POLY and SET_FREQ. -/

namespace Sys2Proof.Machine

/-! ## Internal procedures -/

/-- `midiToHz(m)` = 440.0 × POW2(i2f(m − 69) / 12.0) (R130). -/
def midiToHz (c : Config) (m : Int) : F32 := fmul c A4_HZ (pow2 c (fdiv c (i2f (m - A4_MIDI)) SEMIS))

/-- `V[i].osc<k> <- NewOsc(k)` (R131): an FM unit on the sine table, or a wavetable unit on the slot's table. -/
def newOsc (c : Config) (k : OscSlot) (i : Nat) (s : State) : Attempt :=
  let w := s.par.wave k
  createOsc c w.kind (if w = .fm then s.eng.sine else s.eng.tbl k)
    (fun o t => t.setVoice i ((t.voice i).setOsc k (some o))) s

/-- `V[i].<env> <- EnvSet(NewEnv(), …)` (R131). -/
def newEnv (c : Config) (role : EnvRole) (i : Nat) (s : State) : Attempt :=
  create c .envNew (fun t => (t.setVoice i ((t.voice i).setEnv role (some c.envNew))).pushEnv c role i) s

/-- `V[i].filt <- FiltNew(E.sampleRate)` (R131). -/
def newFilt (c : Config) (i : Nat) (s : State) : Attempt :=
  create c (.filtNew s.eng.sampleRate)
    (fun t => t.setVoice i { t.voice i with filt := some (c.filtNew s.eng.sampleRate) }) s

/-- `CreateVoiceUnits(i)` (R131): the five units, then the idle values. -/
def createVoiceUnits (c : Config) (i : Nat) (s : State) : Attempt :=
  ((((newOsc c .one i s).andThen (newOsc c .two i)).andThen (newEnv c .amp i)).andThen (newEnv c .filt i)).andThen
    fun s4 => (newFilt c i s4).andThen fun t => .ok (t.setVoice i (t.voice i).makeIdle)

/-- One pass of Ensure's loop: build slot `E.alloc` and count it (R131). -/
def growOne (c : Config) (s : State) : Attempt :=
  (createVoiceUnits c s.eng.alloc s).andThen fun t => .ok (t.setEng { t.eng with alloc := s.eng.alloc + 1 })

/-- `k` passes of Ensure's loop. -/
def growBy (c : Config) (k : Nat) (s : State) : Attempt :=
  match k with
  | 0 => .ok s
  | m + 1 => (growBy c m s).andThen (growOne c)

/-- `Ensure(n)` (R131): grows the allocated set to `n` slots and never shrinks it. -/
def ensure (c : Config) (n : Nat) (s : State) : Attempt := growBy c (n - s.eng.alloc) s

/-- A slot that Allocate may take without stealing (R132). -/
def Voice.free (v : Voice) : Bool := !v.active && fle v.gate posZero

/-- The first free slot below `P.poly` (R132). -/
def firstFree (s : State) : Option Nat := (List.range s.par.poly).find? fun i => (s.voice i).free

/-- `Allocate()` (R132): the first free slot, or the round-robin victim. -/
def allocate (s : State) : Nat × State :=
  match firstFree s with
  | some i => (i, s)
  | none =>
    let victim := s.eng.rr % s.par.poly
    (victim, s.setEng { s.eng with rr := (victim + 1) % s.par.poly })

/-- `ReleaseIfSilent` on a voice and its amplitude-envelope value (R133). -/
def Voice.releaseIfSilent (v : Voice) (ae : F32) : Voice :=
  if fle v.gate posZero && flt ae RELEASE_THRESHOLD then { v with active := false, midi := -1, velocity := posZero } else v

/-! ## NOTE_ON (R134) -/

/-- The fields NOTE_ON writes before the envelopes. -/
def Voice.assign (v : Voice) (f : F32) (m : Int) (vel : F32) : Voice :=
  { v with baseFreq := f, midi := m, velocity := vel }

/-- The fields NOTE_ON writes after the envelopes. -/
def Voice.gateOn (v : Voice) : Voice := { v with gate := one, active := true }

/-- NOTE_ON once a slot is allocated. -/
def startNote (c : Config) (i : Nat) (m : Int) (velocity : F32) (s : State) : State :=
  let s1 := s.setVoice i ((s.voice i).assign (midiToHz c m) m (clamp velocity VEL_MIN VEL_MAX))
  let s2 := (s1.pushEnv c .amp i).pushEnv c .filt i
  s2.setVoice i (s2.voice i).gateOn

/-- NOTE_ON (R134). -/
def noteOn (c : Config) (midi : Int) (velocity : F32) (s : State) : State :=
  if s.eng.init then startNote c (allocate s).1 (midiOperand midi) velocity (allocate s).2 else s

/-- NOTE_ON midi, velocity. -/
def execNoteOn (midi : Int) (velocity : F32) (s : State) : Host.Outcome State Fault Refusal :=
  .next (noteOn Config.impl midi velocity s)

/-! ## NOTE_OFF (R135, R136) -/

/-- `V[i].gate <- +0.0` where the voice is active and `which` picks it. -/
def gateOff (which : Voice → Bool) (i : Nat) (s : State) : State :=
  if (s.voice i).active && which (s.voice i) then s.setVoice i { s.voice i with gate := posZero } else s

/-- NOTE_OFF_MIDI midi (R135). -/
def execNoteOffMidi (midi : Int) (s : State) : Host.Outcome State Fault Refusal :=
  .next (if s.eng.init then forBelow s.par.poly (gateOff fun v => v.midi == midiOperand midi) s else s)

/-- NOTE_OFF_ALL (R136). -/
def execNoteOffAll (s : State) : Host.Outcome State Fault Refusal :=
  .next (if s.eng.init then forBelow s.par.poly (gateOff fun _ => true) s else s)

/-! ## SET_POLY and SET_FREQ (R137, R138) -/

/-- SET_POLY (R137). -/
def setPoly (c : Config) (n : Int) (s : State) : State :=
  let s1 := s.setPar { s.par with poly := polyOperand n }
  if s1.eng.init then (ensure c (polyOperand n) s1).orFatal c s else s1

/-- SET_POLY n. -/
def execSetPoly (n : Int) (s : State) : Host.Outcome State Fault Refusal := .next (setPoly Config.impl n s)

/-- SET_FREQ freq (R138): every allocated voice. -/
def execSetFreq (freq : F32) (s : State) : Host.Outcome State Fault Refusal :=
  .next (if s.eng.init then
      forBelow s.eng.alloc (fun i t => t.setVoice i { t.voice i with baseFreq := freq }) s
    else s)

end Sys2Proof.Machine
end

