-- ==== Sys2Proof/Machine/Lifecycle.lean ====
section
/-! DEFINITION. The engine lifecycle, 44_engine_lifecycle.md: INIT (R240) and SHUTDOWN (R241). -/

namespace Sys2Proof.Machine

/-- INIT's first part: tear a running engine down, set the rate and the table size, clear the steal counter. -/
def initBegin (sampleRate : F32) (tableSize : Int) (s : State) : State :=
  let t := if s.eng.init then teardown s else s
  t.setEng { t.eng with sampleRate := sampleRate, tableSize := tableSizeOperand tableSize, rr := 0 }

/-- `E.sine`, `E.tbl1`, `E.tbl2`, then `E.lfo`. -/
def initTables (c : Config) (s : State) : Attempt :=
  (((createTable c s.eng.tableSize .sine (fun r t => t.setEng { t.eng with sine := some r }) s).andThen fun t =>
    createTable c t.eng.tableSize t.par.wave1.shapeAtInit (fun r u => u.setEng { u.eng with tbl1 := some r }) t).andThen fun t =>
    createTable c t.eng.tableSize t.par.wave2.shapeAtInit (fun r u => u.setEng { u.eng with tbl2 := some r }) t).andThen fun t =>
    createOsc c .wt t.eng.sine (fun o u => u.setEng { u.eng with lfo := some o }) t

/-- `E.init <- 1`, then `Ensure(P.poly)`. -/
def initFinish (c : Config) (s : State) : Attempt :=
  let t := s.setEng { s.eng with init := true }
  ensure c t.par.poly t

/-- INIT (R240). -/
def initEngine (c : Config) (sampleRate : F32) (tableSize : Int) (s : State) : State :=
  ((initTables c (initBegin sampleRate tableSize s)).andThen (initFinish c)).orFatal c s

/-- INIT sampleRate, tableSize. -/
def execInit (sampleRate : F32) (tableSize : Int) (s : State) : Host.Outcome State Fault Refusal :=
  .next (initEngine Config.impl sampleRate tableSize s)

/-- SHUTDOWN (R241). -/
def execShutdown (s : State) : Host.Outcome State Fault Refusal := .next (teardown s)

end Sys2Proof.Machine
end

