-- ==== Sys2Proof/Machine/ParamStore.lean ====
section
/-! DEFINITION. The parameter store commands, 43_parameter_store.md: the setters, which write their registers whether or not the
engine is initialized (R225), and SetWave (R224). -/

namespace Sys2Proof.Machine

/-! ## SetWave (R224) -/

/-- Rebuild the slot's table in place: its identity is kept. -/
def rebuildTable (c : Config) (k : OscSlot) (shape : Shape) (s : State) : State :=
  match s.eng.tbl k with
  | none => s
  | some t => (s.setEng (s.eng.setTbl k (some { t with contents := c.tblRebuild t shape }))).ask [.tblRebuild t shape]

/-- Release `V[i].osc<k>`, clear the field, and create the new unit. -/
def recreateOsc (c : Config) (k : OscSlot) (i : Nat) (s : State) : Attempt :=
  newOsc c k i ((s.setVoice i ((s.voice i).setOsc k none)).ask (((s.voice i).osc k).map .releaseOsc).toList)

/-- Recreate slot `k`'s unit of voices 0 .. n−1. -/
def recreateBelow (c : Config) (k : OscSlot) (n : Nat) (s : State) : Attempt :=
  match n with
  | 0 => .ok s
  | m + 1 => (recreateBelow c k m s).andThen (recreateOsc c k m)

/-- `if t' <= 3: E.tbl<k> <- TblRebuild(E.tbl<k>, t')`: an FM slot's table is left as it was. -/
def rebuildFor (c : Config) (k : OscSlot) (w : Wave) (s : State) : State :=
  match w.shape? with
  | some shape => rebuildTable c k shape s
  | none => s

/-- `SetWave(k, t)` (R224). -/
def setWave (c : Config) (k : OscSlot) (type : Int) (s : State) : Attempt :=
  let s1 := s.setPar (s.par.setWave k (waveOperand type))
  if s.eng.init then recreateBelow c k s.eng.alloc (rebuildFor c k (waveOperand type) s1) else .ok s1

/-- SET_WAVE1 type (R212). -/
def execSetWave1 (type : Int) (s : State) : Host.Outcome State Fault Refusal :=
  .next ((setWave Config.impl .one type s).orFatal Config.impl s)

/-- SET_WAVE2 type (R213). -/
def execSetWave2 (type : Int) (s : State) : Host.Outcome State Fault Refusal :=
  .next ((setWave Config.impl .two type s).orFatal Config.impl s)

/-- SET_WAVE type (R214): slot 1, then slot 2 unless the first raised Fatal. -/
def execSetWave (type : Int) (s : State) : Host.Outcome State Fault Refusal :=
  .next (((setWave Config.impl .one type s).andThen (setWave Config.impl .two type)).orFatal Config.impl s)

/-! ## Amplitude and envelopes -/

/-- SET_AMP amp (R210). -/
def execSetAmp (amp : F32) (s : State) : Host.Outcome State Fault Refusal :=
  .next (s.setPar { s.par with masterAmp := amp })

/-- SET_ENV (R211). -/
def setEnv (c : Config) (atk dec sus rel : F32) (s : State) : State :=
  (s.setPar { s.par with envA := atk, envD := dec, envS := sus, envR := rel }).propagateEnv c .amp

/-- SET_ENV atk, dec, sus, rel. -/
def execSetEnv (atk dec sus rel : F32) (s : State) : Host.Outcome State Fault Refusal :=
  .next (setEnv Config.impl atk dec sus rel s)

/-! ## Oscillator slots -/

/-- SET_DETUNE1 semitones (R215). -/
def execSetDetune1 (semitones : F32) (s : State) : Host.Outcome State Fault Refusal :=
  .next (s.setPar { s.par with detune1 := semitones })

/-- SET_DETUNE2 semitones (R216). -/
def execSetDetune2 (semitones : F32) (s : State) : Host.Outcome State Fault Refusal :=
  .next (s.setPar { s.par with detune2 := semitones })

/-- SET_GAIN1 gain (R217). -/
def execSetGain1 (gain : F32) (s : State) : Host.Outcome State Fault Refusal :=
  .next (s.setPar { s.par with gain1 := gain })

/-- SET_GAIN2 gain (R218). -/
def execSetGain2 (gain : F32) (s : State) : Host.Outcome State Fault Refusal :=
  .next (s.setPar { s.par with gain2 := gain })

/-- FM1 carrierRatio, modulatorRatio, index (R219). -/
def execFm1 (carrierRatio modulatorRatio index : F32) (s : State) : Host.Outcome State Fault Refusal :=
  .next (s.setPar { s.par with fm1Carrier := carrierRatio, fm1Mod := modulatorRatio, fm1Index := index })

/-- FM2 carrierRatio, modulatorRatio, index (R220). -/
def execFm2 (carrierRatio modulatorRatio index : F32) (s : State) : Host.Outcome State Fault Refusal :=
  .next (s.setPar { s.par with fm2Carrier := carrierRatio, fm2Mod := modulatorRatio, fm2Index := index })

/-! ## Filter -/

/-- FILTER_SET cutoffHz, resonance (R221). -/
def execFilterSet (cutoffHz resonance : F32) (s : State) : Host.Outcome State Fault Refusal :=
  .next (s.setPar { s.par with cutoff := cutoffHz, res := resonance })

/-- FILTER_ENV (R222). -/
def filterEnv (c : Config) (atk dec sus rel : F32) (s : State) : State :=
  (s.setPar { s.par with fenvA := atk, fenvD := dec, fenvS := sus, fenvR := rel }).propagateEnv c .filt

/-- FILTER_ENV atk, dec, sus, rel. -/
def execFilterEnv (atk dec sus rel : F32) (s : State) : Host.Outcome State Fault Refusal :=
  .next (filterEnv Config.impl atk dec sus rel s)

/-- FILTER_ENV_AMOUNT hz (R223). -/
def execFilterEnvAmount (hz : F32) (s : State) : Host.Outcome State Fault Refusal :=
  .next (s.setPar { s.par with fenvAmount := hz })

end Sys2Proof.Machine
end

