-- ==== Sys2Proof/Machine/Router.lean ====
section
/-! DEFINITION. The LFO modulation router, 41_modulation_router.md: Route, the LFO step, and the commands LFO_SET, LFO_DEST,
LFO_AMOUNT and LFO_AMOUNT_SEMI. -/

namespace Sys2Proof.Machine

/-- The route record `R` of a frame (R160): a field per destination. -/
structure Route where
  pitchMul : F32
  cutoff   : F32
  amp      : F32
  res      : F32
  gain1    : F32
  gain2    : F32
  fm1      : F32
  fm2      : F32
deriving DecidableEq, Repr

/-- `Route(lv)` (R160). -/
def route (c : Config) (p : Params) (lv : F32) : Route :=
  let v := fmul c lv p.lfoAmount
  let offset (d : LfoDest) : F32 := if p.lfoDest = d then v else posZero
  { pitchMul := if p.lfoDest = .pitch then pow2 c (fdiv c v SEMIS) else one
    cutoff   := offset .cutoff
    amp      := offset .amp
    res      := offset .res
    gain1    := offset .gain1
    gain2    := offset .gain2
    fm1      := offset .fm1
    fm2      := offset .fm2 }

/-- `(lv, E.lfo) <- OscStep(E.lfo, P.lfoRate)` (R161): the LFO value and the state after. -/
def lfoStep (c : Config) (s : State) : F32 × State :=
  let r := stepOsc c s.eng.lfo s.par.lfoRate
  (r.1, (s.setEng { s.eng with lfo := r.2.1 }).ask r.2.2)

/-- LFO_SET rateHz (R162). -/
def execLfoSet (rateHz : F32) (s : State) : Host.Outcome State Fault Refusal :=
  .next (s.setPar { s.par with lfoRate := rateHz })

/-- LFO_DEST destinationId (R163). -/
def execLfoDest (destinationId : Int) (s : State) : Host.Outcome State Fault Refusal :=
  .next (s.setPar { s.par with lfoDest := destOperand destinationId })

/-- LFO_AMOUNT value (R164). -/
def execLfoAmount (value : F32) (s : State) : Host.Outcome State Fault Refusal :=
  .next (s.setPar { s.par with lfoAmount := value })

/-- LFO_AMOUNT_SEMI semitones (R165): the amount, and the pitch destination. -/
def execLfoAmountSemi (semitones : F32) (s : State) : Host.Outcome State Fault Refusal :=
  .next (s.setPar { s.par with lfoAmount := semitones, lfoDest := .pitch })

end Sys2Proof.Machine
end

