-- ==== Sys2Proof/Machine/SignalChain.lean ====
section
/-! DEFINITION. The per-voice signal chain and the mixer, 42_signal_chain_and_mixer.md: the five chain steps (R182 to R186), the
frame (R180), the mix (R187), and the command RENDER (R188). -/

namespace Sys2Proof.Machine

/-! ## Step 1: the oscillator slots (R182) -/

/-- `P.detune<k>`. -/
def Params.detune (p : Params) : OscSlot → F32
  | .one => p.detune1
  | .two => p.detune2

/-- The playback frequency `f<k>` = (baseFreq × pitchMul) × POW2(detune<k> / 12.0). -/
def playFreq (c : Config) (p : Params) (r : Route) (baseFreq : F32) (k : OscSlot) : F32 :=
  fmul c (fmul c baseFreq r.pitchMul) (pow2 c (fdiv c (p.detune k) SEMIS))

/-- `FmStep` on slot `k`'s unit with the slot's ratios and its index offset by the route. -/
def stepFmSlot (c : Config) (p : Params) (r : Route) (k : OscSlot) (o : Option OscState) (f : F32) :
    F32 × Option OscState × List Request :=
  match k with
  | .one => stepFm c o f p.fm1Carrier p.fm1Mod (fadd c p.fm1Index r.fm1)
  | .two => stepFm c o f p.fm2Carrier p.fm2Mod (fadd c p.fm2Index r.fm2)

/-- The unit is tagged FM. -/
def isFm (o : Option OscState) : Bool := o.any fun u => u.kind == .fm

/-- Oscillator slot `k` of a voice for one frame. -/
def stepSlot (c : Config) (p : Params) (r : Route) (v : Voice) (k : OscSlot) :
    F32 × Option OscState × List Request :=
  let f := playFreq c p r v.baseFreq k
  if isFm (v.osc k) then stepFmSlot c p r k (v.osc k) f else stepOsc c (v.osc k) f

/-! ## Steps 2 to 4: the computed controls (R183 to R185) -/

/-- `s` = (s1 × g1) + (s2 × g2), each gain clamped to [0.0, 2.0] (R183). -/
def slotMix (c : Config) (p : Params) (r : Route) (s1 s2 : F32) : F32 :=
  fadd c (fmul c s1 (clamp (fadd c p.gain1 r.gain1) GAIN_MIN GAIN_MAX))
    (fmul c s2 (clamp (fadd c p.gain2 r.gain2) GAIN_MIN GAIN_MAX))

/-- The upper cutoff bound, (sampleRate / 2.0) − 100.0 (R184). -/
def cutoffMax (c : Config) (sampleRate : F32) : F32 := fsub c (fdiv c sampleRate two) CUTOFF_MARGIN

/-- `fc` (R184). -/
def cutoffOf (c : Config) (p : Params) (r : Route) (sampleRate fe : F32) : F32 :=
  clamp (fadd c (fadd c p.cutoff (fmul c p.fenvAmount fe)) r.cutoff) CUTOFF_MIN (cutoffMax c sampleRate)

/-- `q` (R184). -/
def resonanceOf (c : Config) (p : Params) (r : Route) : F32 := clamp (fadd c p.res r.res) RES_MIN RES_MAX

/-- `a` (R185). -/
def ampOf (c : Config) (p : Params) (r : Route) : F32 := clamp (fadd c p.masterAmp r.amp) AMP_MIN AMP_MAX

/-- `c` = ((y × ae) × velocity) × a (R185). -/
def contributionOf (c : Config) (y ae velocity a : F32) : F32 := fmul c (fmul c (fmul c y ae) velocity) a

/-! ## The chain of one voice -/

/-- What the chain gives for a voice: its contribution, its amplitude-envelope value, the voice with its units advanced, and
the requests made. -/
structure Chain where
  contribution : F32
  ae           : F32
  voice        : Voice
  requests     : List Request
deriving DecidableEq, Repr

/-- `VoiceChain` up to the release check (R182 to R185). Requests go out in the order osc1, osc2, fenv, filt, aenv. -/
def voiceChain (c : Config) (p : Params) (sampleRate : F32) (r : Route) (v : Voice) : Chain :=
  let o1 := stepSlot c p r v .one
  let o2 := stepSlot c p r v .two
  let fe := stepEnv c v.fenv v.gate
  let fl := stepFilt c v.filt (slotMix c p r o1.1 o2.1) (cutoffOf c p r sampleRate fe.1) (resonanceOf c p r)
  let ae := stepEnv c v.aenv v.gate
  { contribution := contributionOf c fl.1 ae.1 v.velocity (ampOf c p r)
    ae := ae.1
    voice := { v with osc1 := o1.2.1, osc2 := o2.2.1, fenv := fe.2.1, filt := fl.2.1, aenv := ae.2.1 }
    requests := o1.2.2 ++ o2.2.2 ++ fe.2.2 ++ fl.2.2 ++ ae.2.2 }

/-- Voice `i` for one frame, with the release check after its contribution (R186). -/
def runVoice (c : Config) (r : Route) (i : Nat) (s : State) : F32 × State :=
  let ch := voiceChain c s.par s.eng.sampleRate r (s.voice i)
  (ch.contribution, (s.setVoice i (ch.voice.releaseIfSilent ch.ae)).ask ch.requests)

/-- Add slot `i`'s contribution to the mix if the voice is eligible (R180, R181). -/
def mixVoice (c : Config) (r : Route) (i : Nat) (acc : F32 × State) : F32 × State :=
  if (acc.2.voice i).eligible then
    let x := runVoice c r i acc.2
    (fadd c acc.1 x.1, x.2)
  else acc

/-- The mix of slots 0 .. n−1, in ascending order from +0.0 (R187). -/
def mixBelow (c : Config) (r : Route) (n : Nat) (s : State) : F32 × State :=
  match n with
  | 0 => (posZero, s)
  | m + 1 => mixVoice c r m (mixBelow c r m s)

/-- `Frame()` (R180). -/
def frame (c : Config) (s : State) : State :=
  let l := lfoStep c s
  let m := mixBelow c (route c l.2.par l.1) l.2.par.poly l.2
  m.2.emit m.1

/-- `n` frames, one after the other. -/
def frames (c : Config) (n : Nat) (s : State) : State :=
  match n with
  | 0 => s
  | m + 1 => frame c (frames c m s)

/-- RENDER (R188). -/
def render (c : Config) (frameCount : Int) (s : State) : State :=
  if s.eng.init then frames c frameCount.toNat s else s

/-- RENDER frameCount. -/
def execRender (frameCount : Int) (s : State) : Host.Outcome State Fault Refusal :=
  .next (render Config.impl frameCount s)

end Sys2Proof.Machine
end

