-- ==== Sys2Proof/Machine/Dispatch.lean ====
section
/-! DEFINITION. The meaning of each command, one arm per constructor (30_encoding.md R94, "perform the rule of opcode"). -/

namespace Sys2Proof.Machine

def exec (i : Instr) (s : State) : Host.Outcome State Fault Refusal :=
  match i with
  | .init sampleRate tableSize => Sys2Proof.Machine.execInit sampleRate tableSize s
  | .shutdown => Sys2Proof.Machine.execShutdown s
  | .noteOn midi velocity => Sys2Proof.Machine.execNoteOn midi velocity s
  | .noteOffAll => Sys2Proof.Machine.execNoteOffAll s
  | .noteOffMidi midi => Sys2Proof.Machine.execNoteOffMidi midi s
  | .setAmp amp => Sys2Proof.Machine.execSetAmp amp s
  | .setFreq freq => Sys2Proof.Machine.execSetFreq freq s
  | .setEnv atk dec sus rel => Sys2Proof.Machine.execSetEnv atk dec sus rel s
  | .setPoly n => Sys2Proof.Machine.execSetPoly n s
  | .setWave type => Sys2Proof.Machine.execSetWave type s
  | .setWave1 type => Sys2Proof.Machine.execSetWave1 type s
  | .setWave2 type => Sys2Proof.Machine.execSetWave2 type s
  | .setDetune1 semitones => Sys2Proof.Machine.execSetDetune1 semitones s
  | .setDetune2 semitones => Sys2Proof.Machine.execSetDetune2 semitones s
  | .setGain1 gain => Sys2Proof.Machine.execSetGain1 gain s
  | .setGain2 gain => Sys2Proof.Machine.execSetGain2 gain s
  | .fm1 carrierRatio modulatorRatio index => Sys2Proof.Machine.execFm1 carrierRatio modulatorRatio index s
  | .fm2 carrierRatio modulatorRatio index => Sys2Proof.Machine.execFm2 carrierRatio modulatorRatio index s
  | .filterSet cutoffHz resonance => Sys2Proof.Machine.execFilterSet cutoffHz resonance s
  | .filterEnv atk dec sus rel => Sys2Proof.Machine.execFilterEnv atk dec sus rel s
  | .filterEnvAmount hz => Sys2Proof.Machine.execFilterEnvAmount hz s
  | .lfoSet rateHz => Sys2Proof.Machine.execLfoSet rateHz s
  | .lfoDest destinationId => Sys2Proof.Machine.execLfoDest destinationId s
  | .lfoAmount value => Sys2Proof.Machine.execLfoAmount value s
  | .lfoAmountSemi semitones => Sys2Proof.Machine.execLfoAmountSemi semitones s
  | .render frameCount => Sys2Proof.Machine.execRender frameCount s

end Sys2Proof.Machine
end

