-- ==== Sys2Proof/Machine/Fetch.lean ====
section
/-! DEFINITION. The command decoder, 30_encoding.md R94: one word of the command stream per step, and Execute. -/

namespace Sys2Proof.Machine

/-- The code a decoding error is recorded with (R94, 60_exceptions.md R264). -/
def errorCode : DecodeError → BitVec 8
  | .undefinedOpcode => CMD_UNDEFINED_OPCODE
  | .reservedBits => CMD_RESERVED_BITS
  | .badLength => CMD_BAD_LENGTH

/-- `Execute(h, ops)` (R94). -/
def execute (h : Word) (ops : List Word) (s : State) : Host.Outcome State Fault Refusal :=
  match decode h ops with
  | .error e => .next (cmdError (errorCode e) s)
  | .ok i => exec i s

/-- `D.hdr <- w ; D.k <- 0`: no other decoder register is written. -/
def Decoder.takeHeader (w : Word) (d : Decoder) : Decoder := { d with hdr := w, k := 0 }

/-- `D.ops[D.k] <- w ; D.k <- D.k + 1`. -/
def Decoder.takeOperand (w : Word) (d : Decoder) : Decoder :=
  { d with k := d.k + 1, ops := if h : d.k < NOPS then d.ops.set d.k w h else d.ops }

/-- The decoder registers after operand words `ws`, one after the other. -/
def Decoder.takeAll (ws : List Word) (d : Decoder) : Decoder := ws.foldl (fun d w => d.takeOperand w) d

/-- `D.ops[0 .. D.k−1]`. -/
def Decoder.received (d : Decoder) : List Word := d.ops.toList.take d.k

/-- On receiving `w` with `D.phase = HEADER`. -/
def receiveHeader (w : Word) (s : State) : Host.Outcome State Fault Refusal :=
  let d := s.dec.takeHeader w
  if lenField w = 0 then execute w [] { s with dec := d } else .next { s with dec := { d with phase := .operands } }

/-- On receiving `w` with `D.phase = OPERANDS`. -/
def receiveOperand (w : Word) (s : State) : Host.Outcome State Fault Refusal :=
  let d := s.dec.takeOperand w
  if d.k = lenField d.hdr then execute d.hdr d.received { s with dec := { d with phase := .header } }
  else .next { s with dec := d }

/-- On receiving word `w` (R94). -/
def receiveWord (w : Word) (s : State) : Host.Outcome State Fault Refusal :=
  match s.dec.phase with
  | .header => receiveHeader w s
  | .operands => receiveOperand w s

/-- One step: receive the oldest word the host has sent. With none pending the block waits with all state kept
(60_exceptions.md R275). -/
def receiveNext (s : State) : Host.Outcome State Fault Refusal :=
  match s.input with
  | [] => .next s
  | w :: rest => receiveWord w { s with input := rest }

/-- The host sends words on the command stream (20_memory.md R70). -/
def State.send (ws : List Word) (s : State) : State := { s with input := s.input ++ ws }

/-- All but the last word of a command received, and its last word next on the command stream: the next step executes it.
The words are the header and its operand words. -/
def State.withCommand (s : State) (h : Word) (ops : List Word) : State :=
  match ops.getLast? with
  | none => { s with dec := { s.dec with phase := .header }, input := h :: s.input }
  | some w =>
    let d := { s.dec.takeHeader h with phase := .operands }
    { s with dec := d.takeAll ops.dropLast, input := w :: s.input }

end Sys2Proof.Machine
end

