-- ==== Sys2Proof/Machine/Step.lean ====
section
/-! DEFINITION. The step of the machine: the decoder takes one word per step (30_encoding.md R94). -/

namespace Sys2Proof.Machine

/-- One step of the block. -/
def step (s : State) : Host.Outcome State Fault Refusal := receiveNext s

/-- `s` with the command whose bits are `w` on the command stream, all of its words but the last received, so that the next
step executes it. -/
def State.withFetchWord (s : State) (nbits w : Nat) : State :=
  s.withCommand (tableWord nbits w 0) (tableOperands nbits w)

end Sys2Proof.Machine
end

