-- ==== Sys2Proof/Safety.lean ====
section
/-! DEFINITION. What a good state is: the engine invariants of 10_state.md R33, R34 and R36 to R44, in one predicate `Inv`; and
the named premise a claim may take about creations (93_implementation_defined.md I5). -/

namespace Sys2Proof.Machine

/-- Idle, with the velocity that goes with it (10_state.md R41). -/
def Voice.Idle (v : Voice) : Prop := v.active = false ∧ v.gate = posZero ∧ v.midi = -1 ∧ v.velocity = posZero

/-- Active or Releasing (10_state.md R42), holding a note. -/
def Voice.Sounding (v : Voice) : Prop :=
  v.active = true ∧ (v.gate = posZero ∨ v.gate = one) ∧ MIDI_MIN ≤ v.midi ∧ v.midi ≤ MIDI_MAX

/-- The voice holds no unit. -/
def Voice.Unitless (v : Voice) : Prop :=
  v.osc1 = none ∧ v.osc2 = none ∧ v.aenv = none ∧ v.fenv = none ∧ v.filt = none

/-- The voice holds its five units, and each oscillator's tag is FM exactly when its slot's waveform is
(42_signal_chain_and_mixer.md R182). -/
def Voice.Equipped (p : Params) (v : Voice) : Prop :=
  v.osc1.map OscState.kind = some p.wave1.kind ∧ v.osc2.map OscState.kind = some p.wave2.kind ∧
    v.aenv.isSome = true ∧ v.fenv.isSome = true ∧ v.filt.isSome = true

/-- The engine holds its LFO, a wavetable unit, and its three tables. -/
def Engine.Equipped (e : Engine) : Prop :=
  e.lfo.map OscState.kind = some .wt ∧ e.sine.isSome = true ∧ e.tbl1.isSome = true ∧ e.tbl2.isSome = true

/-- The engine holds no unit and no table. -/
def Engine.Bare (e : Engine) : Prop :=
  e.alloc = 0 ∧ e.lfo = none ∧ e.sine = none ∧ e.tbl1 = none ∧ e.tbl2 = none

/-- The codes of 60_exceptions.md R264; the first error's code is held exactly when an error is. -/
def Status.Lawful (st : Status) : Prop :=
  st.errCode ∈ [0x00#8, CMD_UNDEFINED_OPCODE, CMD_RESERVED_BITS, CMD_BAD_LENGTH, FATAL_RESOURCE] ∧
    (st.errCode = 0 ↔ st.errCmd = false ∧ st.fatal = false)

/-- `D.k` is 0..255 (10_state.md R45), and while operands are collected some are still to come (30_encoding.md R94). -/
def Decoder.Lawful (d : Decoder) : Prop := d.k ≤ NOPS ∧ (d.phase = .operands → d.k < lenField d.hdr)

/-- The invariants of the block. -/
structure Inv (s : State) : Prop where
  /-- `P.poly` holds only 1..16 (R36). -/
  poly      : 1 ≤ s.par.poly ∧ s.par.poly ≤ NV
  /-- `E.alloc` is 0..16 (R32). -/
  alloc     : s.eng.alloc ≤ NV
  /-- `E.rr` is 0..15 (R33). -/
  rr        : s.eng.rr < NV
  /-- An uninitialized engine holds nothing (R33). -/
  down      : s.eng.init = false → s.eng.Bare
  /-- An initialized engine has every considered slot allocated, its LFO and tables, and no table size below the least (R32, R33). -/
  up        : s.eng.init = true → s.par.poly ≤ s.eng.alloc ∧ s.eng.Equipped ∧ TABLE_MIN ≤ s.eng.tableSize.toNat
  /-- Every voice is fully idle or holds a consistent note (R41). -/
  notes     : ∀ i, i < NV → (s.voice i).Idle ∨ (s.voice i).Sounding
  /-- Allocated slots have their units (R40). -/
  units     : ∀ i, i < s.eng.alloc → (s.voice i).Equipped s.par
  /-- The other slots have none and are idle (R34, R40). -/
  rest      : ∀ i, i < NV → s.eng.alloc ≤ i → (s.voice i).Unitless ∧ (s.voice i).Idle
  /-- STATUS holds a code of R264 (R44, R265). -/
  status    : s.st.Lawful
  /-- The decoder is inside the command it collects (R45, R94). -/
  decoder   : s.dec.Lawful

/-- From draw `n` on, no creation fails: the premise "no fatal" of 93_implementation_defined.md I5. -/
def CreationsSucceed (c : Config) (n : Nat) : Prop := ∀ d r, n ≤ d → c.createFails d r = false

end Sys2Proof.Machine
end

