-- ==== Sys2Proof/Laws/State.lean ====
section
/-! SUPPORT. One lemma per field for each update of the state, and reading a voice after each update. -/

namespace Sys2Proof.Machine

/-! ## `setVoice` -/

@[simp] theorem setVoice_eng (s : State) (i : Nat) (v : Voice) : (s.setVoice i v).eng = s.eng := rfl
@[simp] theorem setVoice_par (s : State) (i : Nat) (v : Voice) : (s.setVoice i v).par = s.par := rfl
@[simp] theorem setVoice_voices (s : State) (i : Nat) (v : Voice) : (s.setVoice i v).voices = s.voices.setIfInBounds i v := rfl
@[simp] theorem setVoice_st (s : State) (i : Nat) (v : Voice) : (s.setVoice i v).st = s.st := rfl
@[simp] theorem setVoice_dec (s : State) (i : Nat) (v : Voice) : (s.setVoice i v).dec = s.dec := rfl
@[simp] theorem setVoice_out (s : State) (i : Nat) (v : Voice) : (s.setVoice i v).out = s.out := rfl
@[simp] theorem setVoice_input (s : State) (i : Nat) (v : Voice) : (s.setVoice i v).input = s.input := rfl
@[simp] theorem setVoice_requests (s : State) (i : Nat) (v : Voice) : (s.setVoice i v).requests = s.requests := rfl
@[simp] theorem setVoice_draws (s : State) (i : Nat) (v : Voice) : (s.setVoice i v).draws = s.draws := rfl

/-! ## `setEng` -/

@[simp] theorem setEng_eng (s : State) (e : Engine) : (s.setEng e).eng = e := rfl
@[simp] theorem setEng_par (s : State) (e : Engine) : (s.setEng e).par = s.par := rfl
@[simp] theorem setEng_voices (s : State) (e : Engine) : (s.setEng e).voices = s.voices := rfl
@[simp] theorem setEng_st (s : State) (e : Engine) : (s.setEng e).st = s.st := rfl
@[simp] theorem setEng_dec (s : State) (e : Engine) : (s.setEng e).dec = s.dec := rfl
@[simp] theorem setEng_out (s : State) (e : Engine) : (s.setEng e).out = s.out := rfl
@[simp] theorem setEng_input (s : State) (e : Engine) : (s.setEng e).input = s.input := rfl
@[simp] theorem setEng_requests (s : State) (e : Engine) : (s.setEng e).requests = s.requests := rfl
@[simp] theorem setEng_draws (s : State) (e : Engine) : (s.setEng e).draws = s.draws := rfl

/-! ## `setPar` -/

@[simp] theorem setPar_eng (s : State) (p : Params) : (s.setPar p).eng = s.eng := rfl
@[simp] theorem setPar_par (s : State) (p : Params) : (s.setPar p).par = p := rfl
@[simp] theorem setPar_voices (s : State) (p : Params) : (s.setPar p).voices = s.voices := rfl
@[simp] theorem setPar_st (s : State) (p : Params) : (s.setPar p).st = s.st := rfl
@[simp] theorem setPar_dec (s : State) (p : Params) : (s.setPar p).dec = s.dec := rfl
@[simp] theorem setPar_out (s : State) (p : Params) : (s.setPar p).out = s.out := rfl
@[simp] theorem setPar_input (s : State) (p : Params) : (s.setPar p).input = s.input := rfl
@[simp] theorem setPar_requests (s : State) (p : Params) : (s.setPar p).requests = s.requests := rfl
@[simp] theorem setPar_draws (s : State) (p : Params) : (s.setPar p).draws = s.draws := rfl

/-! ## `ask` -/

@[simp] theorem ask_eng (s : State) (rs : List Request) : (s.ask rs).eng = s.eng := rfl
@[simp] theorem ask_par (s : State) (rs : List Request) : (s.ask rs).par = s.par := rfl
@[simp] theorem ask_voices (s : State) (rs : List Request) : (s.ask rs).voices = s.voices := rfl
@[simp] theorem ask_st (s : State) (rs : List Request) : (s.ask rs).st = s.st := rfl
@[simp] theorem ask_dec (s : State) (rs : List Request) : (s.ask rs).dec = s.dec := rfl
@[simp] theorem ask_out (s : State) (rs : List Request) : (s.ask rs).out = s.out := rfl
@[simp] theorem ask_input (s : State) (rs : List Request) : (s.ask rs).input = s.input := rfl
@[simp] theorem ask_requests (s : State) (rs : List Request) : (s.ask rs).requests = s.requests ++ rs := rfl
@[simp] theorem ask_draws (s : State) (rs : List Request) : (s.ask rs).draws = s.draws := rfl

/-! ## `emit` -/

@[simp] theorem emit_eng (s : State) (v : F32) : (s.emit v).eng = s.eng := rfl
@[simp] theorem emit_par (s : State) (v : F32) : (s.emit v).par = s.par := rfl
@[simp] theorem emit_voices (s : State) (v : F32) : (s.emit v).voices = s.voices := rfl
@[simp] theorem emit_st (s : State) (v : F32) : (s.emit v).st = s.st := rfl
@[simp] theorem emit_dec (s : State) (v : F32) : (s.emit v).dec = s.dec := rfl
@[simp] theorem emit_out (s : State) (v : F32) : (s.emit v).out = s.out ++ [v] := rfl
@[simp] theorem emit_input (s : State) (v : F32) : (s.emit v).input = s.input := rfl
@[simp] theorem emit_requests (s : State) (v : F32) : (s.emit v).requests = s.requests := rfl
@[simp] theorem emit_draws (s : State) (v : F32) : (s.emit v).draws = s.draws := rfl

/-! ## `cmdError` -/

@[simp] theorem cmdError_eng (s : State) (code : BitVec 8) : (cmdError code s).eng = s.eng := rfl
@[simp] theorem cmdError_par (s : State) (code : BitVec 8) : (cmdError code s).par = s.par := rfl
@[simp] theorem cmdError_voices (s : State) (code : BitVec 8) : (cmdError code s).voices = s.voices := rfl
@[simp] theorem cmdError_st (s : State) (code : BitVec 8) : (cmdError code s).st = s.st.cmdError code := rfl
@[simp] theorem cmdError_dec (s : State) (code : BitVec 8) : (cmdError code s).dec = s.dec := rfl
@[simp] theorem cmdError_out (s : State) (code : BitVec 8) : (cmdError code s).out = s.out := rfl
@[simp] theorem cmdError_input (s : State) (code : BitVec 8) : (cmdError code s).input = s.input := rfl
@[simp] theorem cmdError_requests (s : State) (code : BitVec 8) : (cmdError code s).requests = s.requests := rfl
@[simp] theorem cmdError_draws (s : State) (code : BitVec 8) : (cmdError code s).draws = s.draws := rfl

/-! ## Reading a voice -/

/-- A voice reads from the register file alone. -/
theorem voice_congr {s t : State} (h : t.voices = s.voices) (i : Nat) : t.voice i = s.voice i := by
  simp only [State.voice, h]

@[simp] theorem voice_setEng (s : State) (e : Engine) (i : Nat) : (s.setEng e).voice i = s.voice i := rfl
@[simp] theorem voice_setPar (s : State) (p : Params) (i : Nat) : (s.setPar p).voice i = s.voice i := rfl
@[simp] theorem voice_ask (s : State) (rs : List Request) (i : Nat) : (s.ask rs).voice i = s.voice i := rfl
@[simp] theorem voice_emit (s : State) (v : F32) (i : Nat) : (s.emit v).voice i = s.voice i := rfl
@[simp] theorem voice_cmdError (s : State) (code : BitVec 8) (i : Nat) : (cmdError code s).voice i = s.voice i := rfl

/-- Reading any slot after writing one. -/
theorem voice_setVoice (s : State) (i j : Nat) (v : Voice) :
    (s.setVoice i v).voice j = if i = j ∧ i < NV then v else s.voice j := by
  simp only [State.voice, State.setVoice, Vector.getElem?_setIfInBounds]
  split
  · next h =>
    subst h
    split
    · simp [*]
    · simp [*]
  · simp [*]

@[simp] theorem voice_setVoice_self (s : State) {i : Nat} (v : Voice) (h : i < NV) : (s.setVoice i v).voice i = v := by
  simp only [voice_setVoice, h, and_self, if_true]

theorem voice_setVoice_ne (s : State) {i j : Nat} (v : Voice) (h : i ≠ j) : (s.setVoice i v).voice j = s.voice j := by
  simp [voice_setVoice, h]

/-- Writing back what is there changes nothing. -/
@[simp] theorem setVoice_voice (s : State) (i : Nat) : s.setVoice i (s.voice i) = s := by
  have : s.voices.setIfInBounds i (s.voice i) = s.voices := by
    ext j hj
    simp only [Vector.getElem_setIfInBounds, State.voice]
    split
    · next h => subst h; simp [hj]
    · rfl
  simp only [State.setVoice, this]

/-- Two register files that read alike are the same. -/
theorem voices_ext {s t : State} (h : ∀ i, i < NV → s.voice i = t.voice i) : s.voices = t.voices := by
  ext i hi
  have := h i hi
  simpa [State.voice, hi] using this

/-! ## Fields by slot -/

@[simp] theorem osc_setOsc_self (v : Voice) (k : OscSlot) (o : Option OscState) : (v.setOsc k o).osc k = o := by
  cases k <;> rfl
theorem osc_setOsc_ne (v : Voice) {k j : OscSlot} (o : Option OscState) (h : k ≠ j) : (v.setOsc k o).osc j = v.osc j := by
  cases k <;> cases j <;> first | rfl | exact absurd rfl h
@[simp] theorem env_setEnv_self (v : Voice) (r : EnvRole) (e : Option EnvState) : (v.setEnv r e).env r = e := by
  cases r <;> rfl
theorem env_setEnv_ne (v : Voice) {r q : EnvRole} (e : Option EnvState) (h : r ≠ q) : (v.setEnv r e).env q = v.env q := by
  cases r <;> cases q <;> first | rfl | exact absurd rfl h
@[simp] theorem setEnv_setEnv (v : Voice) (r : EnvRole) (e f : Option EnvState) : (v.setEnv r e).setEnv r f = v.setEnv r f := by
  cases r <;> rfl
@[simp] theorem tbl_setTbl_self (e : Engine) (k : OscSlot) (t : Option TableRef) : (e.setTbl k t).tbl k = t := by
  cases k <;> rfl
@[simp] theorem wave_setWave_self (p : Params) (k : OscSlot) (w : Wave) : (p.setWave k w).wave k = w := by
  cases k <;> rfl

@[simp] theorem setOsc_active (v : Voice) (k : OscSlot) (o : Option OscState) : (v.setOsc k o).active = v.active := by
  cases k <;> rfl
@[simp] theorem setOsc_gate (v : Voice) (k : OscSlot) (o : Option OscState) : (v.setOsc k o).gate = v.gate := by
  cases k <;> rfl
@[simp] theorem setOsc_midi (v : Voice) (k : OscSlot) (o : Option OscState) : (v.setOsc k o).midi = v.midi := by
  cases k <;> rfl
@[simp] theorem setOsc_baseFreq (v : Voice) (k : OscSlot) (o : Option OscState) : (v.setOsc k o).baseFreq = v.baseFreq := by
  cases k <;> rfl
@[simp] theorem setOsc_velocity (v : Voice) (k : OscSlot) (o : Option OscState) : (v.setOsc k o).velocity = v.velocity := by
  cases k <;> rfl
@[simp] theorem setOsc_aenv (v : Voice) (k : OscSlot) (o : Option OscState) : (v.setOsc k o).aenv = v.aenv := by
  cases k <;> rfl
@[simp] theorem setOsc_fenv (v : Voice) (k : OscSlot) (o : Option OscState) : (v.setOsc k o).fenv = v.fenv := by
  cases k <;> rfl
@[simp] theorem setOsc_filt (v : Voice) (k : OscSlot) (o : Option OscState) : (v.setOsc k o).filt = v.filt := by
  cases k <;> rfl
@[simp] theorem setEnv_active (v : Voice) (r : EnvRole) (e : Option EnvState) : (v.setEnv r e).active = v.active := by
  cases r <;> rfl
@[simp] theorem setEnv_gate (v : Voice) (r : EnvRole) (e : Option EnvState) : (v.setEnv r e).gate = v.gate := by
  cases r <;> rfl
@[simp] theorem setEnv_midi (v : Voice) (r : EnvRole) (e : Option EnvState) : (v.setEnv r e).midi = v.midi := by
  cases r <;> rfl
@[simp] theorem setEnv_baseFreq (v : Voice) (r : EnvRole) (e : Option EnvState) : (v.setEnv r e).baseFreq = v.baseFreq := by
  cases r <;> rfl
@[simp] theorem setEnv_velocity (v : Voice) (r : EnvRole) (e : Option EnvState) : (v.setEnv r e).velocity = v.velocity := by
  cases r <;> rfl
@[simp] theorem setEnv_osc1 (v : Voice) (r : EnvRole) (e : Option EnvState) : (v.setEnv r e).osc1 = v.osc1 := by
  cases r <;> rfl
@[simp] theorem setEnv_osc2 (v : Voice) (r : EnvRole) (e : Option EnvState) : (v.setEnv r e).osc2 = v.osc2 := by
  cases r <;> rfl
@[simp] theorem setEnv_filt (v : Voice) (r : EnvRole) (e : Option EnvState) : (v.setEnv r e).filt = v.filt := by
  cases r <;> rfl
@[simp] theorem setTbl_init (e : Engine) (k : OscSlot) (t : Option TableRef) : (e.setTbl k t).init = e.init := by
  cases k <;> rfl
@[simp] theorem setTbl_sampleRate (e : Engine) (k : OscSlot) (t : Option TableRef) : (e.setTbl k t).sampleRate = e.sampleRate := by
  cases k <;> rfl
@[simp] theorem setTbl_tableSize (e : Engine) (k : OscSlot) (t : Option TableRef) : (e.setTbl k t).tableSize = e.tableSize := by
  cases k <;> rfl
@[simp] theorem setTbl_alloc (e : Engine) (k : OscSlot) (t : Option TableRef) : (e.setTbl k t).alloc = e.alloc := by
  cases k <;> rfl
@[simp] theorem setTbl_rr (e : Engine) (k : OscSlot) (t : Option TableRef) : (e.setTbl k t).rr = e.rr := by
  cases k <;> rfl
@[simp] theorem setTbl_lfo (e : Engine) (k : OscSlot) (t : Option TableRef) : (e.setTbl k t).lfo = e.lfo := by
  cases k <;> rfl
@[simp] theorem setTbl_sine (e : Engine) (k : OscSlot) (t : Option TableRef) : (e.setTbl k t).sine = e.sine := by
  cases k <;> rfl
@[simp] theorem setWave_poly (p : Params) (k : OscSlot) (w : Wave) : (p.setWave k w).poly = p.poly := by
  cases k <;> rfl
@[simp] theorem setWave_lfoDest (p : Params) (k : OscSlot) (w : Wave) : (p.setWave k w).lfoDest = p.lfoDest := by
  cases k <;> rfl

end Sys2Proof.Machine
end

