-- ==== Sys2Proof/Laws/Ops.lean ====
section
/-! SUPPORT. What each shared operation can do, said once: counted loops, EnvSet, creation, Teardown and the fatal path. -/

namespace Sys2Proof.Machine

/-! ## Loops -/

@[simp] theorem forBelow_zero (body : Nat → State → State) (s : State) : forBelow 0 body s = s := rfl

theorem forBelow_succ (n : Nat) (body : Nat → State → State) (s : State) :
    forBelow (n + 1) body s = body n (forBelow n body s) := rfl

/-- What every pass keeps, the loop keeps. -/
theorem forBelow_keeps {K : State → Prop} {body : Nat → State → State} {n : Nat} {s : State} (hs : K s)
    (hb : ∀ i t, i < n → K t → K (body i t)) : K (forBelow n body s) := by
  induction n with
  | zero => exact hs
  | succ m ih => exact hb m _ (Nat.lt_succ_self m) (ih fun i t hi => hb i t (Nat.lt_succ_of_lt hi))

/-- A field that no pass writes is as before the loop. -/
theorem forBelow_eq {α : Type} {π : State → α} {body : Nat → State → State} (hb : ∀ i t, π (body i t) = π t)
    (n : Nat) (s : State) : π (forBelow n body s) = π s :=
  forBelow_keeps (K := fun t => π t = π s) rfl fun i t _ h => (hb i t).trans h

/-- A loop whose pass `i` rewrites `V[i]` by `f i`, while `K` holds, rewrites each slot below the bound once. -/
theorem forBelow_voice {K : State → Prop} {body : Nat → State → State} {f : Nat → Voice → Voice} {s : State}
    (hs : K s) (hk : ∀ i t, K t → K (body i t))
    (hself : ∀ i t, K t → i < NV → (body i t).voice i = f i (t.voice i))
    (hother : ∀ i j t, i ≠ j → (body i t).voice j = t.voice j) (n j : Nat) (hj : j < NV) :
    (forBelow n body s).voice j = if j < n then f j (s.voice j) else s.voice j := by
  induction n with
  | zero => simp
  | succ m ih =>
    have hkm : K (forBelow m body s) := forBelow_keeps hs fun i t _ => hk i t
    rw [forBelow_succ]
    by_cases hjm : m = j
    · subst hjm
      rw [hself m _ hkm hj, ih]
      simp
    · rw [hother m j _ hjm, ih]
      have : j < m + 1 ↔ j < m := by omega
      simp only [this]

/-- A loop whose pass `i` appends `f i (V[i])` to the request log, and writes no slot above `i`, appends them in order. -/
theorem forBelow_requests {K : State → Prop} {body : Nat → State → State} {f : Nat → Voice → List Request} {s : State}
    (hs : K s) (hk : ∀ i t, K t → K (body i t))
    (hself : ∀ i t, K t → (body i t).requests = t.requests ++ f i (t.voice i))
    (hother : ∀ i j t, i ≠ j → (body i t).voice j = t.voice j) (n : Nat) :
    (forBelow n body s).requests = s.requests ++ (List.range n).flatMap fun i => f i (s.voice i) := by
  have hvoice : ∀ m j, m ≤ j → (forBelow m body s).voice j = s.voice j := by
    intro m
    induction m with
    | zero => intro j _; rfl
    | succ m ih =>
      intro j hj
      rw [forBelow_succ, hother m j _ (by omega), ih j (by omega)]
  induction n with
  | zero => simp
  | succ m ih =>
    have hkm : K (forBelow m body s) := forBelow_keeps hs fun i t _ => hk i t
    rw [forBelow_succ, hself m _ hkm, ih, hvoice m m (Nat.le_refl m), List.range_succ, List.flatMap_append]
    simp

/-! ## EnvSet -/

@[simp] theorem pushEnv_eng (c : Config) (r : EnvRole) (i : Nat) (s : State) : (s.pushEnv c r i).eng = s.eng := rfl
@[simp] theorem pushEnv_par (c : Config) (r : EnvRole) (i : Nat) (s : State) : (s.pushEnv c r i).par = s.par := rfl
@[simp] theorem pushEnv_st (c : Config) (r : EnvRole) (i : Nat) (s : State) : (s.pushEnv c r i).st = s.st := rfl
@[simp] theorem pushEnv_dec (c : Config) (r : EnvRole) (i : Nat) (s : State) : (s.pushEnv c r i).dec = s.dec := rfl
@[simp] theorem pushEnv_out (c : Config) (r : EnvRole) (i : Nat) (s : State) : (s.pushEnv c r i).out = s.out := rfl
@[simp] theorem pushEnv_input (c : Config) (r : EnvRole) (i : Nat) (s : State) : (s.pushEnv c r i).input = s.input := rfl
@[simp] theorem pushEnv_draws (c : Config) (r : EnvRole) (i : Nat) (s : State) : (s.pushEnv c r i).draws = s.draws := rfl
@[simp] theorem pushEnv_requests (c : Config) (r : EnvRole) (i : Nat) (s : State) :
    (s.pushEnv c r i).requests = s.requests ++ envSetRequest (s.par.adsr r) ((s.voice i).env r) := rfl

/-- The voice an EnvSet leaves: only the role's envelope changes. -/
theorem pushEnv_voice (c : Config) (r : EnvRole) (i j : Nat) (s : State) :
    (s.pushEnv c r i).voice j =
      if i = j ∧ i < NV then (s.voice i).setEnv r (envAfterSet c (s.par.adsr r) ((s.voice i).env r)) else s.voice j := by
  simp only [State.pushEnv, voice_ask, voice_setVoice]

theorem pushEnv_voice_self (c : Config) (r : EnvRole) {i : Nat} (s : State) (h : i < NV) :
    (s.pushEnv c r i).voice i = (s.voice i).setEnv r (envAfterSet c (s.par.adsr r) ((s.voice i).env r)) := by
  simp only [pushEnv_voice, h, and_self, if_true]

theorem pushEnv_voice_ne (c : Config) (r : EnvRole) {i j : Nat} (s : State) (h : i ≠ j) :
    (s.pushEnv c r i).voice j = s.voice j := by
  simp [pushEnv_voice, h]

/-- Propagation changes the voices' envelopes and the request log, and nothing else. -/
theorem propagateEnv_frame (c : Config) (r : EnvRole) (s : State) :
    let t := s.propagateEnv c r
    t.eng = s.eng ∧ t.par = s.par ∧ t.st = s.st ∧ t.dec = s.dec ∧ t.out = s.out ∧ t.input = s.input ∧ t.draws = s.draws := by
  simp only [State.propagateEnv]
  split
  · refine ⟨?_, ?_, ?_, ?_, ?_, ?_, ?_⟩
    · exact forBelow_eq (π := State.eng) (body := State.pushEnv c r) (fun _ _ => rfl) _ _
    · exact forBelow_eq (π := State.par) (body := State.pushEnv c r) (fun _ _ => rfl) _ _
    · exact forBelow_eq (π := State.st) (body := State.pushEnv c r) (fun _ _ => rfl) _ _
    · exact forBelow_eq (π := State.dec) (body := State.pushEnv c r) (fun _ _ => rfl) _ _
    · exact forBelow_eq (π := State.out) (body := State.pushEnv c r) (fun _ _ => rfl) _ _
    · exact forBelow_eq (π := State.input) (body := State.pushEnv c r) (fun _ _ => rfl) _ _
    · exact forBelow_eq (π := State.draws) (body := State.pushEnv c r) (fun _ _ => rfl) _ _
  · simp

/-- Propagation sets the role's envelope of every allocated voice of an initialized engine. -/
theorem propagateEnv_voice (c : Config) (r : EnvRole) (s : State) (j : Nat) (hj : j < NV) :
    (s.propagateEnv c r).voice j =
      if s.eng.init = true ∧ j < s.eng.alloc then
        (s.voice j).setEnv r (envAfterSet c (s.par.adsr r) ((s.voice j).env r))
      else s.voice j := by
  simp only [State.propagateEnv]
  by_cases hi : s.eng.init = true
  · simp only [hi, if_true, true_and]
    exact forBelow_voice (K := fun t => t.par = s.par) (body := State.pushEnv c r)
      (f := fun _ v => v.setEnv r (envAfterSet c (s.par.adsr r) (v.env r))) rfl
      (fun i t h => h) (fun i t h hlt => by rw [pushEnv_voice_self c r t hlt, h])
      (fun i k t h => pushEnv_voice_ne c r t h) s.eng.alloc j hj
  · simp [hi]

/-! ## Creation -/

@[simp] theorem Attempt.andThen_ok (s : State) (f : State → Attempt) : (Attempt.ok s).andThen f = f s := rfl
@[simp] theorem Attempt.andThen_fail (s : State) (f : State → Attempt) : (Attempt.fail s).andThen f = .fail s := rfl

/-- The state at which an attempt stands. -/
def Attempt.state : Attempt → State
  | .ok s => s
  | .fail s => s

/-- The attempt has gone through so far. -/
def Attempt.isOk : Attempt → Bool
  | .ok _ => true
  | .fail _ => false

/-- What a sequence of two attempts keeps. -/
theorem Attempt.andThen_keeps {K : State → Prop} {x : Attempt} {f : State → Attempt} (hx : K x.state)
    (hf : ∀ s, K s → K (f s).state) : K (x.andThen f).state := by
  cases x with
  | ok s => exact hf s hx
  | fail s => exact hx

/-- A sequence goes through exactly when both parts do. -/
theorem Attempt.andThen_eq_ok {x : Attempt} {f : State → Attempt} {u : State} :
    x.andThen f = .ok u ↔ ∃ t, x = .ok t ∧ f t = .ok u := by
  cases x <;> simp [Attempt.andThen]

/-- A creation asks once, draws once, and either fails or keeps the answer. -/
theorem create_cases (c : Config) (r : Request) (store : State → State) (s : State) :
    (c.createFails s.draws r = false ∧ create c r store s = .ok (store { s.ask [r] with draws := s.draws + 1 })) ∨
    (c.createFails s.draws r = true ∧ create c r store s = .fail { s.ask [r] with draws := s.draws + 1 }) := by
  unfold create
  cases c.createFails s.draws r <;> simp

/-! ## Teardown -/

/-- The `Release` requests of a Teardown, in the order of 44_engine_lifecycle.md R242. -/
def teardownReleases (s : State) : List Request :=
  ((List.range NV).flatMap fun i => (s.voice i).releases) ++ s.eng.releases

theorem tearVoice_voice (i j : Nat) (s : State) :
    (tearVoice i s).voice j = if i = j ∧ i < NV then (s.voice i).torn else s.voice j := by
  simp only [tearVoice, voice_ask, voice_setVoice]

theorem tearVoice_voice_ne (i j : Nat) (s : State) (h : i ≠ j) : (tearVoice i s).voice j = s.voice j := by
  rw [tearVoice_voice, if_neg fun hc => h hc.1]

/-- Everything Teardown does: the voices, the engine registers and the request log. -/
theorem teardown_spec (s : State) :
    (teardown s).eng = s.eng.torn ∧ (teardown s).par = s.par ∧ (teardown s).st = s.st ∧ (teardown s).dec = s.dec ∧
      (teardown s).out = s.out ∧ (teardown s).input = s.input ∧ (teardown s).draws = s.draws ∧
      (teardown s).requests = s.requests ++ teardownReleases s ∧ ∀ i, i < NV → (teardown s).voice i = (s.voice i).torn := by
  have heng : (forBelow NV tearVoice s).eng = s.eng := forBelow_eq (π := State.eng) (body := tearVoice) (fun _ _ => rfl) _ _
  refine ⟨?_, ?_, ?_, ?_, ?_, ?_, ?_, ?_, ?_⟩
  · simp only [teardown, heng]
  · simpa only [teardown, ask_par] using forBelow_eq (π := State.par) (body := tearVoice) (fun _ _ => rfl) NV s
  · simpa only [teardown, ask_st] using forBelow_eq (π := State.st) (body := tearVoice) (fun _ _ => rfl) NV s
  · simpa only [teardown, ask_dec] using forBelow_eq (π := State.dec) (body := tearVoice) (fun _ _ => rfl) NV s
  · simpa only [teardown, ask_out] using forBelow_eq (π := State.out) (body := tearVoice) (fun _ _ => rfl) NV s
  · simpa only [teardown, ask_input] using forBelow_eq (π := State.input) (body := tearVoice) (fun _ _ => rfl) NV s
  · simpa only [teardown, ask_draws] using forBelow_eq (π := State.draws) (body := tearVoice) (fun _ _ => rfl) NV s
  · have h := forBelow_requests (K := fun _ => True) (body := tearVoice) (f := fun _ v => v.releases) (s := s) trivial
      (fun _ _ _ => trivial) (fun _ _ _ => rfl) (fun i j t h => by simp [tearVoice_voice, h]) NV
    simp only [teardown, ask_requests, heng, h, teardownReleases, List.append_assoc]
  · intro i hi
    have h := forBelow_voice (K := fun _ => True) (body := tearVoice) (f := fun _ v => v.torn) (s := s) trivial
      (fun _ _ _ => trivial) (fun i t _ hlt => by simp [tearVoice_voice, hlt])
      tearVoice_voice_ne NV i hi
    rw [if_pos hi] at h
    exact (voice_congr rfl i).trans h

@[simp] theorem teardown_eng (s : State) : (teardown s).eng = s.eng.torn := (teardown_spec s).1
@[simp] theorem teardown_par (s : State) : (teardown s).par = s.par := (teardown_spec s).2.1
@[simp] theorem teardown_st (s : State) : (teardown s).st = s.st := (teardown_spec s).2.2.1
@[simp] theorem teardown_dec (s : State) : (teardown s).dec = s.dec := (teardown_spec s).2.2.2.1
@[simp] theorem teardown_out (s : State) : (teardown s).out = s.out := (teardown_spec s).2.2.2.2.1
@[simp] theorem teardown_input (s : State) : (teardown s).input = s.input := (teardown_spec s).2.2.2.2.2.1
@[simp] theorem teardown_draws (s : State) : (teardown s).draws = s.draws := (teardown_spec s).2.2.2.2.2.2.1
theorem teardown_requests (s : State) : (teardown s).requests = s.requests ++ teardownReleases s :=
  (teardown_spec s).2.2.2.2.2.2.2.1
theorem teardown_voice (s : State) {i : Nat} (h : i < NV) : (teardown s).voice i = (s.voice i).torn :=
  (teardown_spec s).2.2.2.2.2.2.2.2 i h

/-! ## The fatal path -/

@[simp] theorem fatal_eng (code : BitVec 8) (s : State) : (fatal code s).eng = s.eng.torn := by simp [fatal]
@[simp] theorem fatal_par (code : BitVec 8) (s : State) : (fatal code s).par = s.par := by simp [fatal]
@[simp] theorem fatal_st (code : BitVec 8) (s : State) : (fatal code s).st = s.st.fatalError code := by simp [fatal]
@[simp] theorem fatal_dec (code : BitVec 8) (s : State) : (fatal code s).dec = s.dec := by simp [fatal]
@[simp] theorem fatal_out (code : BitVec 8) (s : State) : (fatal code s).out = s.out := by simp [fatal]
@[simp] theorem fatal_input (code : BitVec 8) (s : State) : (fatal code s).input = s.input := by simp [fatal]
@[simp] theorem fatal_draws (code : BitVec 8) (s : State) : (fatal code s).draws = s.draws := by simp [fatal]
theorem fatal_voice (code : BitVec 8) (s : State) {i : Nat} (h : i < NV) : (fatal code s).voice i = (s.voice i).torn :=
  teardown_voice _ h

/-- The fatal path is Teardown and the record in STATUS. -/
theorem fatal_eq (code : BitVec 8) (s : State) : fatal code s = { teardown s with st := s.st.fatalError code } := by
  rw [← teardown_st s]
  rfl

theorem fatal_requests (code : BitVec 8) (s : State) : (fatal code s).requests = s.requests ++ teardownReleases s :=
  teardown_requests s

/-- Everything a command's Fatal does, in either reading: it differs from the pseudocode's in the parameters and three engine
registers alone. -/
theorem fatalFrom_eq (c : Config) (code : BitVec 8) (s u : State) :
    fatalFrom c code s u = { fatal code u with
      par := if c.fatalRestores then s.par else u.par
      eng := { u.eng.torn with
        sampleRate := if c.fatalRestores then s.eng.sampleRate else u.eng.sampleRate
        tableSize := if c.fatalRestores then s.eng.tableSize else u.eng.tableSize
        rr := if c.fatalRestores then s.eng.rr else u.eng.rr } } := by
  have he := fatal_eng code u
  have hp := fatal_par code u
  unfold fatalFrom
  split
  · simp only [State.restoring, he]
  · rw [← hp]
    exact (congrArg (fun e => { fatal code u with eng := e }) he)

@[simp] theorem fatalFrom_eng (c : Config) (code : BitVec 8) (s u : State) : (fatalFrom c code s u).eng = { u.eng.torn with
    sampleRate := if c.fatalRestores then s.eng.sampleRate else u.eng.sampleRate
    tableSize := if c.fatalRestores then s.eng.tableSize else u.eng.tableSize
    rr := if c.fatalRestores then s.eng.rr else u.eng.rr } := by rw [fatalFrom_eq]
@[simp] theorem fatalFrom_par (c : Config) (code : BitVec 8) (s u : State) :
    (fatalFrom c code s u).par = if c.fatalRestores then s.par else u.par := by rw [fatalFrom_eq]
@[simp] theorem fatalFrom_st (c : Config) (code : BitVec 8) (s u : State) :
    (fatalFrom c code s u).st = u.st.fatalError code := by rw [fatalFrom_eq]; exact fatal_st code u
@[simp] theorem fatalFrom_dec (c : Config) (code : BitVec 8) (s u : State) : (fatalFrom c code s u).dec = u.dec := by
  rw [fatalFrom_eq]; exact fatal_dec code u
@[simp] theorem fatalFrom_out (c : Config) (code : BitVec 8) (s u : State) : (fatalFrom c code s u).out = u.out := by
  rw [fatalFrom_eq]; exact fatal_out code u
@[simp] theorem fatalFrom_input (c : Config) (code : BitVec 8) (s u : State) : (fatalFrom c code s u).input = u.input := by
  rw [fatalFrom_eq]; exact fatal_input code u
@[simp] theorem fatalFrom_draws (c : Config) (code : BitVec 8) (s u : State) : (fatalFrom c code s u).draws = u.draws := by
  rw [fatalFrom_eq]; exact fatal_draws code u
theorem fatalFrom_requests (c : Config) (code : BitVec 8) (s u : State) :
    (fatalFrom c code s u).requests = u.requests ++ teardownReleases u := by rw [fatalFrom_eq]; exact fatal_requests code u
theorem fatalFrom_voice (c : Config) (code : BitVec 8) (s u : State) {i : Nat} (h : i < NV) :
    (fatalFrom c code s u).voice i = (u.voice i).torn := by rw [fatalFrom_eq]; exact fatal_voice code u h

@[simp] theorem Attempt.orFatal_ok (c : Config) (s t : State) : (Attempt.ok t).orFatal c s = t := rfl
@[simp] theorem Attempt.orFatal_fail (c : Config) (s u : State) :
    (Attempt.fail u).orFatal c s = fatalFrom c FATAL_RESOURCE s u := rfl

/-- An attempt ends in its state, or in the fatal path from it. -/
theorem Attempt.orFatal_cases (c : Config) (s : State) (x : Attempt) :
    (x.isOk = true ∧ x.orFatal c s = x.state) ∨
      (x.isOk = false ∧ x.orFatal c s = fatalFrom c FATAL_RESOURCE s x.state) := by
  cases x <;> simp [Attempt.isOk, Attempt.orFatal, Attempt.state]

/-- A torn voice depends on the base frequency alone. -/
theorem torn_congr {v w : Voice} (h : v.baseFreq = w.baseFreq) : v.torn = w.torn := by
  unfold Voice.torn Voice.makeIdle
  rw [h]

theorem torn_idle (v : Voice) : v.torn.Idle ∧ v.torn.Unitless := ⟨⟨rfl, rfl, rfl, rfl⟩, rfl, rfl, rfl, rfl, rfl⟩

end Sys2Proof.Machine
end

