-- ==== Sys2Proof/Machine/Assembler.lean ====
section
/-! DEFINITION. The assembler of 30_encoding.md R99 and R100: the words a line of assembly text stands for. Text is a list of
characters, and a line that is not in the syntax assembles to `none`. -/

namespace Sys2Proof.Machine

/-- The value of a digit character in a base, if it is one: 0 to 9, A to F, a to f. -/
def digitOf (base : Nat) (ch : Char) : Option Nat :=
  let n := ch.toNat
  let v := if 48 ≤ n ∧ n ≤ 57 then n - 48 else if 65 ≤ n ∧ n ≤ 70 then n - 55 else if 97 ≤ n ∧ n ≤ 102 then n - 87 else base
  if v < base then some v else none

/-- The number written by digits in a base, read on from `acc`. -/
def digitsFrom (base acc : Nat) : List Char → Option Nat
  | [] => some acc
  | ch :: rest =>
    match digitOf base ch with
    | some v => digitsFrom base (acc * base + v) rest
    | none => none

/-- The number written by one or more digits in a base. -/
def digits (base : Nat) (cs : List Char) : Option Nat := if cs = [] then none else digitsFrom base 0 cs

/-- The 32-bit word written by one or more hexadecimal digits. -/
def hexWord (cs : List Char) : Option Word :=
  match digits 16 cs with
  | some n => if n < 2 ^ 32 then some (BitVec.ofNat 32 n) else none
  | none => none

/-- A decimal integer in the range of `s32`, as a word. -/
def decimalWord (neg : Bool) (cs : List Char) : Option Word :=
  match digits 10 cs with
  | some n =>
    let k : Int := if neg then -(n : Int) else n
    if fitsI32 k then some (ofS32 k) else none
  | none => none

/-- An integer operand: decimal with an optional leading `-`, or `0x…` (R99). -/
def intOperand : List Char → Option Word
  | '0' :: 'x' :: cs => hexWord cs
  | '-' :: cs => decimalWord true cs
  | cs => decimalWord false cs

/-- A decimal literal after its sign, as the nearest binary32 (R99): digits, with an optional point and more digits. DESIGN
CHOICE (log 20): R99 leaves the literal's grammar open beyond its start; here at least one digit stands before the point and,
where there is a point, one after it, so `-.5` and `5.` are no literals, and there is no exponent. -/
def decimalF32 (neg : Bool) (cs : List Char) : Option F32 :=
  let whole := cs.takeWhile (· != '.')
  let frac := (cs.dropWhile (· != '.')).drop 1
  let pointed := cs.contains '.'
  match digits 10 (whole ++ frac) with
  | some n =>
    if whole = [] ∨ (pointed ∧ frac = []) then none else some (roundF32 neg (n * 2 ^ 149) (10 ^ frac.length))
  | none => none

/-- A real operand: a decimal literal that a digit or a sign starts, or `0x…f`, a raw bit pattern (R99). -/
def realOperand : List Char → Option Word
  | '0' :: 'x' :: cs => if cs.getLast? = some 'f' then hexWord cs.dropLast else none
  | '-' :: cs => decimalF32 true cs
  | '+' :: cs => decimalF32 false cs
  | cs => decimalF32 false cs

/-- An operand of a given type. -/
def operandWord : OperandType → List Char → Option Word
  | .i32, cs => intOperand cs
  | .f32, cs => realOperand cs

/-- Operands against the types of a row: as many of each. -/
def operandWordsOf : List OperandType → List (List Char) → Option (List Word)
  | [], [] => some []
  | ty :: tys, cs :: rest =>
    match operandWord ty cs, operandWordsOf tys rest with
    | some w, some ws => some (w :: ws)
    | _, _ => none
  | _, _ => none

/-- The pieces of a text between the separators. -/
def piecesAt (sep : Char) : List Char → List (List Char)
  | [] => [[]]
  | ch :: rest =>
    match piecesAt sep rest with
    | [] => [[ch]]
    | p :: ps => if ch = sep then [] :: p :: ps else (ch :: p) :: ps

/-- A text without the blanks at its ends. -/
def trimBlanks (cs : List Char) : List Char :=
  ((cs.dropWhile (· == ' ')).reverse.dropWhile (· == ' ')).reverse

/-- A row with a mnemonic, its operands assembled; `LEN` comes from the mnemonic (R99). -/
def assembleRow (name : List Char) (args : List (List Char)) : Option (List Word) :=
  match opcodeTable.find? fun r => r.mnemonic.toList == name with
  | some r =>
    match operandWordsOf r.operands args with
    | some ws => some (r.header :: ws)
    | none => none
  | none => none

/-- The mnemonic an alias stands for: NOTE_OFF by its operand count (R100). -/
def resolveAlias (name : List Char) (args : List (List Char)) : List Char :=
  if name = "NOTE_OFF".toList then
    if args = [] then "NOTE_OFF_ALL".toList else "NOTE_OFF_MIDI".toList
  else name

/-- A mnemonic and its operands as words; `RAW w` is the word `w` verbatim (R100). -/
def assembleCommand (name : List Char) (args : List (List Char)) : Option (List Word) :=
  if name = "RAW".toList then
    match args with
    | [cs] => (intOperand cs).map fun w => [w]
    | _ => none
  else assembleRow (resolveAlias name args) args

/-- The words of one line: `MNEMONIC` and operands separated by commas; a `;` starts a comment (R99). A line with nothing
but blanks and a comment has no words. -/
def assembleLine (line : List Char) : Option (List Word) :=
  let text := trimBlanks (line.takeWhile (· != ';'))
  let name := text.takeWhile (· != ' ')
  let rest := trimBlanks (text.dropWhile (· != ' '))
  if text = [] then some []
  else assembleCommand name (if rest = [] then [] else (piecesAt ',' rest).map trimBlanks)

end Sys2Proof.Machine
end

