-- ==== Sys2Proof/Certificates/Slice0/Obligations.lean ====
section
/-! DEFINITION. The statements for the provers. Each says which rule of spec/ it formalises. Where a statement speaks of the
block's answers under the open configuration it speaks of `Config.impl`, or of every `Config`. -/

open Sys2Proof Sys2Proof.Machine Host

/-! ## Reset and the invariant -/

/-- R290: the values power-on reset leaves. A parameter register holds its open `RESET_PARAMS` value: a real-valued one any value,
an integer one a value in its legal range. -/
def Obligations.ResetLeavesIdleBlock : Prop :=
  State.reset.eng.init = false ∧ State.reset.eng.alloc = 0 ∧ State.reset.eng.rr = 0 ∧
  State.reset.eng.lfo = none ∧ State.reset.eng.sine = none ∧ State.reset.eng.tbl1 = none ∧ State.reset.eng.tbl2 = none ∧
  (1 ≤ State.reset.par.poly ∧ State.reset.par.poly ≤ 16) ∧ State.reset.par.wave1.number ≤ 4 ∧
  State.reset.par.wave2.number ≤ 4 ∧ State.reset.par.lfoDest.number ≤ 7 ∧
  (∀ i, i < NV → (State.reset.voice i).active = false ∧ (State.reset.voice i).gate = posZero ∧
    (State.reset.voice i).midi = -1 ∧ (State.reset.voice i).velocity = posZero ∧ (State.reset.voice i).Unitless) ∧
  statusWord State.reset = 0x00000000#32 ∧ State.reset.dec.phase = .header ∧ State.reset.dec.k = 0 ∧ State.reset.out = []

/-- The invariants of R33, R34, R36 and R40 to R45 hold after power-on reset. -/
def Obligations.ResetMeetsInvariant : Prop := Inv State.reset

/-- The invariants of R33, R34, R36 and R40 to R45: every step keeps them, from every state that meets them. The model's
choice: the command input port (log 1). -/
def Obligations.StepKeepsInvariant : Prop := ∀ s t : State, Inv s → step s = .next t → Inv t

/-! ## Encoding -/

/-- R91, R92, R96: decoding the words of a well-formed command gives that command, whatever its operands. -/
def Obligations.DecodeOfEncode : Prop := ∀ i : Instr, i.wellFormed = true → decodeWords (encode i) = .ok i

/-- R90, R94, R96: words that decode are exactly the words of the command they decode to, and that command is well formed. -/
def Obligations.EncodeOfDecode : Prop :=
  ∀ (h : Word) (ops : List Word) (i : Instr), decode h ops = .ok i → encode i = h :: ops ∧ i.wellFormed = true

/-- A few words of R96 and of the test vectors, decoded. -/
def Obligations.SampleWordsDecode : Prop :=
  decodeWords [0x00000201#32, 0x472C4400#32, 0x00000800#32] = .ok (.init 0x472C4400#32 2048) ∧
  decodeWords [0x00000203#32, 0x0000003C#32, 0x3F800000#32] = .ok (.noteOn 60 one) ∧
  decodeWords [0x00000117#32, 0xFFFFFFFD#32] = .ok (.lfoDest (-3)) ∧
  decodeWords [0x00000312#32, 0x3F800000#32, 0x40000000#32, 0x40400000#32] = .ok (.fm2 one two 0x40400000#32) ∧
  decodeWords [0x0000011A#32, 0xFFFFFFFF#32] = .ok (.render (-1)) ∧
  decodeWords [0x00000004#32] = .ok .noteOffAll ∧
  decodeWords [0xFFFF00FF#32] = .error .reservedBits ∧ decodeWords [0x0000001B#32] = .error .undefinedOpcode

/-! ## The command stream -/

/-- R94: when the word received completes a legal command, the step is that command's meaning, on the state whose decoder
has received the word and waits for a header; `D.ops[0 .. D.k−1]` is the first `D.k` entries of `D.ops`. The model's choice: the
command input port (log 1). -/
def Obligations.StepRunsDecoded : Prop :=
  (∀ (s : State) (w : Word) (rest : List Word) (i : Instr), s.dec.phase = .header → s.input = w :: rest →
    lenField w = 0 → decode w [] = .ok i →
    step s = exec i { s with input := rest, dec := { s.dec with hdr := w, k := 0 } }) ∧
  (∀ (s : State) (w : Word) (rest : List Word) (i : Instr), s.dec.phase = .operands → s.input = w :: rest →
    s.dec.k + 1 = lenField s.dec.hdr → decode s.dec.hdr (s.dec.ops.toList.take s.dec.k ++ [w]) = .ok i →
    step s = exec i { s with
      input := rest
      dec := { phase := .header, hdr := s.dec.hdr, k := s.dec.k + 1, ops := s.dec.ops.setIfInBounds s.dec.k w } })

/-- R78, R94: a word that does not complete its command is written to the decoder's registers as R94 says and has no other
effect. The model's choice: the command input port (log 1). -/
def Obligations.PartialCommandHasNoEffect : Prop :=
  (∀ (s : State) (w : Word) (rest : List Word), s.dec.phase = .header → s.input = w :: rest → lenField w ≠ 0 →
    step s = .next { s with input := rest, dec := { phase := .operands, hdr := w, k := 0, ops := s.dec.ops } }) ∧
  (∀ (s : State) (w : Word) (rest : List Word), s.dec.phase = .operands → s.input = w :: rest →
    s.dec.k + 1 ≠ lenField s.dec.hdr →
    step s = .next { s with
      input := rest, dec := { s.dec with k := s.dec.k + 1, ops := s.dec.ops.setIfInBounds s.dec.k w } })

/-- R75, R94: the words of a well-formed command, received one a step from a header position, run that command once, at the
last word, and leave the words after it on the stream. The decoder then holds the command's words, and an entry of `D.ops` that
they did not reach is as before. The model's choice: the command input port (log 1). -/
def Obligations.CommandStreamRunsCommand : Prop :=
  ∀ (s : State) (i : Instr) (rest : List Word), i.wellFormed = true → s.dec.phase = .header →
    s.input = encode i ++ rest →
    ∃ d : Decoder, Core.run Sys2Proof.core (encode i).length s = exec i { s with input := rest, dec := d } ∧
      d.phase = .header ∧ d.hdr = i.headerWord ∧ d.k = i.operandWords.length ∧
      ∀ j, d.ops[j]? = if j < i.operandWords.length then i.operandWords[j]? else s.dec.ops[j]?

/-- R94: the checks of Execute, in order, and the code each records. The opcodes of R96 are 0x01 to 0x1A. -/
def Obligations.ExecuteChecksInOrder : Prop :=
  ∀ (h : Word) (ops : List Word) (s : State),
    (rsvField h ≠ 0 → execute h ops s = .next (cmdError 0x02#8 s)) ∧
    (rsvField h = 0 → (opcField h = 0 ∨ 0x1B ≤ opcField h) → execute h ops s = .next (cmdError 0x01#8 s)) ∧
    (∀ i : Instr, rsvField h = 0 → opcField h = i.opcode → lenField h ≠ i.operandWords.length →
      execute h ops s = .next (cmdError 0x03#8 s))

/-- R262, R299: a command with an illegal header is discarded. Its header and `LEN` operand words are consumed, ERR_CMD is
set, the first code is kept, and nothing else of the block changes but the decoder's registers, as R94 says. The model's choice:
the command input port (log 1). -/
def Obligations.IllegalCommandDiscarded : Prop :=
  ∀ (s : State) (h : Word) (ws rest : List Word) (e : DecodeError), s.dec.phase = .header →
    s.input = h :: (ws ++ rest) → ws.length = lenField h → decode h ws = .error e →
    ∃ d : Decoder, Core.run Sys2Proof.core (ws.length + 1) s =
      .next { s with
        input := rest
        dec := d
        st := { errCmd := true, fatal := s.st.fatal,
                errCode := if s.st.errCode = 0 then errorCode e else s.st.errCode } } ∧
      d.phase = .header ∧ d.hdr = h ∧ d.k = ws.length ∧
      ∀ j, d.ops[j]? = if j < ws.length then ws[j]? else s.dec.ops[j]?

/-- R94, R260: the decoder is total on every word sequence and nothing traps: every step answers a next state. The model's
choice: the command input port (log 1). -/
def Obligations.EveryStepAnswers : Prop := ∀ s : State, ∃ t, step s = .next t

/-- R275: when no command word is pending the block waits with all state kept. The model's choice: the command input port
(log 1). -/
def Obligations.WaitsWithAllStateKept : Prop := ∀ s : State, s.input = [] → step s = .next s

/-! ## STATUS -/

/-- R44: the fields of STATUS as the host reads it; the reserved bits read as 0. -/
def Obligations.StatusLayout : Prop :=
  ∀ s : State,
    (statusWord s).getLsbD 0 = s.eng.init ∧ (statusWord s).getLsbD 1 = s.st.errCmd ∧
    (statusWord s).getLsbD 2 = s.st.fatal ∧ (statusWord s).extractLsb' 3 5 = 0#5 ∧
    (statusWord s).extractLsb' 8 8 = s.st.errCode ∧ (statusWord s).extractLsb' 16 16 = 0#16

/-- R44, R265: no step clears ERR_CMD, FATAL or the first error's code. The model's choice: the command input port (log 1).
-/
def Obligations.ErrorsAreSticky : Prop :=
  ∀ s t : State, step s = .next t →
    (s.st.errCmd = true → t.st.errCmd = true) ∧ (s.st.fatal = true → t.st.fatal = true) ∧
    (s.st.errCode ≠ 0 → t.st.errCode = s.st.errCode)

/-- R261, R263, R264: a command that cannot create a unit or a table writes no STATUS field that is stored; one that can either
writes none or records FATAL with code 0x10. -/
def Obligations.OnlyCreatorsReachFatal : Prop :=
  ∀ (i : Instr) (s t : State), exec i s = .next t →
    t.st = s.st ∨
    (t.st = { errCmd := s.st.errCmd, fatal := true, errCode := if s.st.errCode = 0 then 0x10#8 else s.st.errCode } ∧
      t.eng.init = false ∧
      ((∃ r n, i = .init r n) ∨ (∃ n, i = .setPoly n) ∨ (∃ n, i = .setWave n) ∨ (∃ n, i = .setWave1 n) ∨
        (∃ n, i = .setWave2 n)))

/-! ## The parameter store -/

/-- R210, R215 to R221, R223: each of these setters writes its registers, unclamped, and changes nothing else, initialized or
not; and the words of each. -/
def Obligations.PlainSettersWriteTheirRegisters : Prop :=
  ∀ (s : State) (a b c : F32),
    exec (.setAmp a) s = .next { s with par := { s.par with masterAmp := a } } ∧
    exec (.setDetune1 a) s = .next { s with par := { s.par with detune1 := a } } ∧
    exec (.setDetune2 a) s = .next { s with par := { s.par with detune2 := a } } ∧
    exec (.setGain1 a) s = .next { s with par := { s.par with gain1 := a } } ∧
    exec (.setGain2 a) s = .next { s with par := { s.par with gain2 := a } } ∧
    exec (.fm1 a b c) s = .next { s with par := { s.par with fm1Carrier := a, fm1Mod := b, fm1Index := c } } ∧
    exec (.fm2 a b c) s = .next { s with par := { s.par with fm2Carrier := a, fm2Mod := b, fm2Index := c } } ∧
    exec (.filterSet a b) s = .next { s with par := { s.par with cutoff := a, res := b } } ∧
    exec (.filterEnvAmount a) s = .next { s with par := { s.par with fenvAmount := a } } ∧
    encode (.setAmp a) = [0x00000106#32, a] ∧ encode (.setDetune1 a) = [0x0000010D#32, a] ∧
    encode (.setDetune2 a) = [0x0000010E#32, a] ∧ encode (.setGain1 a) = [0x0000010F#32, a] ∧
    encode (.setGain2 a) = [0x00000110#32, a] ∧ encode (.fm1 a b c) = [0x00000311#32, a, b, c] ∧
    encode (.fm2 a b c) = [0x00000312#32, a, b, c] ∧ encode (.filterSet a b) = [0x00000213#32, a, b] ∧
    encode (.filterEnvAmount a) = [0x00000115#32, a]

/-- R162 to R165: the LFO commands write their registers and change nothing else. A destination below 0 is 0 and one above 7
is 7; LFO_AMOUNT_SEMI also selects pitch, destination 0. And the words of each. -/
def Obligations.LfoCommandsWriteTheirRegisters : Prop :=
  ∀ (s : State) (a : F32) (k : Int),
    exec (.lfoSet a) s = .next { s with par := { s.par with lfoRate := a } } ∧
    exec (.lfoAmount a) s = .next { s with par := { s.par with lfoAmount := a } } ∧
    exec (.lfoAmountSemi a) s = .next { s with par := { s.par with lfoAmount := a, lfoDest := .pitch } } ∧
    LfoDest.pitch.number = 0 ∧
    encode (.lfoSet a) = [0x00000116#32, a] ∧ encode (.lfoDest k) = [0x00000117#32, ofS32 k] ∧
    encode (.lfoAmount a) = [0x00000118#32, a] ∧ encode (.lfoAmountSemi a) = [0x00000119#32, a] ∧
    ∃ d : LfoDest, exec (.lfoDest k) s = .next { s with par := { s.par with lfoDest := d } } ∧
      (d.number : Int) = if k < 0 then 0 else if k > 7 then 7 else k

/-- R211: SET_ENV writes its four registers, sends `EnvSet` to the amplitude envelope of every allocated voice of an
initialized engine, in slot order, and changes nothing else. The model's choices: the command input port (log 1), the
request log (log 2), the numbering of creation draws (log 3). -/
def Obligations.SetEnvReachesEveryAllocatedVoice : Prop :=
  ∀ (s : State) (a d u r : F32), ∃ t, exec (.setEnv a d u r) s = .next t ∧
    t.par = { s.par with envA := a, envD := d, envS := u, envR := r } ∧
    (∀ i, i < NV → t.voice i =
      if s.eng.init = true ∧ i < s.eng.alloc then
        { s.voice i with aenv := (s.voice i).aenv.map fun e => Config.impl.envSet e a d u r }
      else s.voice i) ∧
    t.requests = s.requests ++ (if s.eng.init = true then
      (List.range s.eng.alloc).flatMap fun i => ((s.voice i).aenv.map fun e => Request.envSet e a d u r).toList else []) ∧
    t.eng = s.eng ∧ t.st = s.st ∧ t.dec = s.dec ∧ t.out = s.out ∧ t.input = s.input ∧ t.draws = s.draws

/-- R222: FILTER_ENV, likewise for the filter envelopes. The model's choices: the command input port (log 1), the request
log (log 2), the numbering of creation draws (log 3). -/
def Obligations.FilterEnvReachesEveryAllocatedVoice : Prop :=
  ∀ (s : State) (a d u r : F32), ∃ t, exec (.filterEnv a d u r) s = .next t ∧
    t.par = { s.par with fenvA := a, fenvD := d, fenvS := u, fenvR := r } ∧
    (∀ i, i < NV → t.voice i =
      if s.eng.init = true ∧ i < s.eng.alloc then
        { s.voice i with fenv := (s.voice i).fenv.map fun e => Config.impl.envSet e a d u r }
      else s.voice i) ∧
    t.requests = s.requests ++ (if s.eng.init = true then
      (List.range s.eng.alloc).flatMap fun i => ((s.voice i).fenv.map fun e => Request.envSet e a d u r).toList else []) ∧
    t.eng = s.eng ∧ t.st = s.st ∧ t.dec = s.dec ∧ t.out = s.out ∧ t.input = s.input ∧ t.draws = s.draws

/-- R225: on an uninitialized engine the voice commands and RENDER change nothing. -/
def Obligations.UninitializedVoiceCommandsDoNothing : Prop :=
  ∀ (s : State) (k : Int) (x : F32), s.eng.init = false →
    exec (.noteOn k x) s = .next s ∧ exec (.noteOffMidi k) s = .next s ∧ exec .noteOffAll s = .next s ∧
    exec (.setFreq x) s = .next s ∧ exec (.render k) s = .next s

/-- R137, R224, R225: on an uninitialized engine SET_POLY and the waveform commands write their register, clamped, and nothing
else. -/
def Obligations.UninitializedSettersOnlyWriteRegisters : Prop :=
  ∀ (s : State) (k : Int), s.eng.init = false →
    (∃ n : Nat, exec (.setPoly k) s = .next { s with par := { s.par with poly := n } } ∧
      (n : Int) = if k < 1 then 1 else if k > 16 then 16 else k) ∧
    (∃ w : Wave, exec (.setWave1 k) s = .next { s with par := { s.par with wave1 := w } } ∧
      exec (.setWave2 k) s = .next { s with par := { s.par with wave2 := w } } ∧
      exec (.setWave k) s = .next { s with par := { s.par with wave1 := w, wave2 := w } } ∧
      (w.number : Int) = if k < 0 then 0 else if k > 4 then 4 else k)

/-- A whole-machine rule from R35 and R240: the parameter registers are written by the setters alone; the lifecycle, voice and
render commands keep every one. -/
def Obligations.OnlySettersWriteParameters : Prop :=
  ∀ (s t : State) (k : Int) (x : F32),
    exec (.init x k) s = .next t ∨ exec .shutdown s = .next t ∨ exec (.noteOn k x) s = .next t ∨
      exec .noteOffAll s = .next t ∨ exec (.noteOffMidi k) s = .next t ∨ exec (.setFreq x) s = .next t ∨
      exec (.render k) s = .next t →
    t.par = s.par

/-! ## The voice pool -/

/-- R12: what the binary32 clamp gives: `lo` below, `hi` above, else the value; a NaN and −0.0 pass. -/
def Obligations.ClampConsequences : Prop :=
  ∀ x lo hi : F32,
    (flt x lo = true → clamp x lo hi = lo) ∧ (flt x lo = false → fgt x hi = true → clamp x lo hi = hi) ∧
    (flt x lo = false → fgt x hi = false → clamp x lo hi = x) ∧ (isNaN x = true → clamp x lo hi = x) ∧
    (fgt negZero hi = false → clamp negZero posZero hi = negZero)

/-- R12: a clamped value that is not a NaN lies between bounds that are in order. -/
def Obligations.ClampStaysInRange : Prop :=
  ∀ x lo hi : F32, isNaN x = false → fle lo hi = true →
    fle lo (clamp x lo hi) = true ∧ fle (clamp x lo hi) hi = true

/-- R130: the frequencies that `POW2_EXACT` fixes, for every configuration. -/
def Obligations.MidiToHzOctaves : Prop :=
  ∀ c : Config, midiToHz c 69 = 0x43DC0000#32 ∧ midiToHz c 81 = 0x445C0000#32 ∧ midiToHz c 57 = 0x435C0000#32

/-- R132, R134: with a free slot below the polyphony, NOTE_ON takes the lowest one, writes the fields of R134 and changes
nothing else of the block; `E.rr` is unchanged. The model's choices: the command input port (log 1), the request log (log
2), the numbering of creation draws (log 3). -/
def Obligations.NoteOnTakesFirstFreeSlot : Prop :=
  ∀ (s : State) (midi : Int) (velocity : F32) (i : Nat), s.eng.init = true → i < s.par.poly → i < NV →
    ((s.voice i).active = false ∧ fle (s.voice i).gate posZero = true) →
    (∀ j, j < i → ¬((s.voice j).active = false ∧ fle (s.voice j).gate posZero = true)) →
    ∃ t, exec (.noteOn midi velocity) s = .next t ∧
      t.voice i = { s.voice i with
        active := true, gate := one, midi := clampI midi 0 127
        baseFreq := midiToHz Config.impl (clampI midi 0 127), velocity := clamp velocity posZero one
        aenv := (s.voice i).aenv.map fun e => Config.impl.envSet e s.par.envA s.par.envD s.par.envS s.par.envR
        fenv := (s.voice i).fenv.map fun e => Config.impl.envSet e s.par.fenvA s.par.fenvD s.par.fenvS s.par.fenvR } ∧
      (∀ j, j ≠ i → t.voice j = s.voice j) ∧
      t.requests = s.requests ++ envSetRequest (s.par.adsr .amp) (s.voice i).aenv ++
        envSetRequest (s.par.adsr .filt) (s.voice i).fenv ∧
      t.eng = s.eng ∧ t.par = s.par ∧ t.st = s.st ∧ t.dec = s.dec ∧ t.out = s.out ∧ t.input = s.input ∧ t.draws = s.draws

/-- R132, R134, R139: with no free slot below the polyphony, NOTE_ON steals the round-robin victim, keeping its oscillator
and filter states, and moves the counter on. The model's choices: the command input port (log 1), the request log (log 2),
the numbering of creation draws (log 3). -/
def Obligations.NoteOnStealsRoundRobin : Prop :=
  ∀ (s : State) (midi : Int) (velocity : F32), s.eng.init = true → 1 ≤ s.par.poly → s.par.poly ≤ NV →
    (∀ j, j < s.par.poly → ¬((s.voice j).active = false ∧ fle (s.voice j).gate posZero = true)) →
    ∃ t, exec (.noteOn midi velocity) s = .next t ∧
      t.voice (s.eng.rr % s.par.poly) = { s.voice (s.eng.rr % s.par.poly) with
        active := true, gate := one, midi := clampI midi 0 127
        baseFreq := midiToHz Config.impl (clampI midi 0 127), velocity := clamp velocity posZero one
        aenv := (s.voice (s.eng.rr % s.par.poly)).aenv.map fun e =>
          Config.impl.envSet e s.par.envA s.par.envD s.par.envS s.par.envR
        fenv := (s.voice (s.eng.rr % s.par.poly)).fenv.map fun e =>
          Config.impl.envSet e s.par.fenvA s.par.fenvD s.par.fenvS s.par.fenvR } ∧
      (∀ j, j ≠ s.eng.rr % s.par.poly → t.voice j = s.voice j) ∧
      t.requests = s.requests ++ envSetRequest (s.par.adsr .amp) (s.voice (s.eng.rr % s.par.poly)).aenv ++
        envSetRequest (s.par.adsr .filt) (s.voice (s.eng.rr % s.par.poly)).fenv ∧
      t.eng = { s.eng with rr := (s.eng.rr % s.par.poly + 1) % s.par.poly } ∧
      t.par = s.par ∧ t.st = s.st ∧ t.dec = s.dec ∧ t.out = s.out ∧ t.input = s.input ∧ t.draws = s.draws

/-- R135: NOTE_OFF_MIDI clears the gate of every active considered voice that holds the clamped note, and changes nothing
else. The model's choices: the command input port (log 1), the request log (log 2), the numbering of creation draws (log 3).
-/
def Obligations.NoteOffMidiReleasesMatchingVoices : Prop :=
  ∀ (s : State) (midi : Int), s.eng.init = true → ∃ t, exec (.noteOffMidi midi) s = .next t ∧
    (∀ i, i < NV → t.voice i =
      if i < s.par.poly ∧ (s.voice i).active = true ∧ (s.voice i).midi = clampI midi 0 127 then
        { s.voice i with gate := posZero } else s.voice i) ∧
    t.eng = s.eng ∧ t.par = s.par ∧ t.st = s.st ∧ t.dec = s.dec ∧ t.out = s.out ∧ t.input = s.input ∧
    t.requests = s.requests ∧ t.draws = s.draws

/-- R136: NOTE_OFF_ALL clears the gate of every active considered voice, and changes nothing else. The model's choices: the
command input port (log 1), the request log (log 2), the numbering of creation draws (log 3). -/
def Obligations.NoteOffAllReleasesActiveVoices : Prop :=
  ∀ s : State, s.eng.init = true → ∃ t, exec .noteOffAll s = .next t ∧
    (∀ i, i < NV → t.voice i =
      if i < s.par.poly ∧ (s.voice i).active = true then { s.voice i with gate := posZero } else s.voice i) ∧
    t.eng = s.eng ∧ t.par = s.par ∧ t.st = s.st ∧ t.dec = s.dec ∧ t.out = s.out ∧ t.input = s.input ∧
    t.requests = s.requests ∧ t.draws = s.draws

/-- R138: SET_FREQ writes the base frequency of every allocated voice, unclamped, and changes nothing else. The model's
choices: the command input port (log 1), the request log (log 2), the numbering of creation draws (log 3). -/
def Obligations.SetFreqRetunesAllocatedVoices : Prop :=
  ∀ (s : State) (freq : F32), s.eng.init = true → ∃ t, exec (.setFreq freq) s = .next t ∧
    (∀ i, i < NV → t.voice i = if i < s.eng.alloc then { s.voice i with baseFreq := freq } else s.voice i) ∧
    t.eng = s.eng ∧ t.par = s.par ∧ t.st = s.st ∧ t.dec = s.dec ∧ t.out = s.out ∧ t.input = s.input ∧
    t.requests = s.requests ∧ t.draws = s.draws

/-- R137: SET_POLY on an initialized engine writes the clamped polyphony. Either the allocated set grows to it, and never
shrinks, with the voices it had unchanged and the new ones idle; or a creation can fail, the engine is torn down and FATAL is
recorded. Then it is the fatal path from the state `u` where Ensure failed, which still holds every unit and table held before
and, where the engine had its tables, the five units of every slot completed since. The model's choices: the command input port
(log 1), the numbering of creation draws (log 3), that it is open whether a Fatal puts the polyphony back (log 24). -/
def Obligations.SetPolyGrowsOrIsFatal : Prop :=
  ∀ (s : State) (k : Int), s.eng.init = true → ∃ (n : Nat) (t : State), exec (.setPoly k) s = .next t ∧
    (n : Int) = (if k < 1 then 1 else if k > 16 then 16 else k) ∧ t.dec = s.dec ∧ t.out = s.out ∧ t.input = s.input ∧
    ((t.par = { s.par with poly := n } ∧ t.eng = { s.eng with alloc := max s.eng.alloc n } ∧ t.st = s.st ∧
        (∀ i, i < NV → i < s.eng.alloc ∨ n ≤ i → t.voice i = s.voice i) ∧
        (∀ i, s.eng.alloc ≤ i → i < n → (t.voice i).Idle)) ∨
      (¬CreationsSucceed Config.impl s.draws ∧ t.eng = s.eng.torn ∧ t.st = s.st.fatalError 0x10#8 ∧
        (∀ i, i < NV → t.voice i = (s.voice i).torn) ∧
        t.par = (if Config.impl.fatalRestores then s.par else { s.par with poly := n }) ∧
        ∃ u, ensure Config.impl n { s with par := { s.par with poly := n } } = .fail u ∧
          t = fatalFrom Config.impl 0x10#8 s u ∧ u.eng = { s.eng with alloc := u.eng.alloc } ∧ s.eng.alloc ≤ u.eng.alloc ∧
          (∀ i, i < s.eng.alloc → u.voice i = s.voice i) ∧
          ∀ i, s.eng.alloc ≤ i → i < u.eng.alloc → i < NV →
            (u.voice i).aenv.isSome = true ∧ (u.voice i).fenv.isSome = true ∧ (u.voice i).filt.isSome = true ∧
            (s.eng.Equipped → (u.voice i).osc1.isSome = true ∧ (u.voice i).osc2.isSome = true)))

/-- R131: when no creation fails, Ensure gives every new slot its five units: each oscillator of its slot's kind on its
table, each envelope with the current parameters, and the filter at the engine's rate. It makes seven requests a slot, in the
order of CreateVoiceUnits, and changes nothing else. The model's choices: the request log (log 2), the numbering of creation draws
(log 3). -/
def Obligations.EnsureBuildsNewSlots : Prop :=
  ∀ (c : Config) (s : State) (n : Nat) (sine tbl1 tbl2 : TableRef), n ≤ NV → CreationsSucceed c s.draws →
    s.eng.sine = some sine → s.eng.tbl1 = some tbl1 → s.eng.tbl2 = some tbl2 →
    ∃ t, ensure c n s = .ok t ∧ t.eng = { s.eng with alloc := max s.eng.alloc n } ∧ t.par = s.par ∧ t.st = s.st ∧
      t.dec = s.dec ∧ t.out = s.out ∧ t.input = s.input ∧ t.draws = s.draws + 5 * (n - s.eng.alloc) ∧
      t.requests = s.requests ++ (List.replicate (n - s.eng.alloc)
        [if s.par.wave1 = .fm then .oscNew .fm sine else .oscNew .wt tbl1,
          if s.par.wave2 = .fm then .oscNew .fm sine else .oscNew .wt tbl2,
          .envNew, .envSet c.envNew s.par.envA s.par.envD s.par.envS s.par.envR,
          .envNew, .envSet c.envNew s.par.fenvA s.par.fenvD s.par.fenvS s.par.fenvR,
          .filtNew s.eng.sampleRate]).flatten ∧
      (∀ i, i < s.eng.alloc ∨ n ≤ i → t.voice i = s.voice i) ∧
      (∀ i, s.eng.alloc ≤ i → i < n → t.voice i =
        { active := false, gate := posZero, midi := -1, baseFreq := (s.voice i).baseFreq, velocity := posZero
          osc1 := some (if s.par.wave1 = .fm then ⟨.fm, c.oscNew .fm sine⟩ else ⟨.wt, c.oscNew .wt tbl1⟩)
          osc2 := some (if s.par.wave2 = .fm then ⟨.fm, c.oscNew .fm sine⟩ else ⟨.wt, c.oscNew .wt tbl2⟩)
          aenv := some (c.envSet c.envNew s.par.envA s.par.envD s.par.envS s.par.envR)
          fenv := some (c.envSet c.envNew s.par.fenvA s.par.fenvD s.par.fenvS s.par.fenvR)
          filt := some (c.filtNew s.eng.sampleRate) })

/-! ## Waveforms -/

/-- R212, R213, R224: SET_WAVE1 and SET_WAVE2 on an initialized engine write the clamped type. Either every allocated
voice's unit of that slot is recreated with the type's kind and no other voice field changes, or a creation can fail, the engine
is torn down and FATAL is recorded. Then it is the fatal path from the state `u` where the recreation failed, which still holds
every table and every unit but the slot's. The model's choices: the command input port (log 1), the numbering of creation draws
(log 3), that it is open whether a Fatal puts the type back (log 24). -/
def Obligations.SetWaveRecreatesOscillators : Prop :=
  ∀ (s : State) (k : Int), Inv s → s.eng.init = true → ∃ (w : Wave) (t1 t2 : State),
    (w.number : Int) = (if k < 0 then 0 else if k > 4 then 4 else k) ∧
    exec (.setWave1 k) s = .next t1 ∧ t1.dec = s.dec ∧ t1.out = s.out ∧ t1.input = s.input ∧
    exec (.setWave2 k) s = .next t2 ∧ t2.dec = s.dec ∧ t2.out = s.out ∧ t2.input = s.input ∧
    ((t1.par = { s.par with wave1 := w } ∧ t1.st = s.st ∧ t1.eng = { s.eng with tbl1 := t1.eng.tbl1 } ∧ (w = .fm → t1.eng.tbl1 = s.eng.tbl1) ∧
        (t1.eng.tbl1.map TableRef.ref = s.eng.tbl1.map TableRef.ref) ∧
        ∀ i, i < NV → t1.voice i = { s.voice i with osc1 := (t1.voice i).osc1 } ∧
          (i < s.eng.alloc → (t1.voice i).osc1.map OscState.kind = some (if w = .fm then .fm else .wt)) ∧
          (s.eng.alloc ≤ i → t1.voice i = s.voice i)) ∨
      (¬CreationsSucceed Config.impl s.draws ∧ t1.eng = s.eng.torn ∧ t1.st = s.st.fatalError 0x10#8 ∧
        (∀ i, i < NV → t1.voice i = (s.voice i).torn) ∧
        t1.par = (if Config.impl.fatalRestores then s.par else { s.par with wave1 := w }) ∧
        ∃ u, setWave Config.impl .one k s = .fail u ∧ t1 = fatalFrom Config.impl 0x10#8 s u ∧
          u.eng = { s.eng with tbl1 := u.eng.tbl1 } ∧
          u.eng.tbl1.map TableRef.ref = s.eng.tbl1.map TableRef.ref ∧
          ∀ i, i < NV → u.voice i = { s.voice i with osc1 := (u.voice i).osc1 })) ∧
    ((t2.par = { s.par with wave2 := w } ∧ t2.st = s.st ∧ t2.eng = { s.eng with tbl2 := t2.eng.tbl2 } ∧ (w = .fm → t2.eng.tbl2 = s.eng.tbl2) ∧
        (t2.eng.tbl2.map TableRef.ref = s.eng.tbl2.map TableRef.ref) ∧
        ∀ i, i < NV → t2.voice i = { s.voice i with osc2 := (t2.voice i).osc2 } ∧
          (i < s.eng.alloc → (t2.voice i).osc2.map OscState.kind = some (if w = .fm then .fm else .wt)) ∧
          (s.eng.alloc ≤ i → t2.voice i = s.voice i)) ∨
      (¬CreationsSucceed Config.impl s.draws ∧ t2.eng = s.eng.torn ∧ t2.st = s.st.fatalError 0x10#8 ∧
        (∀ i, i < NV → t2.voice i = (s.voice i).torn) ∧
        t2.par = (if Config.impl.fatalRestores then s.par else { s.par with wave2 := w }) ∧
        ∃ u, setWave Config.impl .two k s = .fail u ∧ t2 = fatalFrom Config.impl 0x10#8 s u ∧
          u.eng = { s.eng with tbl2 := u.eng.tbl2 } ∧
          u.eng.tbl2.map TableRef.ref = s.eng.tbl2.map TableRef.ref ∧
          ∀ i, i < NV → u.voice i = { s.voice i with osc2 := (u.voice i).osc2 }))

/-- R224: when no creation fails, SetWave on either slot rebuilds the slot's table in place for a type 0..3 and gives every
allocated voice a new unit on it; for FM the unit is on the sine table and the slot's table is left as it was. The requests are
the rebuild, if any, and then for each allocated voice in slot order the Release of the unit it held and the creation of the new
one. The model's choices: the request log (log 2), the numbering of creation draws (log 3). -/
def Obligations.SetWaveWithoutFailure : Prop :=
  ∀ (c : Config) (slot : OscSlot) (s : State) (k : Int) (sine tbl : TableRef), s.eng.init = true → s.eng.alloc ≤ NV →
    CreationsSucceed c s.draws → s.eng.sine = some sine → s.eng.tbl slot = some tbl →
    ∃ t, setWave c slot k s = .ok t ∧ t.draws = s.draws + s.eng.alloc ∧
      (k ≥ 4 → t.eng = s.eng ∧
        t.requests = s.requests ++ ((List.range s.eng.alloc).flatMap fun i =>
          (((s.voice i).osc slot).map Request.releaseOsc).toList ++ [.oscNew .fm sine]) ∧
        ∀ i, i < s.eng.alloc → t.voice i = (s.voice i).setOsc slot (some ⟨.fm, c.oscNew .fm sine⟩)) ∧
      (k ≤ 3 → ∃ shape : Shape, waveOperand k = (match shape with
            | .sine => .sine | .saw => .saw | .square => .square | .triangle => .triangle) ∧
          t.eng = s.eng.setTbl slot (some { tbl with contents := c.tblRebuild tbl shape }) ∧
          t.requests = s.requests ++ [.tblRebuild tbl shape] ++ ((List.range s.eng.alloc).flatMap fun i =>
            (((s.voice i).osc slot).map Request.releaseOsc).toList ++
              [.oscNew .wt { tbl with contents := c.tblRebuild tbl shape }]) ∧
          ∀ i, i < s.eng.alloc → t.voice i =
            (s.voice i).setOsc slot (some ⟨.wt, c.oscNew .wt { tbl with contents := c.tblRebuild tbl shape }⟩)) ∧
      (∀ i, i < NV → s.eng.alloc ≤ i → t.voice i = s.voice i)

/-- R214: SET_WAVE is SET_WAVE1 and then SET_WAVE2; if the first raised Fatal, slot 2 is not reached. A Fatal of the second is
SET_WAVE's own: the state before the command is the one before SET_WAVE. The model's choice: that it is open whether a Fatal puts
back what its command wrote (log 24). -/
def Obligations.SetWaveIsBothSlots : Prop :=
  ∀ (s : State) (k : Int),
    (∃ t u, setWave Config.impl .one k s = .ok t ∧ exec (.setWave1 k) s = .next t ∧
      setWave Config.impl .two k t = .ok u ∧ exec (.setWave2 k) t = .next u ∧ exec (.setWave k) s = .next u) ∨
    (∃ t u, setWave Config.impl .one k s = .ok t ∧ exec (.setWave1 k) s = .next t ∧
      setWave Config.impl .two k t = .fail u ∧ exec (.setWave2 k) t = .next (fatalFrom Config.impl 0x10#8 t u) ∧
      exec (.setWave k) s = .next (fatalFrom Config.impl 0x10#8 s u) ∧
      (Config.impl.fatalRestores = false → exec (.setWave k) s = exec (.setWave2 k) t)) ∨
    (∃ t, setWave Config.impl .one k s = .fail t ∧ exec (.setWave1 k) s = .next (fatalFrom Config.impl 0x10#8 s t) ∧
      exec (.setWave k) s = .next (fatalFrom Config.impl 0x10#8 s t))

/-! ## The lifecycle -/

/-- R240: INIT answers either a running engine, with the rate, the table size, `E.rr` 0, `P.poly` slots and every voice
idle, and STATUS's stored fields as they were; or, where a creation can fail, an engine that holds nothing, with FATAL
recorded. Then it is the fatal path from the state `u` where the creation failed. The model's choices: the command input port
(log 1), the numbering of creation draws (log 3), that it is open whether a fatal INIT puts the rate, the table size and `E.rr`
back (log 24). -/
def Obligations.InitRunsOrIsFatal : Prop :=
  ∀ (s : State) (rate : F32) (size : Int), Inv s → fitsI32 size = true → ∃ t, exec (.init rate size) s = .next t ∧
    t.par = s.par ∧ t.dec = s.dec ∧ t.out = s.out ∧ t.input = s.input ∧
    (∀ i, i < NV → (t.voice i).Idle ∧ (t.voice i).baseFreq = (s.voice i).baseFreq) ∧
    ((t.eng.rr = 0 ∧ t.eng.sampleRate = rate ∧ (t.eng.tableSize.toNat : Int) = (if size < 64 then 2048 else size) ∧
        t.eng.init = true ∧ t.eng.alloc = s.par.poly ∧ t.eng.Equipped ∧ t.st = s.st ∧
        (∀ i, i < NV → (i < s.par.poly → (t.voice i).Equipped s.par) ∧ (s.par.poly ≤ i → (t.voice i).Unitless))) ∨
      (¬CreationsSucceed Config.impl s.draws ∧ t.eng.init = false ∧ t.eng.Bare ∧ t.st = s.st.fatalError 0x10#8 ∧
        (∀ i, i < NV → t.voice i = (s.voice i).torn) ∧
        (if Config.impl.fatalRestores then
            t.eng.rr = s.eng.rr ∧ t.eng.sampleRate = s.eng.sampleRate ∧ t.eng.tableSize = s.eng.tableSize
          else
            t.eng.rr = 0 ∧ t.eng.sampleRate = rate ∧
              (t.eng.tableSize.toNat : Int) = if size < 64 then 2048 else size) ∧
        ∃ u, (initTables Config.impl (initBegin rate size s)).andThen (initFinish Config.impl) = .fail u ∧
          t = fatalFrom Config.impl 0x10#8 s u))

/-- R240: when no creation fails, INIT ends with the engine initialized, its three tables built in order with the shapes of
the waveform registers, its LFO a wavetable unit on the sine table, and `P.poly` slots allocated. Its requests are those of a
SHUTDOWN, the three tables and the LFO, and seven for each slot. The model's choices: the command input port (log 1), the request
log (log 2), the numbering of creation draws (log 3). -/
def Obligations.InitSucceedsWithoutFailure : Prop :=
  ∀ (c : Config) (s down : State) (rate : F32) (size : Int), Inv s → CreationsSucceed c s.draws →
    exec .shutdown s = .next down →
    let n := tableSizeOperand size
    let sine := c.tblBuild s.draws n .sine
    let tbl1 := c.tblBuild (s.draws + 1) n s.par.wave1.shapeAtInit
    let tbl2 := c.tblBuild (s.draws + 2) n s.par.wave2.shapeAtInit
    let t := initEngine c rate size s
    t.eng = { init := true, sampleRate := rate, tableSize := n, alloc := s.par.poly, rr := 0
              lfo := some ⟨.wt, c.oscNew .wt sine⟩, sine := some sine, tbl1 := some tbl1, tbl2 := some tbl2 } ∧
    t.requests = down.requests ++
      [.tblBuild n .sine, .tblBuild n s.par.wave1.shapeAtInit, .tblBuild n s.par.wave2.shapeAtInit, .oscNew .wt sine] ++
      (List.replicate s.par.poly
        [if s.par.wave1 = .fm then .oscNew .fm sine else .oscNew .wt tbl1,
          if s.par.wave2 = .fm then .oscNew .fm sine else .oscNew .wt tbl2,
          .envNew, .envSet c.envNew s.par.envA s.par.envD s.par.envS s.par.envR,
          .envNew, .envSet c.envNew s.par.fenvA s.par.fenvD s.par.fenvS s.par.fenvR,
          .filtNew rate]).flatten ∧
    t.draws = s.draws + 4 + 5 * s.par.poly ∧
    t.par = s.par ∧ t.st = s.st ∧ t.dec = s.dec ∧ t.out = s.out ∧ t.input = s.input

/-- R240, R263, R264: when one of INIT's first four creations, the three tables and the LFO, is the first to fail, INIT asks
no more, releases what it has built so far, and leaves the state a SHUTDOWN leaves, with FATAL and the first code. By R266's
sentence that is all; by R263's pseudocode the rate, the table size and the steal counter are the new ones. The model's choices:
the command input port (log 1), the request log (log 2), the numbering of creation draws (log 3), that it is open which of the two
holds (log 24). -/
def Obligations.InitFailingAtOnceIsFatal : Prop :=
  ∀ (c : Config) (s down : State) (rate : F32) (size : Int), Inv s → exec .shutdown s = .next down →
    let n := tableSizeOperand size
    let sine := c.tblBuild s.draws n .sine
    let tbl1 := c.tblBuild (s.draws + 1) n s.par.wave1.shapeAtInit
    let tbl2 := c.tblBuild (s.draws + 2) n s.par.wave2.shapeAtInit
    let ask0 := Request.tblBuild n .sine
    let ask1 := Request.tblBuild n s.par.wave1.shapeAtInit
    let ask2 := Request.tblBuild n s.par.wave2.shapeAtInit
    let ask3 := Request.oscNew .wt sine
    let fails := fun j r => c.createFails (s.draws + j) r = true
    let ends := fun (m : Nat) (rs : List Request) => initEngine c rate size s =
      { down with
        eng := if c.fatalRestores then down.eng else { down.eng with sampleRate := rate, tableSize := n, rr := 0 }
        st := { errCmd := s.st.errCmd, fatal := true, errCode := if s.st.errCode = 0 then 0x10#8 else s.st.errCode }
        requests := down.requests ++ rs
        draws := s.draws + m }
    (fails 0 ask0 → ends 1 [ask0]) ∧
    (¬fails 0 ask0 → fails 1 ask1 → ends 2 [ask0, ask1, .releaseTbl sine]) ∧
    (¬fails 0 ask0 → ¬fails 1 ask1 → fails 2 ask2 → ends 3 [ask0, ask1, ask2, .releaseTbl tbl1, .releaseTbl sine]) ∧
    (¬fails 0 ask0 → ¬fails 1 ask1 → ¬fails 2 ask2 → fails 3 ask3 →
      ends 4 [ask0, ask1, ask2, ask3, .releaseTbl tbl1, .releaseTbl tbl2, .releaseTbl sine])

/-- R241, R242, R263: SHUTDOWN releases every unit and table held, in the order of R242: of each voice in slot order osc1, osc2,
aenv, fenv, filt, then the LFO, then tbl1, tbl2 and sine. It makes every voice idle with its base frequency kept, and leaves the
engine uninitialized with `E.rr`, the rate, the table size and every parameter kept. The fatal path from a state does the same
and records FATAL and the first code; as the end of a command it also puts back the parameters, the rate, the table size and
`E.rr` of the state before the command, where R266's sentence holds. The model's choices: the command input port (log 1), the
request log (log 2), the numbering of creation draws (log 3), that it is open whether R266's sentence holds (log 24). -/
def Obligations.ShutdownReleasesEverything : Prop :=
  ∀ s : State, ∃ t, exec .shutdown s = .next t ∧
    t.eng = { s.eng with init := false, alloc := 0, lfo := none, sine := none, tbl1 := none, tbl2 := none } ∧
    (∀ i, i < NV → t.voice i =
      { active := false, gate := posZero, midi := -1, baseFreq := (s.voice i).baseFreq, velocity := posZero
        osc1 := none, osc2 := none, aenv := none, fenv := none, filt := none }) ∧
    t.requests = s.requests ++
      ((List.range NV).flatMap fun i =>
        ((s.voice i).osc1.map Request.releaseOsc).toList ++ ((s.voice i).osc2.map Request.releaseOsc).toList ++
          ((s.voice i).aenv.map Request.releaseEnv).toList ++ ((s.voice i).fenv.map Request.releaseEnv).toList ++
          ((s.voice i).filt.map Request.releaseFilt).toList) ++
      (s.eng.lfo.map Request.releaseOsc).toList ++ (s.eng.tbl1.map Request.releaseTbl).toList ++
      (s.eng.tbl2.map Request.releaseTbl).toList ++ (s.eng.sine.map Request.releaseTbl).toList ∧
    t.par = s.par ∧ t.st = s.st ∧ t.dec = s.dec ∧ t.out = s.out ∧ t.input = s.input ∧ t.draws = s.draws ∧
    ∀ (c : Config) (before : State) (code : BitVec 8),
      let dead := { t with st := { errCmd := s.st.errCmd, fatal := true,
                                   errCode := if s.st.errCode = 0 then code else s.st.errCode } }
      fatal code s = dead ∧
      fatalFrom c code before s =
        if c.fatalRestores then
          { dead with
            par := before.par
            eng := { t.eng with
              sampleRate := before.eng.sampleRate, tableSize := before.eng.tableSize, rr := before.eng.rr } }
        else dead

/-- R241: a second SHUTDOWN in a row releases nothing and changes no state. -/
def Obligations.ShutdownIsIdempotent : Prop :=
  ∀ s t : State, exec .shutdown s = .next t → exec .shutdown t = .next t

/-- R32: `E.init` is written by INIT, SHUTDOWN and the fatal path alone: any other command keeps it, but for the fatal path of
SET_POLY and the waveform commands, which clears it and records FATAL with the first code, where a creation can fail. The model's
choice: the numbering of creation draws (log 3). -/
def Obligations.OnlyLifecycleWritesInit : Prop :=
  ∀ (i : Instr) (s t : State), exec i s = .next t → (∀ r n, i ≠ .init r n) → i ≠ .shutdown →
    t.eng.init = s.eng.init ∨
    (((∃ n, i = .setPoly n) ∨ (∃ n, i = .setWave n) ∨ (∃ n, i = .setWave1 n) ∨ (∃ n, i = .setWave2 n)) ∧
      ¬CreationsSucceed Config.impl s.draws ∧ t.eng.init = false ∧
      t.st = { errCmd := s.st.errCmd, fatal := true, errCode := if s.st.errCode = 0 then 0x10#8 else s.st.errCode })

/-! ## The router -/

/-- R160, R167: the selected destination alone is fed, with `lv × amount`; every other offset is +0.0, and the pitch multiplier
is 1.0 unless pitch is selected. -/
def Obligations.RouteFeedsOneDestination : Prop :=
  ∀ (c : Config) (p : Params) (lv : F32),
    let v := fmul c lv p.lfoAmount
    let none := { pitchMul := one, cutoff := posZero, amp := posZero, res := posZero, gain1 := posZero, gain2 := posZero,
                  fm1 := posZero, fm2 := posZero : Route }
    (p.lfoDest.number = 0 → route c p lv = { none with pitchMul := pow2 c (fdiv c v SEMIS) }) ∧
    (p.lfoDest.number = 1 → route c p lv = { none with cutoff := v }) ∧
    (p.lfoDest.number = 2 → route c p lv = { none with amp := v }) ∧
    (p.lfoDest.number = 3 → route c p lv = { none with res := v }) ∧
    (p.lfoDest.number = 4 → route c p lv = { none with gain1 := v }) ∧
    (p.lfoDest.number = 5 → route c p lv = { none with gain2 := v }) ∧
    (p.lfoDest.number = 6 → route c p lv = { none with fm1 := v }) ∧
    (p.lfoDest.number = 7 → route c p lv = { none with fm2 := v })

/-- R161, by RENDER 1: the frame's first request is the LFO's step at `P.lfoRate`, the LFO is replaced by its next state, and no
other engine register changes, whether or not a voice is eligible. The request log is the model's (log 2). -/
def Obligations.LfoStepsOncePerFrame : Prop :=
  ∀ (s : State) (o : OscState), s.eng.init = true → s.eng.lfo = some o → ∃ (t : State) (later : List Request),
    exec (.render 1) s = .next t ∧ t.requests = s.requests ++ .oscStep o s.par.lfoRate :: later ∧
    t.eng = { s.eng with lfo := some { o with code := (Config.impl.oscStep o s.par.lfoRate).2 } }

/-! ## The signal chain and the mixer -/

/-- R183 to R185: the chain of a voice that holds its envelopes and its filter, from the two slots' samples: slot mix,
filter, amplitude, the units afterwards, and the requests in the order of R182 to R185. The model's choice: the request log
(log 2). -/
def Obligations.VoiceChainFormulas : Prop :=
  ∀ (c : Config) (p : Params) (sr : F32) (r : Route) (v : Voice) (fe ae : EnvState) (fl : FiltState),
    v.fenv = some fe → v.aenv = some ae → v.filt = some fl →
    let o1 := stepSlot c p r v .one
    let o2 := stepSlot c p r v .two
    let s := fadd c (fmul c o1.1 (clamp (fadd c p.gain1 r.gain1) posZero two))
      (fmul c o2.1 (clamp (fadd c p.gain2 r.gain2) posZero two))
    let hi := fsub c (fdiv c sr two) CUTOFF_MARGIN
    let fc := clamp (fadd c (fadd c p.cutoff (fmul c p.fenvAmount (c.envStep fe v.gate).1)) r.cutoff) CUTOFF_MIN hi
    let q := clamp (fadd c p.res r.res) posZero one
    let y := (c.filtStep fl s fc q).1
    let a := clamp (fadd c p.masterAmp r.amp) posZero two
    (voiceChain c p sr r v).contribution = fmul c (fmul c (fmul c y (c.envStep ae v.gate).1) v.velocity) a ∧
    (voiceChain c p sr r v).ae = (c.envStep ae v.gate).1 ∧
    (voiceChain c p sr r v).voice = { v with
      osc1 := o1.2.1, osc2 := o2.2.1
      fenv := some (c.envStep fe v.gate).2, filt := some (c.filtStep fl s fc q).2, aenv := some (c.envStep ae v.gate).2 } ∧
    (voiceChain c p sr r v).requests =
      o1.2.2 ++ o2.2.2 ++ [.envStep fe v.gate, .filtStep fl s fc q, .envStep ae v.gate]

/-- R182: the two oscillator slots. A wavetable unit is stepped at the playback frequency; an FM unit at the same frequency, with
its slot's ratios and its index offset by the route. The answers are the sample, the unit afterwards and the request made. -/
def Obligations.OscillatorSlotFormulas : Prop :=
  ∀ (c : Config) (p : Params) (r : Route) (v : Voice) (o : OscState),
    let f1 := fmul c (fmul c v.baseFreq r.pitchMul) (pow2 c (fdiv c p.detune1 SEMIS))
    let f2 := fmul c (fmul c v.baseFreq r.pitchMul) (pow2 c (fdiv c p.detune2 SEMIS))
    let x1 := fadd c p.fm1Index r.fm1
    let x2 := fadd c p.fm2Index r.fm2
    (v.osc1 = some o → o.kind = .wt → stepSlot c p r v .one =
      ((c.oscStep o f1).1, some { o with code := (c.oscStep o f1).2 }, [.oscStep o f1])) ∧
    (v.osc1 = some o → o.kind = .fm → stepSlot c p r v .one =
      ((c.fmStep o f1 p.fm1Carrier p.fm1Mod x1).1, some { o with code := (c.fmStep o f1 p.fm1Carrier p.fm1Mod x1).2 },
        [.fmStep o f1 p.fm1Carrier p.fm1Mod x1])) ∧
    (v.osc2 = some o → o.kind = .wt → stepSlot c p r v .two =
      ((c.oscStep o f2).1, some { o with code := (c.oscStep o f2).2 }, [.oscStep o f2])) ∧
    (v.osc2 = some o → o.kind = .fm → stepSlot c p r v .two =
      ((c.fmStep o f2 p.fm2Carrier p.fm2Mod x2).1, some { o with code := (c.fmStep o f2 p.fm2Carrier p.fm2Mod x2).2 },
        [.fmStep o f2 p.fm2Carrier p.fm2Mod x2]))

/-- R180, R181, R186, R187: RENDER 1 emits one word, the contributions of the eligible considered voices added in ascending
slot order from +0.0; each such voice has its units advanced and the release check made; every other voice is untouched. The
model's choices: the request log (log 2), a step of an absent unit (log 13). -/
def Obligations.RenderOneFrame : Prop :=
  ∀ s : State, s.eng.init = true → s.par.poly ≤ NV →
    let lv := (stepOsc Config.impl s.eng.lfo s.par.lfoRate).1
    let r := route Config.impl s.par lv
    let chain := fun i => voiceChain Config.impl s.par s.eng.sampleRate r (s.voice i)
    let sounds := fun i => (s.voice i).active = true ∨ fgt (s.voice i).gate posZero = true
    ∃ t, exec (.render 1) s = .next t ∧
      (∃ mix : Nat → F32, mix 0 = posZero ∧
        (∀ i, i < s.par.poly → (sounds i → mix (i + 1) = fadd Config.impl (mix i) (chain i).contribution) ∧
          (¬sounds i → mix (i + 1) = mix i)) ∧
        t.out = s.out ++ [mix s.par.poly]) ∧
      t.requests = s.requests ++ (stepOsc Config.impl s.eng.lfo s.par.lfoRate).2.2 ++
        (List.range s.par.poly).flatMap (fun i => if (s.voice i).eligible then (chain i).requests else []) ∧
      (∀ i, i < s.par.poly → sounds i → t.voice i = (chain i).voice.releaseIfSilent (chain i).ae) ∧
      (∀ i, i < NV → s.par.poly ≤ i ∨ ¬sounds i → t.voice i = s.voice i)

/-- R133: what the release check does to a voice. -/
def Obligations.ReleaseIfSilentRule : Prop :=
  ∀ (v : Voice) (ae : F32),
    (fle v.gate posZero = true ∧ flt ae 0x38D1B717#32 = true →
      v.releaseIfSilent ae = { v with active := false, midi := -1, velocity := posZero }) ∧
    (¬(fle v.gate posZero = true ∧ flt ae 0x38D1B717#32 = true) → v.releaseIfSilent ae = v) ∧
    (isNaN ae = true → v.releaseIfSilent ae = v)

/-- R187, R188: with no eligible considered voice, RENDER emits +0.0 once for each frame and changes no voice. -/
def Obligations.RenderOfSilenceEmitsZeros : Prop :=
  ∀ (s : State) (n : Int), s.eng.init = true →
    (∀ i, i < s.par.poly → (s.voice i).active = false ∧ fgt (s.voice i).gate posZero = false) →
    ∃ t, exec (.render n) s = .next t ∧ t.out = s.out ++ List.replicate n.toNat posZero ∧ t.voices = s.voices

/-- R98, R188: RENDER on an initialized engine emits exactly max(frameCount, 0) words after those already emitted, and
changes only the voices, the LFO, the output and the request log. The model's choices: the command input port (log 1), the
numbering of creation draws (log 3). -/
def Obligations.RenderEmitsFrameCountWords : Prop :=
  ∀ (s : State) (n : Int), s.eng.init = true → ∃ (t : State) (ws : List Word), exec (.render n) s = .next t ∧
    t.out = s.out ++ ws ∧ (ws.length : Int) = max n 0 ∧ t.eng = { s.eng with lfo := t.eng.lfo } ∧
    t.par = s.par ∧ t.st = s.st ∧ t.dec = s.dec ∧ t.input = s.input ∧ t.draws = s.draws

/-- R76, R294: rendering a + b frames is rendering a and then b. -/
def Obligations.RenderSplits : Prop :=
  ∀ (s : State) (a b : Int), 0 ≤ a → 0 ≤ b → ∃ m t : State, exec (.render a) s = .next m ∧ exec (.render b) m = .next t ∧
    exec (.render (a + b)) s = .next t

/-- R34, R295: voices at slots at or above the polyphony keep every field through NOTE_ON, NOTE_OFF_MIDI, NOTE_OFF_ALL and
RENDER. -/
def Obligations.SlotsAbovePolyphonyAreFrozen : Prop :=
  ∀ (s t : State) (k : Int) (x : F32) (j : Nat), 1 ≤ s.par.poly → s.par.poly ≤ j →
    (exec (.noteOn k x) s = .next t ∨ exec (.noteOffMidi k) s = .next t ∨ exec .noteOffAll s = .next t ∨
      exec (.render k) s = .next t) →
    t.voice j = s.voice j

/-! ## Whole-machine rules -/

/-- R46: only RENDER appends to the output stream, and nothing removes a word. -/
def Obligations.OnlyRenderEmits : Prop :=
  ∀ (i : Instr) (s t : State), exec i s = .next t →
    (∃ ws, t.out = s.out ++ ws) ∧ ((∀ n, i ≠ .render n) → t.out = s.out)

/-- R41: only NOTE_ON makes a voice active, and no other command changes the note an active voice holds. -/
def Obligations.OnlyNoteOnActivates : Prop :=
  ∀ (i : Instr) (s t : State) (j : Nat), exec i s = .next t → (∀ m v, i ≠ .noteOn m v) → j < NV →
    (t.voice j).active = true →
    (s.voice j).active = true ∧ (t.voice j).midi = (s.voice j).midi ∧ (t.voice j).velocity = (s.voice j).velocity

/-! ## Binary32 arithmetic -/

/-- R13, `POW2_EXACT`: for every configuration and every integer k with −126 ≤ k ≤ 127, `POW2(i2f(k))` is 2^k exactly. -/
def Obligations.Pow2Exact : Prop :=
  ∀ (c : Config) (k : Int), -126 ≤ k → k ≤ 127 →
    signBit (pow2 c (i2f k)) = false ∧ isNaN (pow2 c (i2f k)) = false ∧ isInf (pow2 c (i2f k)) = false ∧
    magUnits (pow2 c (i2f k)) = 2 ^ (k + 149).toNat

/-- R11, roundTiesToEven: rounding leaves a value that is a binary32 value as it is. -/
def Obligations.RoundingKeepsRepresentable : Prop :=
  ∀ x : F32, isNaN x = false → isInf x = false → roundF32 (signBit x) (magUnits x) 1 = x

/-- R11, roundTiesToEven: the whole number chosen is a nearest one, and in a tie the even one. -/
def Obligations.RoundEvenIsNearest : Prop :=
  ∀ n d : Nat, 0 < d →
    2 * ((n : Int) - (roundEven n d * d : Nat)).natAbs ≤ d ∧
    (2 * ((n : Int) - (roundEven n d * d : Nat)).natAbs = d → roundEven n d % 2 = 0)

/-- R11: addition and multiplication do not depend on the order of their operands. -/
def Obligations.AddAndMulCommute : Prop :=
  ∀ (c : Config) (x y : F32), fadd c x y = fadd c y x ∧ fmul c x y = fmul c y x

/-- R11: an operation with a NaN operand gives `NAN_RESULT`, which is a NaN, and comparisons with a NaN are false. -/
def Obligations.NansPropagate : Prop :=
  ∀ (c : Config) (x y : F32), isNaN x = true ∨ isNaN y = true →
    fadd c x y = nan c ∧ fsub c x y = nan c ∧ fmul c x y = nan c ∧ fdiv c x y = nan c ∧ isNaN (nan c) = true ∧
    flt x y = false ∧ fle x y = false ∧ feq x y = false

/-! ## The assembler -/

/-- R99, R100: the assembler's aliases and a few lines of the test vectors. The model's choice: the reading of blanks (log
20). -/
def Obligations.AssemblerSampleLines : Prop :=
  assembleLine ['N', 'O', 'T', 'E', '_', 'O', 'F', 'F'] = some (encode .noteOffAll) ∧
  assembleLine ['N', 'O', 'T', 'E', '_', 'O', 'F', 'F', ' ', '6', '4'] = some (encode (.noteOffMidi 64)) ∧
  assembleLine ['N', 'O', 'T', 'E', '_', 'O', 'N', ' ', '6', '9', ',', ' ', '0', '.', '8'] =
    some [0x00000203#32, 0x00000045#32, 0x3F4CCCCD#32] ∧
  assembleLine ['L', 'F', 'O', '_', 'D', 'E', 'S', 'T', ' ', '-', '3', ' ', ';', ' ', 'x'] =
    some [0x00000117#32, 0xFFFFFFFD#32]
end

