-- ==== Sys2Proof/Laws/Creation.lean ====
section
/-! SUPPORT. What creation can do: a creation touches the slots it builds, the request log and the draw counter; Ensure and
SetWave either go through or stand at a failed creation. -/

namespace Sys2Proof.Machine

/-- What no creation writes: the parameters, STATUS, the decoder, the streams, and the engine's own registers. -/
structure SameOutside (s t : State) : Prop where
  par   : t.par = s.par
  st    : t.st = s.st
  dec   : t.dec = s.dec
  out   : t.out = s.out
  input : t.input = s.input

theorem SameOutside.refl (s : State) : SameOutside s s := ⟨rfl, rfl, rfl, rfl, rfl⟩

theorem SameOutside.trans {s t u : State} (h : SameOutside s t) (k : SameOutside t u) : SameOutside s u :=
  ⟨k.par.trans h.par, k.st.trans h.st, k.dec.trans h.dec, k.out.trans h.out, k.input.trans h.input⟩

/-- What building slot `i` keeps besides: the engine registers, every other voice, and the slot's base frequency. -/
structure BuildsOnly (i : Nat) (s t : State) : Prop extends SameOutside s t where
  eng   : t.eng = s.eng
  other : ∀ j, j ≠ i → t.voice j = s.voice j
  freq  : (t.voice i).baseFreq = (s.voice i).baseFreq

theorem BuildsOnly.refl (i : Nat) (s : State) : BuildsOnly i s s := ⟨SameOutside.refl s, rfl, fun _ _ => rfl, rfl⟩

theorem BuildsOnly.trans {i : Nat} {s t u : State} (h : BuildsOnly i s t) (k : BuildsOnly i t u) : BuildsOnly i s u :=
  ⟨h.toSameOutside.trans k.toSameOutside, k.eng.trans h.eng, fun j hj => (k.other j hj).trans (h.other j hj),
    k.freq.trans h.freq⟩

/-- A creation that stores into `V[i]` builds slot `i` only. -/
theorem create_buildsOnly {c : Config} {r : Request} {store : State → State} {i : Nat} {s : State}
    (h : ∀ t, BuildsOnly i t (store t)) : BuildsOnly i s (create c r store s).state := by
  have hask : BuildsOnly i s { s.ask [r] with draws := s.draws + 1 } := ⟨⟨rfl, rfl, rfl, rfl, rfl⟩, rfl, fun _ _ => rfl, rfl⟩
  rcases create_cases c r store s with ⟨_, e⟩ | ⟨_, e⟩ <;> rw [e]
  · exact hask.trans (h _)
  · exact hask

theorem setVoice_buildsOnly (i : Nat) (v : Voice) (s : State) (h : v.baseFreq = (s.voice i).baseFreq) :
    BuildsOnly i s (s.setVoice i v) := by
  refine ⟨⟨rfl, rfl, rfl, rfl, rfl⟩, rfl, fun _ h => voice_setVoice_ne s v (Ne.symm h), ?_⟩
  rw [voice_setVoice]
  split
  · exact h
  · rfl

theorem pushEnv_buildsOnly (c : Config) (r : EnvRole) (i : Nat) (s : State) : BuildsOnly i s (s.pushEnv c r i) := by
  refine ⟨⟨rfl, rfl, rfl, rfl, rfl⟩, rfl, fun _ h => pushEnv_voice_ne c r s (Ne.symm h), ?_⟩
  rw [pushEnv_voice]
  split
  · exact setEnv_baseFreq _ _ _
  · rfl

theorem ask_buildsOnly (i : Nat) (rs : List Request) (s : State) : BuildsOnly i s (s.ask rs) :=
  ⟨⟨rfl, rfl, rfl, rfl, rfl⟩, rfl, fun _ _ => rfl, rfl⟩

theorem newOsc_buildsOnly (c : Config) (k : OscSlot) (i : Nat) (s : State) : BuildsOnly i s (newOsc c k i s).state := by
  simp only [newOsc, createOsc]
  split
  · exact BuildsOnly.refl i s
  · exact create_buildsOnly fun t => setVoice_buildsOnly i _ t (setOsc_baseFreq _ _ _)

theorem newEnv_buildsOnly (c : Config) (r : EnvRole) (i : Nat) (s : State) : BuildsOnly i s (newEnv c r i s).state :=
  create_buildsOnly fun t => (setVoice_buildsOnly i _ t (setEnv_baseFreq _ _ _)).trans (pushEnv_buildsOnly c r i _)

theorem newFilt_buildsOnly (c : Config) (i : Nat) (s : State) : BuildsOnly i s (newFilt c i s).state :=
  create_buildsOnly fun t => setVoice_buildsOnly i _ t rfl

theorem andThen_buildsOnly {i : Nat} {s : State} {x : Attempt} {f : State → Attempt} (hx : BuildsOnly i s x.state)
    (hf : ∀ t, BuildsOnly i t (f t).state) : BuildsOnly i s (x.andThen f).state :=
  Attempt.andThen_keeps (K := BuildsOnly i s) hx fun t ht => ht.trans (hf t)

theorem createVoiceUnits_buildsOnly (c : Config) (i : Nat) (s : State) :
    BuildsOnly i s (createVoiceUnits c i s).state := by
  refine andThen_buildsOnly (andThen_buildsOnly (andThen_buildsOnly (andThen_buildsOnly (newOsc_buildsOnly c .one i s)
    fun t => newOsc_buildsOnly c .two i t) fun t => newEnv_buildsOnly c .amp i t) fun t => newEnv_buildsOnly c .filt i t)
    fun t => andThen_buildsOnly (newFilt_buildsOnly c i t) fun u => setVoice_buildsOnly i _ u rfl

/-! ## What the creations give when they go through -/

/-- A creation that went through stored its answer. -/
theorem create_ok {c : Config} {r : Request} {store : State → State} {s t : State} (h : create c r store s = .ok t) :
    t = store { s.ask [r] with draws := s.draws + 1 } := by
  rcases create_cases c r store s with ⟨_, e⟩ | ⟨_, e⟩ <;> rw [e] at h
  · exact (Attempt.ok.inj h).symm
  · exact Attempt.noConfusion h

/-- A creation goes through when no creation fails. -/
theorem create_succeeds {c : Config} {r : Request} {store : State → State} {s : State} (h : CreationsSucceed c s.draws) :
    create c r store s = .ok (store { s.ask [r] with draws := s.draws + 1 }) := by
  rcases create_cases c r store s with ⟨_, e⟩ | ⟨e, _⟩
  · exact e
  · rw [h s.draws r (Nat.le_refl _)] at e
    exact absurd e Bool.false_ne_true

theorem CreationsSucceed.mono {c : Config} {n m : Nat} (h : CreationsSucceed c n) (hm : n ≤ m) : CreationsSucceed c m :=
  fun d r hd => h d r (Nat.le_trans hm hd)

/-- The table slot `k`'s unit is created on (40_voice_pool.md R131). -/
def unitTable (s : State) (k : OscSlot) : Option TableRef := if s.par.wave k = .fm then s.eng.sine else s.eng.tbl k

/-- The unit NewOsc makes, where its table is there. -/
def freshOsc (c : Config) (s : State) (k : OscSlot) (old : Option OscState) : Option OscState :=
  match unitTable s k with
  | none => old
  | some t => some ⟨(s.par.wave k).kind, c.oscNew (s.par.wave k).kind t⟩

theorem freshOsc_congr {s t : State} (c : Config) (k : OscSlot) (old : Option OscState) (hp : t.par = s.par)
    (he : t.eng = s.eng) : freshOsc c t k old = freshOsc c s k old := by
  simp only [freshOsc, unitTable, hp, he]

theorem newOsc_ok {c : Config} {k : OscSlot} {i : Nat} {s t : State} (hi : i < NV) (h : newOsc c k i s = .ok t) :
    t.voice i = (s.voice i).setOsc k (freshOsc c s k ((s.voice i).osc k)) := by
  simp only [newOsc, createOsc] at h
  split at h
  · next e =>
    cases Attempt.ok.inj h
    have : freshOsc c s k ((s.voice i).osc k) = (s.voice i).osc k := by simp only [freshOsc, unitTable, e]
    rw [this]
    cases k <;> rfl
  · next tr e =>
    rw [create_ok h, voice_setVoice_self _ _ hi]
    have : freshOsc c s k ((s.voice i).osc k) = some ⟨(s.par.wave k).kind, c.oscNew (s.par.wave k).kind tr⟩ := by
      simp only [freshOsc, unitTable, e]
    rw [this]
    rfl

theorem newEnv_ok {c : Config} {r : EnvRole} {i : Nat} {s t : State} (hi : i < NV) (h : newEnv c r i s = .ok t) :
    t.voice i = (s.voice i).setEnv r
      (some (c.envSet c.envNew (s.par.adsr r).a (s.par.adsr r).d (s.par.adsr r).s (s.par.adsr r).r)) := by
  rw [create_ok h, pushEnv_voice_self _ _ _ hi, voice_setVoice_self _ _ hi]
  simp only [env_setEnv_self, setEnv_setEnv, envAfterSet]
  rfl

theorem newFilt_ok {c : Config} {i : Nat} {s t : State} (hi : i < NV) (h : newFilt c i s = .ok t) :
    t.voice i = { s.voice i with filt := some (c.filtNew s.eng.sampleRate) } := by
  rw [create_ok h, voice_setVoice_self _ _ hi]
  rfl

/-- The voice CreateVoiceUnits leaves in a slot (R131). -/
def freshVoice (c : Config) (s : State) (v : Voice) : Voice where
  active   := false
  gate     := posZero
  midi     := -1
  baseFreq := v.baseFreq
  velocity := posZero
  osc1     := freshOsc c s .one v.osc1
  osc2     := freshOsc c s .two v.osc2
  aenv     := some (c.envSet c.envNew s.par.envA s.par.envD s.par.envS s.par.envR)
  fenv     := some (c.envSet c.envNew s.par.fenvA s.par.fenvD s.par.fenvS s.par.fenvR)
  filt     := some (c.filtNew s.eng.sampleRate)

/-- CreateVoiceUnits that went through leaves the fresh voice in its slot. -/
theorem createVoiceUnits_ok {c : Config} {i : Nat} {s t : State} (hi : i < NV) (h : createVoiceUnits c i s = .ok t) :
    t.voice i = freshVoice c s (s.voice i) := by
  simp only [createVoiceUnits, Attempt.andThen_eq_ok] at h
  obtain ⟨s4, ⟨s3, ⟨s2, ⟨s1, h1, h2⟩, h3⟩, h4⟩, s5, h5, h6⟩ := h
  have b1 : BuildsOnly i s s1 := by simpa [h1, Attempt.state] using newOsc_buildsOnly c .one i s
  have b2 : BuildsOnly i s s2 := b1.trans (by simpa [h2, Attempt.state] using newOsc_buildsOnly c .two i s1)
  have b3 : BuildsOnly i s s3 := b2.trans (by simpa [h3, Attempt.state] using newEnv_buildsOnly c .amp i s2)
  have b4 : BuildsOnly i s s4 := b3.trans (by simpa [h4, Attempt.state] using newEnv_buildsOnly c .filt i s3)
  have v1 := newOsc_ok hi h1
  have v2 := newOsc_ok hi h2
  rw [freshOsc_congr c .two _ b1.par b1.eng] at v2
  have v3 := newEnv_ok hi h3
  have v4 := newEnv_ok hi h4
  have v5 := newFilt_ok hi h5
  rw [← Attempt.ok.inj h6, voice_setVoice_self _ _ hi, v5, v4, v3, v2, v1, b2.par, b3.par, b4.eng]
  rfl

/-! ## Creation request counts: the draw counter only grows -/

theorem create_draws (c : Config) (r : Request) (store : State → State) (s : State)
    (h : ∀ t, (store t).draws = t.draws) : (create c r store s).state.draws = s.draws + 1 := by
  rcases create_cases c r store s with ⟨_, e⟩ | ⟨_, e⟩ <;> rw [e]
  · exact h _
  · rfl

/-- An attempt that draws on from `s` and goes through when no later creation fails. -/
structure Sure (c : Config) (s : State) (x : Attempt) : Prop where
  draws : s.draws ≤ x.state.draws
  sure  : CreationsSucceed c s.draws → x.isOk = true

theorem Sure.ok {c : Config} {s t : State} (h : s.draws ≤ t.draws) : Sure c s (.ok t) := ⟨h, fun _ => rfl⟩

theorem Sure.create {c : Config} {r : Request} {store : State → State} {s : State}
    (h : ∀ t, (store t).draws = t.draws) : Sure c s (create c r store s) :=
  ⟨by rw [create_draws c r store s h]; omega, fun hc => by rw [create_succeeds hc]; rfl⟩

theorem Sure.andThen {c : Config} {s : State} {x : Attempt} {f : State → Attempt} (hx : Sure c s x)
    (hf : ∀ t, Sure c t (f t)) : Sure c s (x.andThen f) := by
  cases x with
  | ok t => exact ⟨Nat.le_trans hx.draws (hf t).draws, fun h => (hf t).sure (h.mono hx.draws)⟩
  | fail t => exact ⟨hx.draws, hx.sure⟩

/-- Start counting from an earlier state. -/
theorem Sure.of_draws {c : Config} {s t : State} {x : Attempt} (h : Sure c t x) (e : t.draws = s.draws) : Sure c s x :=
  ⟨e ▸ h.draws, fun k => h.sure (e ▸ k)⟩

/-- With no failing creation, the attempt is at its state. -/
theorem Sure.eq_ok {c : Config} {s : State} {x : Attempt} (h : Sure c s x) (k : CreationsSucceed c s.draws) :
    x = .ok x.state := by
  have := h.sure k
  cases x with
  | ok t => rfl
  | fail t => exact absurd this Bool.false_ne_true

theorem newOsc_sure (c : Config) (k : OscSlot) (i : Nat) (s : State) : Sure c s (newOsc c k i s) := by
  simp only [newOsc, createOsc]
  split
  · exact Sure.ok (Nat.le_refl _)
  · exact Sure.create fun _ => rfl

theorem newEnv_sure (c : Config) (r : EnvRole) (i : Nat) (s : State) : Sure c s (newEnv c r i s) := Sure.create fun _ => rfl

theorem newFilt_sure (c : Config) (i : Nat) (s : State) : Sure c s (newFilt c i s) := Sure.create fun _ => rfl

theorem createVoiceUnits_sure (c : Config) (i : Nat) (s : State) : Sure c s (createVoiceUnits c i s) :=
  (((((newOsc_sure c .one i s).andThen (newOsc_sure c .two i)).andThen (newEnv_sure c .amp i)).andThen
    (newEnv_sure c .filt i)).andThen fun t => (newFilt_sure c i t).andThen fun u => Sure.ok (Nat.le_refl u.draws))

theorem growOne_sure (c : Config) (s : State) : Sure c s (growOne c s) :=
  (createVoiceUnits_sure c s.eng.alloc s).andThen fun u => Sure.ok (Nat.le_refl u.draws)

theorem growBy_sure (c : Config) (k : Nat) (s : State) : Sure c s (growBy c k s) := by
  induction k with
  | zero => exact Sure.ok (Nat.le_refl _)
  | succ m ih => exact ih.andThen (growOne_sure c)

theorem recreateOsc_sure (c : Config) (k : OscSlot) (i : Nat) (s : State) : Sure c s (recreateOsc c k i s) :=
  (newOsc_sure c k i _).of_draws rfl

theorem recreateBelow_sure (c : Config) (k : OscSlot) (n : Nat) (s : State) : Sure c s (recreateBelow c k n s) := by
  induction n with
  | zero => exact Sure.ok (Nat.le_refl _)
  | succ m ih => exact ih.andThen (recreateOsc_sure c k m)

/-! ## Ensure (R131) -/

/-- What Ensure's loop keeps, and what it has built, wherever it stands. -/
structure Grown (c : Config) (s t : State) : Prop extends SameOutside s t where
  eng   : t.eng = { s.eng with alloc := t.eng.alloc }
  below : ∀ i, i < s.eng.alloc → t.voice i = s.voice i
  built : ∀ i, s.eng.alloc ≤ i → i < t.eng.alloc → i < NV → t.voice i = freshVoice c s (s.voice i)
  above : ∀ i, t.eng.alloc < i → t.voice i = s.voice i
  grows : s.eng.alloc ≤ t.eng.alloc
  freq  : ∀ i, (t.voice i).baseFreq = (s.voice i).baseFreq

theorem Grown.refl (c : Config) (s : State) : Grown c s s :=
  ⟨SameOutside.refl s, rfl, fun _ _ => rfl, fun i h k => by omega, fun _ _ => rfl, Nat.le_refl _, fun _ => rfl⟩

theorem growBy_grown (c : Config) (k : Nat) (s : State) :
    Grown c s (growBy c k s).state ∧
      ∀ t, growBy c k s = .ok t → t.eng.alloc = s.eng.alloc + k ∧ ∀ i, t.eng.alloc ≤ i → t.voice i = s.voice i := by
  induction k with
  | zero =>
    refine ⟨Grown.refl c s, fun t h => ?_⟩
    cases Attempt.ok.inj h
    exact ⟨rfl, fun _ _ => rfl⟩
  | succ m ih =>
    obtain ⟨hg, hok⟩ := ih
    unfold growBy
    cases e : growBy c m s with
    | fail u => simpa [e, Attempt.state] using hg
    | ok u =>
      rw [e] at hg
      obtain ⟨hu, hrest⟩ := hok u e
      simp only [Attempt.state] at hg
      simp only [Attempt.andThen_ok, growOne]
      have hb := createVoiceUnits_buildsOnly c u.eng.alloc u
      have hfreq (i : Nat) : ((createVoiceUnits c u.eng.alloc u).state.voice i).baseFreq = (s.voice i).baseFreq := by
        by_cases hi : i = u.eng.alloc
        · subst hi
          exact hb.freq.trans (hg.freq _)
        · exact (congrArg Voice.baseFreq (hb.other i hi)).trans (hg.freq i)
      cases e2 : createVoiceUnits c u.eng.alloc u with
      | fail w =>
        rw [e2] at hb hfreq
        simp only [Attempt.state] at hb hfreq
        refine ⟨⟨hg.toSameOutside.trans hb.toSameOutside, ?_, ?_, ?_, ?_, ?_, hfreq⟩, fun t h => Attempt.noConfusion h⟩
        · simp only [Attempt.andThen_fail, Attempt.state, hb.eng]; exact hg.eng
        · intro i hi
          have hgrow := hg.grows
          exact (hb.other i (by omega)).trans (hg.below i hi)
        · intro i h1 h2 h3
          simp only [Attempt.andThen_fail, Attempt.state, hb.eng] at h2 ⊢
          exact (hb.other i (by omega)).trans (hg.built i h1 h2 h3)
        · intro i hi
          simp only [Attempt.andThen_fail, Attempt.state, hb.eng] at hi ⊢
          exact (hb.other i (by omega)).trans (hg.above i hi)
        · simp only [Attempt.andThen_fail, Attempt.state, hb.eng]; exact hg.grows
      | ok w =>
        rw [e2] at hb hfreq
        simp only [Attempt.state] at hb hfreq
        have hgrow := hg.grows
        refine ⟨⟨hg.toSameOutside.trans ⟨hb.par, hb.st, hb.dec, hb.out, hb.input⟩, ?_, ?_, ?_, ?_, ?_, hfreq⟩, fun t h => ?_⟩
        · simp only [Attempt.andThen_ok, Attempt.state, setEng_eng, hb.eng]
          rw [hg.eng]
        · intro i hi
          simp only [Attempt.andThen_ok, Attempt.state, voice_setEng]
          exact (hb.other i (by omega)).trans (hg.below i hi)
        · intro i h1 h2 h3
          simp only [Attempt.andThen_ok, Attempt.state, setEng_eng, voice_setEng] at h2 ⊢
          by_cases hi : i = u.eng.alloc
          · subst hi
            rw [createVoiceUnits_ok h3 e2, hrest _ (Nat.le_refl _)]
            simp only [freshVoice, hg.par, freshOsc, unitTable]
            rw [hg.eng]
            rfl
          · exact (hb.other i hi).trans (hg.built i h1 (by omega) h3)
        · intro i hi
          simp only [Attempt.andThen_ok, Attempt.state, setEng_eng, voice_setEng] at hi ⊢
          exact (hb.other i (by omega)).trans (hg.above i (by omega))
        · simp only [Attempt.andThen_ok, Attempt.state, setEng_eng]; omega
        · have ht := Attempt.ok.inj h
          subst ht
          refine ⟨by simp only [setEng_eng]; omega, fun i hi => ?_⟩
          simp only [setEng_eng, voice_setEng] at hi ⊢
          exact (hb.other i (by omega)).trans (hrest i (by omega))

/-- Ensure, wherever it stands: nothing outside the slots it builds has changed. -/
theorem ensure_grown (c : Config) (n : Nat) (s : State) : Grown c s (ensure c n s).state :=
  (growBy_grown c (n - s.eng.alloc) s).1

/-- Ensure that went through: the allocated set has grown to `n` slots. -/
theorem ensure_ok {c : Config} {n : Nat} {s t : State} (h : ensure c n s = .ok t) :
    Grown c s t ∧ t.eng.alloc = max s.eng.alloc n ∧ ∀ i, t.eng.alloc ≤ i → t.voice i = s.voice i := by
  have hg := ensure_grown c n s
  rw [h] at hg
  obtain ⟨ha, hr⟩ := (growBy_grown c (n - s.eng.alloc) s).2 t h
  exact ⟨hg, by omega, hr⟩

theorem ensure_sure (c : Config) (n : Nat) (s : State) : Sure c s (ensure c n s) := growBy_sure c _ s

end Sys2Proof.Machine
end

