-- ==== Sys2Proof/Laws/Encoding.lean ====
section
/-! SUPPORT. Operand words and header words: the two readings of an `i32` word are inverse, and the fields of a command's header
are the ones it was made from (30_encoding.md R91, R92, R96). -/

namespace Sys2Proof

theorem fitsI32_iff (k : Int) : fitsI32 k = true ↔ -(2 ^ 31) ≤ k ∧ k < 2 ^ 31 := by simp [fitsI32]

/-- Reading back the word of an integer that fits. -/
theorem s32_ofS32 {k : Int} (h : fitsI32 k = true) : s32 (ofS32 k) = k := by
  rw [fitsI32_iff] at h
  unfold s32 ofS32
  rw [BitVec.toInt_ofInt]
  apply Int.bmod_eq_of_le <;> simp <;> omega

theorem ofS32_s32 (w : Word) : ofS32 (s32 w) = w := by simp [ofS32, s32]

/-- Every word's `s32` fits. -/
theorem fitsI32_s32 (w : Word) : fitsI32 (s32 w) = true := by
  rw [fitsI32_iff]
  unfold s32
  have h1 := @BitVec.toInt_lt 32 w
  have h2 := @BitVec.le_toInt 32 w
  simp at *
  omega

/-- The row of R96 a command comes from. -/
theorem opcodeRow_of (i : Instr) :
    ∃ m ts, opcodeRow i.opcode = some ⟨i.opcode, m, ts⟩ ∧ ts.length = i.operandWords.length := by
  cases i <;> exact ⟨_, _, rfl, rfl⟩

/-- The fields of a command's header word. -/
theorem headerWord_fields (i : Instr) :
    rsvField i.headerWord = 0 ∧ opcField i.headerWord = i.opcode ∧ lenField i.headerWord = i.operandWords.length := by
  cases i <;> simp only [Instr.headerWord, Instr.opcode, Instr.operandWords, List.length_cons, List.length_nil] <;> decide

/-- A header word with its reserved bits clear is made of its two fields. -/
theorem header_of_fields (h : Word) (hr : rsvField h = 0) : header (opcField h) (lenField h) = h := by
  unfold rsvField at hr
  unfold header opcField lenField
  apply BitVec.eq_of_toNat_eq
  have hb := h.isLt
  simp only [BitVec.extractLsb'_toNat] at hr ⊢
  simp only [BitVec.toNat_or, BitVec.toNat_shiftLeft, BitVec.toNat_ofNat]
  have e1 : h.toNat >>> 16 % 2 ^ 16 = h.toNat / 65536 := by rw [Nat.shiftRight_eq_div_pow]; omega
  rw [e1] at hr
  have e2 : h.toNat >>> 8 % 2 ^ 8 = h.toNat / 256 := by rw [Nat.shiftRight_eq_div_pow]; omega
  have e3 : h.toNat >>> 0 % 2 ^ 8 = h.toNat % 256 := by simp
  rw [e2, e3]
  have e4 : (h.toNat / 256 % 2 ^ 32) <<< 8 % 2 ^ 32 = h.toNat / 256 * 2 ^ 8 := by rw [Nat.shiftLeft_eq]; omega
  have e5 : h.toNat % 256 % 2 ^ 32 = h.toNat % 256 := by omega
  rw [e4, e5, Nat.mul_comm, ← Nat.two_pow_add_eq_or_of_lt (by omega)]
  omega

end Sys2Proof
end

