-- ==== Sys2Proof/Laws/Fetch.lean ====
section
/-! SUPPORT. What the decoder registers hold after a header and after operand words (10_state.md R45, 30_encoding.md R94). -/

namespace Sys2Proof.Machine

@[simp] theorem takeHeader_phase (w : Word) (d : Decoder) : (d.takeHeader w).phase = d.phase := rfl
@[simp] theorem takeHeader_hdr (w : Word) (d : Decoder) : (d.takeHeader w).hdr = w := rfl
@[simp] theorem takeHeader_k (w : Word) (d : Decoder) : (d.takeHeader w).k = 0 := rfl
@[simp] theorem takeHeader_ops (w : Word) (d : Decoder) : (d.takeHeader w).ops = d.ops := rfl

@[simp] theorem takeOperand_phase (w : Word) (d : Decoder) : (d.takeOperand w).phase = d.phase := rfl
@[simp] theorem takeOperand_hdr (w : Word) (d : Decoder) : (d.takeOperand w).hdr = d.hdr := rfl
@[simp] theorem takeOperand_k (w : Word) (d : Decoder) : (d.takeOperand w).k = d.k + 1 := rfl

/-- One entry of `D.ops` is written, where there is one. -/
theorem takeOperand_ops (w : Word) (d : Decoder) : (d.takeOperand w).ops = d.ops.setIfInBounds d.k w := by
  unfold Decoder.takeOperand
  split
  · next h => ext j hj; simp [Vector.getElem_set, Vector.getElem_setIfInBounds]
  · next h => ext j hj; simp [show d.k ≠ j by omega]

/-- The operand words received, after one more. -/
theorem received_takeOperand (w : Word) (d : Decoder) (h : d.k < NOPS) :
    (d.takeOperand w).received = d.received ++ [w] := by
  apply List.ext_getElem?
  intro j
  simp only [Decoder.received, takeOperand_ops, takeOperand_k, List.getElem?_take, List.getElem?_append, List.length_take,
    Vector.length_toList, Vector.toList_setIfInBounds, List.getElem?_set, List.getElem?_singleton]
  have hm : min d.k NOPS = d.k := by omega
  rw [hm]
  rcases Nat.lt_trichotomy j d.k with hj | hj | hj
  · simp [hj, show j < d.k + 1 by omega, show d.k ≠ j by omega]
  · subst hj; simp [h]
  · simp [show ¬j < d.k + 1 by omega, show ¬j < d.k by omega, show j - d.k ≠ 0 by omega]

/-- A command's length is at most 255, so every operand word has its entry (30_encoding.md R90). -/
theorem lenField_le (w : Word) : lenField w ≤ NOPS := Nat.lt_succ_iff.mp (w.extractLsb' 8 8).isLt

theorem takeAll_cons (w : Word) (ws : List Word) (d : Decoder) : d.takeAll (w :: ws) = (d.takeOperand w).takeAll ws := rfl

/-- Operand words are written to the entries from `D.k` on, and to no other. -/
theorem takeAll_spec (ws : List Word) (d : Decoder) (h : d.k + ws.length ≤ NOPS) :
    (d.takeAll ws).phase = d.phase ∧ (d.takeAll ws).hdr = d.hdr ∧ (d.takeAll ws).k = d.k + ws.length ∧
      (d.takeAll ws).received = d.received ++ ws ∧
      ∀ j, (d.takeAll ws).ops[j]? = if d.k ≤ j ∧ j < d.k + ws.length then ws[j - d.k]? else d.ops[j]? := by
  induction ws generalizing d with
  | nil => exact ⟨rfl, rfl, rfl, (List.append_nil _).symm, fun j => by rw [if_neg (by simp)]; rfl⟩
  | cons w ws ih =>
    simp only [List.length_cons] at h
    obtain ⟨h1, h2, h3, h4, h5⟩ := ih (d.takeOperand w) (by simp only [takeOperand_k]; omega)
    rw [takeAll_cons]
    refine ⟨h1, h2, by rw [h3, takeOperand_k, List.length_cons]; omega, ?_, fun j => ?_⟩
    · rw [h4, received_takeOperand w d (by omega), List.append_assoc, List.singleton_append]
    · rw [h5, takeOperand_k, takeOperand_ops, Vector.getElem?_setIfInBounds, List.length_cons]
      rcases Nat.lt_trichotomy j d.k with hj | hj | hj
      · rw [if_neg (by omega), if_neg (by omega), if_neg (by omega)]
      · subst hj
        rw [if_neg (by omega), if_pos rfl, if_pos (by omega), if_pos (by omega), Nat.sub_self]
        rfl
      · rw [if_neg (c := d.k = j) (by omega)]
        by_cases hl : j < d.k + 1 + ws.length
        · rw [if_pos (by omega), if_pos (by omega), show j - d.k = (j - (d.k + 1)) + 1 by omega]
          rfl
        · rw [if_neg (by omega), if_neg (by omega)]

end Sys2Proof.Machine
end

