-- ==== Sys2Proof/Laws/Float.lean ====
section
/-! SUPPORT. Binary32 values: a word from its three fields, NaN results, and `POW2` at its exact points (00_scope.md R8, R11, R13). -/

namespace Sys2Proof.Machine

/-- A word is its sign, exponent and fraction. -/
theorem toNat_fields (x : F32) :
    x.toNat = (if signBit x then 2 ^ 31 else 0) + expField x * 2 ^ 23 + fracField x ∧ expField x < 256 ∧ fracField x < 2 ^ 23 := by
  unfold signBit expField fracField
  have := x.isLt
  rw [BitVec.msb_eq_decide]
  simp only [BitVec.extractLsb'_toNat, Nat.shiftRight_eq_div_pow, decide_eq_true_eq]
  split <;> omega

/-- `NAN_RESULT` is a NaN, whatever the configuration holds. -/
theorem nan_isNaN (c : Config) : isNaN (nan c) = true := by
  unfold nan
  split
  · assumption
  · decide

/-- `POW2` where it is exact. Cite this with `x` abstract: unfolding `i2f` of a variable does not end. -/
theorem pow2_of_smallInt {x : F32} {k : Int} (c : Config) (h : smallInt x = some k) (h1 : -126 ≤ k) (h2 : k ≤ 127) :
    pow2 c x = pow2Bits k := by
  unfold pow2
  rw [h]
  exact if_pos ⟨h1, h2⟩

/-- The fields of a power of two. -/
theorem pow2Bits_fields {k : Int} (h1 : -126 ≤ k) (h2 : k ≤ 127) :
    expField (pow2Bits k) = (k + 127).toNat ∧ fracField (pow2Bits k) = 0 ∧ signBit (pow2Bits k) = false := by
  have : (pow2Bits k).toNat = (k + 127).toNat * 2 ^ 23 := by
    unfold pow2Bits pack
    simp only [Bool.false_eq_true, if_false, BitVec.toNat_ofNat]
    omega
  generalize pow2Bits k = w at *
  obtain ⟨p1, p2, p3⟩ := toNat_fields w
  rw [this] at p1
  cases hs : signBit w
  · rw [hs, if_neg Bool.false_ne_true] at p1
    have : expField w = (k + 127).toNat := by omega
    exact ⟨this, by omega, rfl⟩
  · rw [hs, if_pos rfl] at p1
    omega

end Sys2Proof.Machine
end

