-- ==== Sys2Proof/Laws/Frame.lean ====
section
/-! SUPPORT. What a frame can do (42_signal_chain_and_mixer.md R180 to R188). -/

namespace Sys2Proof.Machine

/-- What RENDER's voices never write. -/
structure SameInFrame (s t : State) : Prop where
  eng   : t.eng = s.eng
  par   : t.par = s.par
  st    : t.st = s.st
  dec   : t.dec = s.dec
  out   : t.out = s.out
  input : t.input = s.input
  draws : t.draws = s.draws

theorem SameInFrame.refl (s : State) : SameInFrame s s := ⟨rfl, rfl, rfl, rfl, rfl, rfl, rfl⟩

theorem SameInFrame.trans {s t u : State} (h : SameInFrame s t) (k : SameInFrame t u) : SameInFrame s u :=
  ⟨k.eng.trans h.eng, k.par.trans h.par, k.st.trans h.st, k.dec.trans h.dec, k.out.trans h.out, k.input.trans h.input,
    k.draws.trans h.draws⟩

theorem runVoice_same (c : Config) (r : Route) (i : Nat) (s : State) : SameInFrame s (runVoice c r i s).2 :=
  ⟨rfl, rfl, rfl, rfl, rfl, rfl, rfl⟩

theorem runVoice_voice_self (c : Config) (r : Route) {i : Nat} (s : State) (h : i < NV) :
    (runVoice c r i s).2.voice i =
      (voiceChain c s.par s.eng.sampleRate r (s.voice i)).voice.releaseIfSilent
        (voiceChain c s.par s.eng.sampleRate r (s.voice i)).ae := by
  simp only [runVoice, voice_ask, voice_setVoice_self _ _ h]

theorem runVoice_voice_ne (c : Config) (r : Route) {i j : Nat} (s : State) (h : i ≠ j) :
    (runVoice c r i s).2.voice j = s.voice j := by
  simp only [runVoice, voice_ask, voice_setVoice_ne _ _ h]

theorem mixVoice_eligible {c : Config} {r : Route} {i : Nat} {acc : F32 × State} (h : (acc.2.voice i).eligible = true) :
    mixVoice c r i acc = (fadd c acc.1 (runVoice c r i acc.2).1, (runVoice c r i acc.2).2) := by
  rw [mixVoice, if_pos h]

theorem mixVoice_ineligible {c : Config} {r : Route} {i : Nat} {acc : F32 × State}
    (h : ¬(acc.2.voice i).eligible = true) : mixVoice c r i acc = acc := by
  rw [mixVoice, if_neg h]

theorem mixVoice_same (c : Config) (r : Route) (i : Nat) (acc : F32 × State) :
    SameInFrame acc.2 (mixVoice c r i acc).2 := by
  by_cases h : (acc.2.voice i).eligible = true
  · rw [mixVoice_eligible h]
    exact runVoice_same c r i acc.2
  · rw [mixVoice_ineligible h]
    exact SameInFrame.refl _

theorem mixVoice_voice_ne (c : Config) (r : Route) {i j : Nat} (acc : F32 × State) (hij : i ≠ j) :
    (mixVoice c r i acc).2.voice j = acc.2.voice j := by
  by_cases h : (acc.2.voice i).eligible = true
  · simp only [mixVoice_eligible h, runVoice_voice_ne c r acc.2 hij]
  · rw [mixVoice_ineligible h]

theorem mixBelow_same (c : Config) (r : Route) (n : Nat) (s : State) : SameInFrame s (mixBelow c r n s).2 := by
  induction n with
  | zero => exact SameInFrame.refl s
  | succ m ih => exact ih.trans (mixVoice_same c r m _)

/-- A slot at or above the bound is untouched. -/
theorem mixBelow_voice_above (c : Config) (r : Route) (n : Nat) (s : State) {j : Nat} (h : n ≤ j) :
    (mixBelow c r n s).2.voice j = s.voice j := by
  induction n with
  | zero => rfl
  | succ m ih => exact (mixVoice_voice_ne c r _ (by omega)).trans (ih (by omega))

/-- The voice a frame leaves in a considered slot. -/
def frameVoice (c : Config) (p : Params) (rate : F32) (r : Route) (v : Voice) : Voice :=
  if v.eligible then (voiceChain c p rate r v).voice.releaseIfSilent (voiceChain c p rate r v).ae else v

theorem mixVoice_voice_self (c : Config) (r : Route) {i : Nat} (acc : F32 × State) (hi : i < NV) :
    (mixVoice c r i acc).2.voice i = frameVoice c acc.2.par acc.2.eng.sampleRate r (acc.2.voice i) := by
  unfold frameVoice
  by_cases h : (acc.2.voice i).eligible = true
  · simp only [mixVoice_eligible h, if_pos h, runVoice_voice_self c r acc.2 hi]
  · rw [mixVoice_ineligible h, if_neg h]

/-- Each slot below the bound is run once, on the state before the frame. -/
theorem mixBelow_voice (c : Config) (r : Route) (n : Nat) (s : State) {j : Nat} (hj : j < n) (hv : j < NV) :
    (mixBelow c r n s).2.voice j = frameVoice c s.par s.eng.sampleRate r (s.voice j) := by
  induction n with
  | zero => omega
  | succ m ih =>
    by_cases h : m = j
    · subst h
      have hs := mixBelow_same c r m s
      exact (mixVoice_voice_self c r _ hv).trans (by rw [hs.par, hs.eng, mixBelow_voice_above c r m s (Nat.le_refl m)])
    · exact (mixVoice_voice_ne c r _ h).trans (ih (by omega))

/-- One slot's part of the mix: added if the voice is eligible (R181, R187). -/
theorem mixBelow_succ_sum (c : Config) (r : Route) (m : Nat) (s : State) :
    (mixBelow c r (m + 1) s).1 =
      if (s.voice m).eligible then
        fadd c (mixBelow c r m s).1 (voiceChain c s.par s.eng.sampleRate r (s.voice m)).contribution
      else (mixBelow c r m s).1 := by
  have hs := mixBelow_same c r m s
  have hv := mixBelow_voice_above c r m s (Nat.le_refl m)
  simp only [mixBelow, mixVoice, hv]
  split
  · simp only [runVoice, hs.par, hs.eng, hv]
  · rfl

/-- The mix's requests, in slot order. -/
theorem mixBelow_requests (c : Config) (r : Route) (n : Nat) (s : State) :
    (mixBelow c r n s).2.requests = s.requests ++ (List.range n).flatMap fun i =>
      if (s.voice i).eligible then (voiceChain c s.par s.eng.sampleRate r (s.voice i)).requests else [] := by
  induction n with
  | zero => simp [mixBelow]
  | succ m ih =>
    have hs := mixBelow_same c r m s
    have hv := mixBelow_voice_above c r m s (Nat.le_refl m)
    rw [List.range_succ, List.flatMap_append, ← List.append_assoc, ← ih,
      show mixBelow c r (m + 1) s = mixVoice c r m (mixBelow c r m s) from rfl]
    by_cases he : ((mixBelow c r m s).2.voice m).eligible = true
    · rw [mixVoice_eligible he]
      rw [hv] at he
      simp only [runVoice, ask_requests, setVoice_requests, hs.par, hs.eng, hv]
      simp [he]
    · rw [mixVoice_ineligible he]
      rw [hv] at he
      simp [he]

/-- A frame: the LFO register, the voices, one emitted word, and the request log (R180). -/
theorem frame_spec (c : Config) (s : State) :
    let lv := (stepOsc c s.eng.lfo s.par.lfoRate).1
    let r := route c s.par lv
    let t := frame c s
    t.eng = { s.eng with lfo := (stepOsc c s.eng.lfo s.par.lfoRate).2.1 } ∧ t.par = s.par ∧ t.st = s.st ∧ t.dec = s.dec ∧
      t.input = s.input ∧ t.draws = s.draws ∧
      t.out = s.out ++ [(mixBelow c r s.par.poly (lfoStep c s).2).1] ∧
      (∀ j, j < s.par.poly → j < NV → t.voice j = frameVoice c s.par s.eng.sampleRate r (s.voice j)) ∧
      (∀ j, s.par.poly ≤ j → t.voice j = s.voice j) := by
  have h := mixBelow_same c (route c s.par (stepOsc c s.eng.lfo s.par.lfoRate).1) s.par.poly (lfoStep c s).2
  refine ⟨h.eng, h.par, h.st, h.dec, h.input, h.draws, ?_, fun j hj hv => ?_, fun j hj => ?_⟩
  · exact congrArg (· ++ _) h.out
  · exact mixBelow_voice c _ _ _ hj hv
  · exact mixBelow_voice_above c _ _ _ hj

/-- What any number of frames keeps. -/
structure FramesKeep (s t : State) : Prop where
  eng   : t.eng = { s.eng with lfo := t.eng.lfo }
  par   : t.par = s.par
  st    : t.st = s.st
  dec   : t.dec = s.dec
  input : t.input = s.input
  draws : t.draws = s.draws

theorem frame_keeps (c : Config) (s : State) : FramesKeep s (frame c s) := by
  obtain ⟨h1, h2, h3, h4, h5, h6, _⟩ := frame_spec c s
  exact ⟨by rw [h1], h2, h3, h4, h5, h6⟩

theorem frames_keep (c : Config) (n : Nat) (s : State) : FramesKeep s (frames c n s) := by
  induction n with
  | zero => exact ⟨rfl, rfl, rfl, rfl, rfl, rfl⟩
  | succ m ih =>
    have h := frame_keeps c (frames c m s)
    exact ⟨by rw [show (frames c (m + 1) s).eng = _ from h.eng, ih.eng], h.par.trans ih.par, h.st.trans ih.st,
      h.dec.trans ih.dec, h.input.trans ih.input, h.draws.trans ih.draws⟩

theorem frames_out (c : Config) (n : Nat) (s : State) : ∃ ws : List Word, ws.length = n ∧ (frames c n s).out = s.out ++ ws := by
  induction n with
  | zero => exact ⟨[], rfl, by simp [frames]⟩
  | succ m ih =>
    obtain ⟨ws, hl, ho⟩ := ih
    obtain ⟨_, _, _, _, _, _, h, _⟩ := frame_spec c (frames c m s)
    exact ⟨ws ++ [_], by simp [hl], by rw [show (frames c (m + 1) s).out = _ from h, ho, List.append_assoc]⟩

theorem frames_add (c : Config) (a b : Nat) (s : State) : frames c (a + b) s = frames c b (frames c a s) := by
  induction b with
  | zero => rfl
  | succ m ih => exact congrArg (frame c) ih

/-- A property every frame keeps, any number of frames keeps. -/
theorem frames_induct {K : State → Prop} (c : Config) (n : Nat) {s : State} (hs : K s)
    (hf : ∀ t, K t → K (frame c t)) : K (frames c n s) := by
  induction n with
  | zero => exact hs
  | succ m ih => exact hf _ ih

end Sys2Proof.Machine
end

