-- ==== Sys2Proof/Laws/Lifecycle.lean ====
section
/-! SUPPORT. What INIT can do (44_engine_lifecycle.md R240), and Teardown of a state that holds nothing (R242). -/

namespace Sys2Proof.Machine

/-- INIT's first part: the rate, the table size and the steal counter are written, a running engine is torn down first. -/
theorem initBegin_spec (rate : F32) (size : Int) (s : State) :
    let u := if s.eng.init then teardown s else s
    let t := initBegin rate size s
    t.eng = { u.eng with sampleRate := rate, tableSize := tableSizeOperand size, rr := 0 } ∧
      t.par = s.par ∧ t.st = s.st ∧ t.dec = s.dec ∧ t.out = s.out ∧ t.input = s.input ∧ t.draws = s.draws ∧
      t.requests = u.requests ∧ t.voices = u.voices := by
  unfold initBegin
  cases h : s.eng.init <;> simp [h]

/-- The tables and the LFO change the engine's unit fields alone. -/
structure TablesOnly (s t : State) : Prop extends SameOutside s t where
  eng    : t.eng = { s.eng with sine := t.eng.sine, tbl1 := t.eng.tbl1, tbl2 := t.eng.tbl2, lfo := t.eng.lfo }
  voices : t.voices = s.voices

theorem TablesOnly.trans {s t u : State} (h : TablesOnly s t) (k : TablesOnly t u) : TablesOnly s u :=
  ⟨h.toSameOutside.trans k.toSameOutside, by rw [k.eng, h.eng], k.voices.trans h.voices⟩

theorem create_tablesOnly {c : Config} {r : Request} {store : State → State} {s : State}
    (h : ∀ t, TablesOnly t (store t)) : TablesOnly s (create c r store s).state := by
  have hask : TablesOnly s { s.ask [r] with draws := s.draws + 1 } := ⟨⟨rfl, rfl, rfl, rfl, rfl⟩, rfl, rfl⟩
  rcases create_cases c r store s with ⟨_, e⟩ | ⟨_, e⟩ <;> rw [e]
  · exact hask.trans (h _)
  · exact hask

theorem initTables_frame (c : Config) (s : State) : TablesOnly s (initTables c s).state := by
  have step {x : Attempt} {f : State → Attempt} (hx : TablesOnly s x.state) (hf : ∀ t, TablesOnly t (f t).state) :
      TablesOnly s (x.andThen f).state := Attempt.andThen_keeps (K := TablesOnly s) hx fun t ht => ht.trans (hf t)
  refine step (step (step (create_tablesOnly fun t => ?_) fun t => create_tablesOnly fun t => ?_)
    fun t => create_tablesOnly fun t => ?_) fun t => ?_
  · exact ⟨⟨rfl, rfl, rfl, rfl, rfl⟩, rfl, rfl⟩
  · exact ⟨⟨rfl, rfl, rfl, rfl, rfl⟩, rfl, rfl⟩
  · exact ⟨⟨rfl, rfl, rfl, rfl, rfl⟩, rfl, rfl⟩
  · simp only [createOsc]
    split
    · exact ⟨⟨rfl, rfl, rfl, rfl, rfl⟩, rfl, rfl⟩
    · exact create_tablesOnly fun t => ⟨⟨rfl, rfl, rfl, rfl, rfl⟩, rfl, rfl⟩

theorem initTables_sure (c : Config) (s : State) : Sure c s (initTables c s) := by
  refine Sure.andThen (Sure.andThen (Sure.andThen (Sure.create fun _ => rfl) fun t => Sure.create fun _ => rfl)
    fun t => Sure.create fun _ => rfl) fun t => ?_
  simp only [createOsc]
  split
  · exact Sure.ok (Nat.le_refl _)
  · exact Sure.create fun _ => rfl

/-- The tables and the LFO that went through are there. -/
theorem initTables_ok {c : Config} {s t : State} (h : initTables c s = .ok t) : t.eng.Equipped := by
  simp only [initTables, Attempt.andThen_eq_ok] at h
  obtain ⟨s3, ⟨s2, ⟨s1, h1, h2⟩, h3⟩, h4⟩ := h
  have e1 := create_ok h1
  have e2 := create_ok h2
  have e3 := create_ok h3
  have hsine : s3.eng.sine = some (c.tblBuild s.draws s.eng.tableSize .sine) := by rw [e3, e2, e1]; rfl
  simp only [createOsc, hsine] at h4
  rw [create_ok h4, e3, e2, e1]
  exact ⟨rfl, rfl, rfl, rfl⟩

/-- INIT's last part, wherever it stands: an initialized engine whose slots are growing. -/
theorem initFinish_grown (c : Config) (s : State) :
    Grown c (s.setEng { s.eng with init := true }) (initFinish c s).state := ensure_grown c _ _

/-- What INIT keeps, wherever it stands. -/
theorem initAttempt_same (c : Config) (rate : F32) (size : Int) (s : State) :
    SameOutside s ((initTables c (initBegin rate size s)).andThen (initFinish c)).state := by
  obtain ⟨_, h2, h3, h4, h5, h6, _⟩ := initBegin_spec rate size s
  refine Attempt.andThen_keeps (K := SameOutside s) ?_ fun t ht => ht.trans ?_
  · exact SameOutside.trans ⟨h2, h3, h4, h5, h6⟩ (initTables_frame c _).toSameOutside
  · have := (initFinish_grown c t).toSameOutside
    exact ⟨this.par, this.st, this.dec, this.out, this.input⟩

theorem initFinish_sure (c : Config) (s : State) : Sure c s (initFinish c s) := (ensure_sure c _ _).of_draws rfl

theorem initAttempt_sure (c : Config) (rate : F32) (size : Int) (s : State) :
    Sure c s ((initTables c (initBegin rate size s)).andThen (initFinish c)) :=
  ((initTables_sure c _).andThen (initFinish_sure c)).of_draws (initBegin_spec rate size s).2.2.2.2.2.2.1

/-! ## Teardown of what holds nothing -/

theorem torn_self {v : Voice} (h : v.Idle) (u : v.Unitless) : v.torn = v ∧ v.releases = [] := by
  obtain ⟨h1, h2, h3, h4⟩ := h
  obtain ⟨u1, u2, u3, u4, u5⟩ := u
  cases v
  simp only at *
  subst_vars
  exact ⟨rfl, rfl⟩

/-- Where every voice is idle and holds no unit, Teardown releases the engine's LFO and tables alone. -/
theorem teardown_clean {s : State} (h : ∀ i, i < NV → (s.voice i).Idle ∧ (s.voice i).Unitless) :
    teardown s = { s with eng := s.eng.torn, requests := s.requests ++ s.eng.releases } := by
  obtain ⟨a1, a2, a3, a4, a5, a6, a7, a8, a9⟩ := teardown_spec s
  have hv : (teardown s).voices = s.voices := voices_ext fun i hi => by
    rw [a9 i hi]; exact (torn_self (h i hi).1 (h i hi).2).1
  have hr : (List.range NV).flatMap (fun i => (s.voice i).releases) = [] := by
    rw [List.flatMap_eq_nil_iff]
    intro i hi
    have hi : i < NV := by simpa using hi
    exact (torn_self (h i hi).1 (h i hi).2).2
  rw [teardownReleases, hr, List.nil_append] at a8
  generalize teardown s = t at *
  cases t; cases s; simp only at *; subst_vars; rfl

/-- An uninitialized engine is torn down already. -/
theorem teardown_down {s : State} (h : Inv s) (hi : s.eng.init = false) : teardown s = s := by
  have hd := h.down hi
  rw [teardown_clean fun i hv => (h.rest i hv (by rw [hd.1]; omega)).symm]
  obtain ⟨b0, b1, b2, b3, b4⟩ := hd
  cases s with | mk e =>
  cases e; simp only at *; subst_vars
  simp [Engine.torn, Engine.releases]

/-- INIT begins from the torn down state, whether or not the engine was running. -/
theorem initBegin_teardown (rate : F32) (size : Int) {s : State} (h : Inv s) :
    initBegin rate size s =
      (teardown s).setEng { (teardown s).eng with sampleRate := rate, tableSize := tableSizeOperand size, rr := 0 } := by
  unfold initBegin
  by_cases hi : s.eng.init = true
  · simp only [hi, if_true]
  · have hi : s.eng.init = false := by simpa using hi
    rw [teardown_down h hi, hi]
    rfl

end Sys2Proof.Machine
end

