-- ==== Sys2Proof/Laws/PerInstr.lean ====
section
/-! SUPPORT. What holds of every instruction as syntax: the header word it is encoded with has its reserved bits clear, its
opcode in bits 7:0 and the number of its operand words in bits 15:8, and that opcode has a row in the map with as many operands
(30_encoding.md R91, R96). -/

namespace Sys2Proof.Laws.EncodedHeader

/-- The header word of `i` says what `i` is. -/
def Statement (i : Instr) : Prop :=
  rsvField i.headerWord = 0 ∧ opcField i.headerWord = i.opcode ∧ lenField i.headerWord = i.operandWords.length ∧
    ∃ row, opcodeRow (opcField i.headerWord) = some row ∧ row.operands.length = lenField i.headerWord

theorem of_instr (i : Instr) : Statement i := by
  obtain ⟨hr, ho, hl⟩ := headerWord_fields i
  obtain ⟨m, ts, hrow, hlen⟩ := opcodeRow_of i
  exact ⟨hr, ho, hl, ⟨i.opcode, m, ts⟩, ho ▸ hrow, hlen.trans hl.symm⟩

theorem init (a : F32) (k : Int) : Statement (.init a k) := of_instr _
theorem shutdown : Statement (.shutdown) := of_instr _
theorem noteOn (k : Int) (v : F32) : Statement (.noteOn k v) := of_instr _
theorem noteOffAll : Statement (.noteOffAll) := of_instr _
theorem noteOffMidi (k : Int) : Statement (.noteOffMidi k) := of_instr _
theorem setAmp (x : F32) : Statement (.setAmp x) := of_instr _
theorem setFreq (x : F32) : Statement (.setFreq x) := of_instr _
theorem setEnv (a : F32) (d : F32) (s : F32) (r : F32) : Statement (.setEnv a d s r) := of_instr _
theorem setPoly (k : Int) : Statement (.setPoly k) := of_instr _
theorem setWave (k : Int) : Statement (.setWave k) := of_instr _
theorem setWave1 (k : Int) : Statement (.setWave1 k) := of_instr _
theorem setWave2 (k : Int) : Statement (.setWave2 k) := of_instr _
theorem setDetune1 (x : F32) : Statement (.setDetune1 x) := of_instr _
theorem setDetune2 (x : F32) : Statement (.setDetune2 x) := of_instr _
theorem setGain1 (x : F32) : Statement (.setGain1 x) := of_instr _
theorem setGain2 (x : F32) : Statement (.setGain2 x) := of_instr _
theorem fm1 (c : F32) (m : F32) (x : F32) : Statement (.fm1 c m x) := of_instr _
theorem fm2 (c : F32) (m : F32) (x : F32) : Statement (.fm2 c m x) := of_instr _
theorem filterSet (x : F32) (q : F32) : Statement (.filterSet x q) := of_instr _
theorem filterEnv (a : F32) (d : F32) (s : F32) (r : F32) : Statement (.filterEnv a d s r) := of_instr _
theorem filterEnvAmount (x : F32) : Statement (.filterEnvAmount x) := of_instr _
theorem lfoSet (x : F32) : Statement (.lfoSet x) := of_instr _
theorem lfoDest (k : Int) : Statement (.lfoDest k) := of_instr _
theorem lfoAmount (x : F32) : Statement (.lfoAmount x) := of_instr _
theorem lfoAmountSemi (x : F32) : Statement (.lfoAmountSemi x) := of_instr _
theorem render (k : Int) : Statement (.render k) := of_instr _

end Sys2Proof.Laws.EncodedHeader
end

