-- ==== Sys2Proof/Laws/SetWave.lean ====
section
/-! SUPPORT. What SetWave can do (43_parameter_store.md R224). -/

namespace Sys2Proof.Machine

theorem recreateOsc_buildsOnly (c : Config) (k : OscSlot) (i : Nat) (s : State) :
    BuildsOnly i s (recreateOsc c k i s).state :=
  ((setVoice_buildsOnly i _ s (setOsc_baseFreq _ _ _)).trans (ask_buildsOnly i _ _)).trans (newOsc_buildsOnly c k i _)

/-- Recreation that went through: the slot's unit is new, and no other field of the voice has changed. -/
theorem recreateOsc_ok {c : Config} {k : OscSlot} {i : Nat} {s t : State} (hi : i < NV) (h : recreateOsc c k i s = .ok t) :
    t.voice i = (s.voice i).setOsc k (freshOsc c s k none) := by
  have hv := newOsc_ok hi h
  rw [voice_ask, voice_setVoice_self _ _ hi, osc_setOsc_self,
    freshOsc_congr c k none (s := s) (by rfl) (by rfl)] at hv
  rw [hv]
  cases k <;> rfl

/-- The recreation loop, wherever it stands, has touched voices below its bound only. -/
theorem recreateBelow_frame (c : Config) (k : OscSlot) (n : Nat) (s : State) :
    SameOutside s (recreateBelow c k n s).state ∧ (recreateBelow c k n s).state.eng = s.eng ∧
      (∀ j, n ≤ j → (recreateBelow c k n s).state.voice j = s.voice j) ∧
      ∀ j, ((recreateBelow c k n s).state.voice j).baseFreq = (s.voice j).baseFreq := by
  induction n with
  | zero => exact ⟨SameOutside.refl s, rfl, fun _ _ => rfl, fun _ => rfl⟩
  | succ m ih =>
    obtain ⟨h1, h2, h3, h4⟩ := ih
    unfold recreateBelow
    cases e : recreateBelow c k m s with
    | fail u =>
      rw [e] at h1 h2 h3 h4
      exact ⟨h1, h2, fun j hj => h3 j (by omega), h4⟩
    | ok u =>
      rw [e] at h1 h2 h3 h4
      have hb := recreateOsc_buildsOnly c k m u
      refine ⟨SameOutside.trans h1 hb.toSameOutside, hb.eng.trans h2, fun j hj => (hb.other j (by omega)).trans (h3 j (by omega)),
        fun j => ?_⟩
      by_cases hj : j = m
      · subst hj
        exact hb.freq.trans (h4 j)
      · exact (congrArg Voice.baseFreq (hb.other j hj)).trans (h4 j)

/-- The recreation loop that went through has made every unit below its bound anew. -/
theorem recreateBelow_ok {c : Config} {k : OscSlot} {n : Nat} {s t : State} (h : recreateBelow c k n s = .ok t)
    (i : Nat) (hi : i < n) (hv : i < NV) : t.voice i = (s.voice i).setOsc k (freshOsc c s k none) := by
  induction n generalizing t with
  | zero => omega
  | succ m ih =>
    unfold recreateBelow at h
    obtain ⟨u, hu, ht⟩ := Attempt.andThen_eq_ok.mp h
    have hf := recreateBelow_frame c k m s
    rw [hu] at hf
    have hb := recreateOsc_buildsOnly c k m u
    rw [ht] at hb
    by_cases him : i = m
    · subst him
      simp only [Attempt.state] at hf
      rw [recreateOsc_ok hv ht, freshOsc_congr c k none hf.1.par hf.2.1, hf.2.2.1 i (Nat.le_refl i)]
    · exact (hb.other i him).trans (ih hu (by omega))

@[simp] theorem rebuildTable_par (c : Config) (k : OscSlot) (sh : Shape) (s : State) : (rebuildTable c k sh s).par = s.par := by
  unfold rebuildTable; split <;> rfl
@[simp] theorem rebuildTable_voices (c : Config) (k : OscSlot) (sh : Shape) (s : State) :
    (rebuildTable c k sh s).voices = s.voices := by unfold rebuildTable; split <;> rfl
@[simp] theorem rebuildTable_draws (c : Config) (k : OscSlot) (sh : Shape) (s : State) :
    (rebuildTable c k sh s).draws = s.draws := by unfold rebuildTable; split <;> rfl

theorem rebuildTable_same (c : Config) (k : OscSlot) (sh : Shape) (s : State) : SameOutside s (rebuildTable c k sh s) := by
  unfold rebuildTable; split <;> exact ⟨rfl, rfl, rfl, rfl, rfl⟩

theorem setTbl_tbl_none {e : Engine} {k : OscSlot} (h : e.tbl k = none) : e.setTbl k none = e := by
  cases k <;> cases e <;> cases h <;> rfl

/-- A rebuild keeps the table's identity and every other engine register. -/
theorem rebuildTable_eng (c : Config) (k : OscSlot) (sh : Shape) (s : State) :
    (rebuildTable c k sh s).eng = s.eng.setTbl k ((s.eng.tbl k).map fun t => { t with contents := c.tblRebuild t sh }) := by
  unfold rebuildTable
  split
  · next e => rw [e]; exact (setTbl_tbl_none e).symm
  · next t e => rw [e]; rfl

/-- The state on which SetWave recreates the units: the register written, the table rebuilt for a type 0..3. -/
def setWaveBegin (c : Config) (k : OscSlot) (type : Int) (s : State) : State :=
  rebuildFor c k (waveOperand type) (s.setPar (s.par.setWave k (waveOperand type)))

theorem setWave_eq (c : Config) (k : OscSlot) (type : Int) (s : State) (h : s.eng.init = true) :
    setWave c k type s = recreateBelow c k s.eng.alloc (setWaveBegin c k type s) := by
  simp only [setWave, h, if_true, setWaveBegin]

theorem setWave_uninit (c : Config) (k : OscSlot) (type : Int) (s : State) (h : s.eng.init = false) :
    setWave c k type s = .ok (s.setPar (s.par.setWave k (waveOperand type))) := by
  simp only [setWave, h, Bool.false_eq_true, if_false]

/-- Everything the beginning of SetWave does. -/
theorem setWaveBegin_spec (c : Config) (k : OscSlot) (type : Int) (s : State) :
    let t := setWaveBegin c k type s
    t.par = s.par.setWave k (waveOperand type) ∧ t.st = s.st ∧ t.dec = s.dec ∧ t.out = s.out ∧ t.input = s.input ∧
      t.voices = s.voices ∧ t.draws = s.draws ∧
      t.eng = match (waveOperand type).shape? with
        | some shape => s.eng.setTbl k ((s.eng.tbl k).map fun t => { t with contents := c.tblRebuild t shape })
        | none => s.eng := by
  unfold setWaveBegin rebuildFor
  cases (waveOperand type).shape? with
  | none => simp
  | some sh =>
    have h := rebuildTable_same c k sh (s.setPar (s.par.setWave k (waveOperand type)))
    have he := rebuildTable_eng c k sh (s.setPar (s.par.setWave k (waveOperand type)))
    exact ⟨h.par, h.st, h.dec, h.out, h.input, rebuildTable_voices .., rebuildTable_draws .., he⟩

/-- The beginning of SetWave keeps every engine register but the slot's table. -/
theorem setWaveBegin_eng (c : Config) (k : OscSlot) (type : Int) (s : State) :
    ∃ t, (setWaveBegin c k type s).eng = s.eng.setTbl k t ∧ t.map TableRef.ref = (s.eng.tbl k).map TableRef.ref ∧
      (waveOperand type = .fm → t = s.eng.tbl k) := by
  have h := (setWaveBegin_spec c k type s).2.2.2.2.2.2.2
  have hself : s.eng.setTbl k (s.eng.tbl k) = s.eng := by cases k <;> rfl
  cases e : (waveOperand type).shape? with
  | none =>
    rw [e] at h
    exact ⟨s.eng.tbl k, h.trans hself.symm, rfl, fun _ => rfl⟩
  | some sh =>
    rw [e] at h
    refine ⟨_, h, ?_, fun hf => ?_⟩
    · cases s.eng.tbl k <;> rfl
    · rw [hf] at e
      cases e

/-- What SetWave keeps, wherever it stands, and what it writes. -/
theorem setWave_frame (c : Config) (k : OscSlot) (type : Int) (s : State) :
    let t := (setWave c k type s).state
    t.st = s.st ∧ t.dec = s.dec ∧ t.out = s.out ∧ t.input = s.input ∧ t.par = s.par.setWave k (waveOperand type) ∧
      t.eng.init = s.eng.init ∧ ∀ j, (t.voice j).baseFreq = (s.voice j).baseFreq := by
  by_cases h : s.eng.init = true
  · rw [setWave_eq c k type s h]
    have f := recreateBelow_frame c k s.eng.alloc (setWaveBegin c k type s)
    obtain ⟨g1, g2, g3, g4, g5, g6, _, _⟩ := setWaveBegin_spec c k type s
    obtain ⟨t, g9, _⟩ := setWaveBegin_eng c k type s
    refine ⟨f.1.st.trans g2, f.1.dec.trans g3, f.1.out.trans g4, f.1.input.trans g5, f.1.par.trans g1, ?_, fun j => ?_⟩
    · rw [f.2.1, g9, setTbl_init]
    · exact (f.2.2.2 j).trans (congrArg Voice.baseFreq (voice_congr g6 j))
  · rw [setWave_uninit c k type s (by simpa using h)]
    exact ⟨rfl, rfl, rfl, rfl, rfl, rfl, fun _ => rfl⟩

theorem setWave_sure (c : Config) (k : OscSlot) (type : Int) (s : State) : Sure c s (setWave c k type s) := by
  by_cases h : s.eng.init = true
  · rw [setWave_eq c k type s h]
    exact (recreateBelow_sure c k _ _).of_draws (setWaveBegin_spec c k type s).2.2.2.2.2.2.1
  · rw [setWave_uninit c k type s (by simpa using h)]
    exact Sure.ok (Nat.le_refl _)

end Sys2Proof.Machine
end

