-- ==== Sys2Proof/Laws/Requests.lean ====
section
/-! SUPPORT. The requests of the creating operations that went through, in order (20_memory.md R80), and what one that failed
still holds (60_exceptions.md R263). -/

namespace Sys2Proof.Machine

/-- What an operation added to the request log, and how many draws it took. -/
structure Asked (s t : State) (rs : List Request) (n : Nat) : Prop where
  requests : t.requests = s.requests ++ rs
  draws    : t.draws = s.draws + n

theorem Asked.trans {s t u : State} {rs qs : List Request} {n m : Nat} (h : Asked s t rs n) (k : Asked t u qs m) :
    Asked s u (rs ++ qs) (n + m) :=
  ⟨by rw [k.requests, h.requests, List.append_assoc], by rw [k.draws, h.draws, Nat.add_assoc]⟩

/-! ## One unit -/

theorem newOsc_asked {c : Config} {k : OscSlot} {i : Nat} {s t : State} {r : TableRef} (hr : unitTable s k = some r)
    (h : newOsc c k i s = .ok t) : Asked s t [.oscNew (s.par.wave k).kind r] 1 := by
  simp only [unitTable] at hr
  simp only [newOsc, createOsc, hr] at h
  rw [create_ok h]
  exact ⟨rfl, rfl⟩

theorem newEnv_asked {c : Config} {r : EnvRole} {i : Nat} {s t : State} (hi : i < NV) (h : newEnv c r i s = .ok t) :
    Asked s t [.envNew, .envSet c.envNew (s.par.adsr r).a (s.par.adsr r).d (s.par.adsr r).s (s.par.adsr r).r] 1 := by
  rw [create_ok h]
  refine ⟨?_, rfl⟩
  rw [pushEnv_requests, voice_setVoice_self _ _ hi, env_setEnv_self]
  simp only [setVoice_requests, setVoice_par, ask_requests, ask_par, List.append_assoc]
  rfl

theorem newFilt_asked {c : Config} {i : Nat} {s t : State} (h : newFilt c i s = .ok t) :
    Asked s t [.filtNew s.eng.sampleRate] 1 := by
  rw [create_ok h]
  exact ⟨rfl, rfl⟩

/-! ## A slot, and Ensure (R131) -/

/-- The seven requests that build a slot, on the tables `r1` and `r2` of its two oscillators. -/
def slotRequests (c : Config) (s : State) (r1 r2 : TableRef) : List Request :=
  [.oscNew s.par.wave1.kind r1, .oscNew s.par.wave2.kind r2,
    .envNew, .envSet c.envNew s.par.envA s.par.envD s.par.envS s.par.envR,
    .envNew, .envSet c.envNew s.par.fenvA s.par.fenvD s.par.fenvS s.par.fenvR, .filtNew s.eng.sampleRate]

theorem createVoiceUnits_asked {c : Config} {i : Nat} {s t : State} {r1 r2 : TableRef} (hi : i < NV)
    (h1 : unitTable s .one = some r1) (h2 : unitTable s .two = some r2) (h : createVoiceUnits c i s = .ok t) :
    Asked s t (slotRequests c s r1 r2) 5 := by
  simp only [createVoiceUnits, Attempt.andThen_eq_ok] at h
  obtain ⟨s4, ⟨s3, ⟨s2, ⟨s1, e1, e2⟩, e3⟩, e4⟩, s5, e5, e6⟩ := h
  have b1 : BuildsOnly i s s1 := by simpa [e1, Attempt.state] using newOsc_buildsOnly c .one i s
  have b2 : BuildsOnly i s s2 := b1.trans (by simpa [e2, Attempt.state] using newOsc_buildsOnly c .two i s1)
  have b3 : BuildsOnly i s s3 := b2.trans (by simpa [e3, Attempt.state] using newEnv_buildsOnly c .amp i s2)
  have b4 : BuildsOnly i s s4 := b3.trans (by simpa [e4, Attempt.state] using newEnv_buildsOnly c .filt i s3)
  have a1 := newOsc_asked h1 e1
  have a2 := newOsc_asked (s := s1) (r := r2) (by simp only [unitTable, b1.par, b1.eng] at h2 ⊢; exact h2) e2
  have a3 := newEnv_asked hi e3
  have a4 := newEnv_asked hi e4
  have a5 := newFilt_asked e5
  rw [b1.par] at a2
  rw [b2.par] at a3
  rw [b3.par] at a4
  rw [b4.eng] at a5
  have e := (((a1.trans a2).trans a3).trans a4).trans a5
  cases Attempt.ok.inj e6
  exact ⟨e.requests, e.draws⟩

theorem growBy_asked {c : Config} {k : Nat} {s t : State} {r1 r2 : TableRef} (hk : s.eng.alloc + k ≤ NV)
    (h1 : unitTable s .one = some r1) (h2 : unitTable s .two = some r2) (h : growBy c k s = .ok t) :
    Asked s t (List.replicate k (slotRequests c s r1 r2)).flatten (5 * k) := by
  induction k generalizing t with
  | zero => cases Attempt.ok.inj h; exact ⟨(List.append_nil _).symm, rfl⟩
  | succ m ih =>
    obtain ⟨u, hu, ht⟩ := Attempt.andThen_eq_ok.mp h
    obtain ⟨v, hv, hw⟩ := Attempt.andThen_eq_ok.mp ht
    have a := ih (by omega) hu
    obtain ⟨hg, hok⟩ := growBy_grown c m s
    rw [hu] at hg
    simp only [Attempt.state] at hg
    have hl := (hok u hu).1
    have htab (k : OscSlot) : unitTable u k = unitTable s k := by
      simp only [unitTable, hg.par]; rw [hg.eng]; cases k <;> rfl
    have b := createVoiceUnits_asked (r1 := r1) (r2 := r2) (by omega) (by rw [htab]; exact h1) (by rw [htab]; exact h2) hv
    have hs : slotRequests c u r1 r2 = slotRequests c s r1 r2 := by simp only [slotRequests, hg.par]; rw [hg.eng]
    rw [hs] at b
    cases Attempt.ok.inj hw
    refine ⟨?_, ?_⟩
    · rw [setEng_requests, (a.trans b).requests, List.replicate_succ', List.flatten_append]
      simp
    · rw [setEng_draws, (a.trans b).draws]; omega

theorem ensure_asked {c : Config} {n : Nat} {s t : State} {r1 r2 : TableRef} (hn : n ≤ NV)
    (h1 : unitTable s .one = some r1) (h2 : unitTable s .two = some r2) (h : ensure c n s = .ok t) :
    Asked s t (List.replicate (n - s.eng.alloc) (slotRequests c s r1 r2)).flatten (5 * (n - s.eng.alloc)) := by
  by_cases hl : s.eng.alloc ≤ n
  · exact growBy_asked (by omega) h1 h2 h
  · rw [ensure, show n - s.eng.alloc = 0 by omega] at h
    cases Attempt.ok.inj h
    rw [show n - s.eng.alloc = 0 by omega]
    exact ⟨(List.append_nil _).symm, rfl⟩

/-! ## SetWave (R224) -/

theorem recreateOsc_asked {c : Config} {k : OscSlot} {i : Nat} {s t : State} {r : TableRef} (hr : unitTable s k = some r)
    (h : recreateOsc c k i s = .ok t) :
    Asked s t ((((s.voice i).osc k).map Request.releaseOsc).toList ++ [.oscNew (s.par.wave k).kind r]) 1 := by
  have a := newOsc_asked (s := _) (r := r) (by exact hr) h
  exact ⟨by rw [a.requests, ask_requests, setVoice_requests, List.append_assoc]; rfl, a.draws⟩

theorem recreateBelow_asked {c : Config} {k : OscSlot} {n : Nat} {s t : State} {r : TableRef} (hr : unitTable s k = some r)
    (h : recreateBelow c k n s = .ok t) :
    Asked s t ((List.range n).flatMap fun i =>
      (((s.voice i).osc k).map Request.releaseOsc).toList ++ [.oscNew (s.par.wave k).kind r]) n := by
  induction n generalizing t with
  | zero => cases Attempt.ok.inj h; exact ⟨(List.append_nil _).symm, rfl⟩
  | succ m ih =>
    obtain ⟨u, hu, ht⟩ := Attempt.andThen_eq_ok.mp h
    have f := recreateBelow_frame c k m s
    rw [hu] at f
    simp only [Attempt.state] at f
    have a := recreateOsc_asked (r := r) (by simp only [unitTable, f.1.par, f.2.1] at hr ⊢; exact hr) ht
    rw [f.1.par, f.2.2.1 m (Nat.le_refl m)] at a
    have e := (ih hu).trans a
    exact ⟨by rw [e.requests, List.range_succ, List.flatMap_append, List.flatMap_singleton], e.draws⟩

/-- Two voices that differ at most in slot `k`'s unit. -/
def SameButOsc (k : OscSlot) (v w : Voice) : Prop := ∃ o, w = v.setOsc k o

theorem SameButOsc.refl (k : OscSlot) (v : Voice) : SameButOsc k v v := ⟨v.osc k, by cases k <;> rfl⟩

theorem SameButOsc.trans {k : OscSlot} {u v w : Voice} (h : SameButOsc k u v) (g : SameButOsc k v w) : SameButOsc k u w := by
  obtain ⟨o, rfl⟩ := h
  obtain ⟨p, rfl⟩ := g
  exact ⟨p, by cases k <;> rfl⟩

theorem setVoice_sameButOsc (k : OscSlot) (i j : Nat) (o : Option OscState) (s : State) :
    SameButOsc k (s.voice j) ((s.setVoice i ((s.voice i).setOsc k o)).voice j) := by
  rw [voice_setVoice]
  split
  · next h => rw [← h.1]; exact ⟨o, rfl⟩
  · exact SameButOsc.refl k _

theorem newOsc_sameButOsc (c : Config) (k : OscSlot) (i j : Nat) (s : State) :
    SameButOsc k (s.voice j) ((newOsc c k i s).state.voice j) := by
  simp only [newOsc, createOsc]
  split
  · exact SameButOsc.refl k _
  · rcases create_cases c _ _ s with ⟨_, e⟩ | ⟨_, e⟩ <;> rw [e]
    · exact setVoice_sameButOsc k i j _ { s.ask _ with draws := s.draws + 1 }
    · exact SameButOsc.refl k _

/-- The recreation loop, wherever it stands, has changed no field of a voice but the slot's unit. -/
theorem recreateBelow_sameButOsc (c : Config) (k : OscSlot) (n j : Nat) (s : State) :
    SameButOsc k (s.voice j) ((recreateBelow c k n s).state.voice j) := by
  induction n with
  | zero => exact SameButOsc.refl k _
  | succ m ih =>
    refine Attempt.andThen_keeps (K := fun t => SameButOsc k (s.voice j) (t.voice j)) ih fun t ht => ht.trans ?_
    exact (setVoice_sameButOsc k m j none t).trans (newOsc_sameButOsc c k m j _)

end Sys2Proof.Machine
end

