-- ==== Sys2Proof/Laws/VoicePool.lean ====
section
/-! SUPPORT. What the voice pool's note commands can do (40_voice_pool.md R132 to R136). -/

namespace Sys2Proof.Machine

/-! ## NOTE_ON -/

theorem free_iff (v : Voice) : v.free = true ↔ v.active = false ∧ fle v.gate posZero = true := by simp [Voice.free]

theorem firstFree_eq_some {s : State} {i : Nat} (h : i < s.par.poly) (hf : (s.voice i).free = true)
    (hn : ∀ j, j < i → ¬(s.voice j).free = true) : firstFree s = some i := by
  unfold firstFree
  rw [List.find?_range_eq_some]
  exact ⟨hf, by simpa using h, fun j hj => by simpa using hn j hj⟩

theorem firstFree_eq_none {s : State} (h : ∀ j, j < s.par.poly → ¬(s.voice j).free = true) : firstFree s = none := by
  unfold firstFree
  rw [List.find?_eq_none]
  intro j hj
  exact h j (by simpa using hj)

/-- Allocate answers a considered slot. -/
theorem allocate_lt {s : State} (h : 1 ≤ s.par.poly) : (allocate s).1 < s.par.poly := by
  unfold allocate
  split
  · next i e =>
    unfold firstFree at e
    have := List.mem_of_find?_eq_some e
    simpa using this
  · exact Nat.mod_lt _ h

/-- Allocate writes `E.rr` alone. -/
theorem allocate_state (s : State) : (allocate s).2 = s.setEng { s.eng with rr := (allocate s).2.eng.rr } := by
  unfold allocate
  split <;> rfl

/-- The voice NOTE_ON leaves in its slot. -/
theorem startNote_voice (c : Config) {i : Nat} (hi : i < NV) (m : Int) (v : F32) (s : State) :
    (startNote c i m v s).voice i = { s.voice i with
      active := true, gate := one, midi := m
      baseFreq := midiToHz c m, velocity := clamp v VEL_MIN VEL_MAX
      aenv := envAfterSet c (s.par.adsr .amp) (s.voice i).aenv
      fenv := envAfterSet c (s.par.adsr .filt) (s.voice i).fenv } := by
  unfold startNote
  simp only [voice_setVoice_self _ _ hi, pushEnv_voice_self c _ _ hi, pushEnv_par, setVoice_par]
  rfl

theorem startNote_voice_ne (c : Config) {i j : Nat} (h : j ≠ i) (m : Int) (v : F32) (s : State) :
    (startNote c i m v s).voice j = s.voice j := by
  unfold startNote
  simp only [voice_setVoice_ne _ _ h.symm, pushEnv_voice_ne c _ _ h.symm]

/-- NOTE_ON writes its voice and makes two requests. -/
theorem startNote_frame (c : Config) (i : Nat) (m : Int) (v : F32) (s : State) :
    let t := startNote c i m v s
    t.eng = s.eng ∧ t.par = s.par ∧ t.st = s.st ∧ t.dec = s.dec ∧ t.out = s.out ∧ t.input = s.input ∧ t.draws = s.draws := by
  simp only [startNote, setVoice_eng, setVoice_par, setVoice_st, setVoice_dec, setVoice_out, setVoice_input, setVoice_draws,
    pushEnv_eng, pushEnv_par, pushEnv_st, pushEnv_dec, pushEnv_out, pushEnv_input, pushEnv_draws, and_self]

theorem startNote_requests (c : Config) {i : Nat} (hi : i < NV) (m : Int) (v : F32) (s : State) :
    (startNote c i m v s).requests =
      s.requests ++ envSetRequest (s.par.adsr .amp) (s.voice i).aenv ++ envSetRequest (s.par.adsr .filt) (s.voice i).fenv := by
  unfold startNote
  simp only [setVoice_requests, pushEnv_requests, voice_setVoice_self _ _ hi, pushEnv_voice_self c _ _ hi, pushEnv_par,
    setVoice_par]
  rfl

/-! ## NOTE_OFF -/

/-- The voice one pass of a NOTE_OFF leaves. -/
def offVoice (which : Voice → Bool) (v : Voice) : Voice :=
  if v.active && which v then { v with gate := posZero } else v

theorem gateOff_voice_self (which : Voice → Bool) {i : Nat} (s : State) (h : i < NV) :
    (gateOff which i s).voice i = offVoice which (s.voice i) := by
  unfold gateOff offVoice
  split
  · exact voice_setVoice_self _ _ h
  · rfl

theorem gateOff_voice_ne (which : Voice → Bool) {i j : Nat} (s : State) (h : i ≠ j) :
    (gateOff which i s).voice j = s.voice j := by
  unfold gateOff
  split
  · exact voice_setVoice_ne _ _ h
  · rfl

/-- The loop of the NOTE_OFF commands: the picked voices below the bound, and nothing else. -/
theorem gateOffs_spec (which : Voice → Bool) (n : Nat) (s : State) :
    let t := forBelow n (gateOff which) s
    (∀ i, i < NV → t.voice i = if i < n then offVoice which (s.voice i) else s.voice i) ∧
      t.eng = s.eng ∧ t.par = s.par ∧ t.st = s.st ∧ t.dec = s.dec ∧ t.out = s.out ∧ t.input = s.input ∧
      t.requests = s.requests ∧ t.draws = s.draws := by
  have keeps {α : Type} (π : State → α) (h : ∀ i v t, π (State.setVoice t i v) = π t) :
      π (forBelow n (gateOff which) s) = π s :=
    forBelow_eq (π := π) (body := gateOff which) (fun i t => by unfold gateOff; split <;> [exact h _ _ _; rfl]) _ _
  refine ⟨fun i hi => ?_, keeps State.eng fun _ _ _ => rfl, keeps State.par fun _ _ _ => rfl, keeps State.st fun _ _ _ => rfl,
    keeps State.dec fun _ _ _ => rfl, keeps State.out fun _ _ _ => rfl, keeps State.input fun _ _ _ => rfl,
    keeps State.requests fun _ _ _ => rfl, keeps State.draws fun _ _ _ => rfl⟩
  exact forBelow_voice (K := fun _ => True) (body := gateOff which) (f := fun _ v => offVoice which v) trivial
    (fun _ _ _ => trivial) (fun i t _ h => gateOff_voice_self which t h) (fun i j t h => gateOff_voice_ne which t h) n i hi

end Sys2Proof.Machine
end

