-- ==== Sys2Proof/Tests/Slice0.lean ====
section
/-! SUPPORT. Tests. Expected words and values are those of 30_encoding.md R96 and 95_test_vectors.md, or are worked by hand from
the rule named. `stub` is the stub library `T` of 95_test_vectors.md, with `LFO` scripts and failing draws as it says, and
`running` the state its prelude `PRE` ends in. A `witness_…` theorem shows a concrete state and operands that meet all the
hypotheses of the obligation it is named after, clause by clause where it has several. -/

namespace Sys2Proof.Tests

open Sys2Proof Sys2Proof.Machine

set_option Elab.async false

/-! ## The test configuration -/

/-- The stub `T`: a wavetable unit on `tbl1` gives 0.5, on `tbl2` 0.25, on the sine table the LFO script's next value; an FM unit
gives 0.125; an envelope gives its gate; a filter gives its input. A creation fails where `fails` lists its draw. A Fatal keeps what its command wrote, as vectors F-4 and F-5 have it. -/
def stub (script : List F32) (fails : List Nat) : Config where
  pow2Raw x := x
  nanRaw := 0x7FC00000#32
  resetReal n := BitVec.ofNat 32 n
  resetInt n := n
  resetOpen n := BitVec.ofNat 32 n
  tblBuild d _ _ := ⟨d, 0⟩
  tblRebuild t _ := t.contents + 1
  oscNew _ t := t.ref
  oscStep o _ :=
    if o.code % 8 = 1 then (0x3F000000#32, o.code)
    else if o.code % 8 = 2 then (0x3E800000#32, o.code)
    else (script.getD (o.code / 8) posZero, o.code + 8)
  fmStep o _ _ _ _ := (0x3E000000#32, o.code)
  envNew := ⟨0⟩
  envSet e _ _ _ _ := ⟨e.code + 1⟩
  envStep e g := (g, e)
  filtNew _ := ⟨0⟩
  filtStep f x _ _ := (x, f)
  createFails d _ := fails.contains d
  fatalRestores := false
  noUnitSample := posZero

/-- The parameter registers after `PRE`. -/
def presetPar : Params where
  masterAmp := one
  envA := posZero
  envD := posZero
  envS := one
  envR := posZero
  poly := 4
  wave1 := .sine
  wave2 := .sine
  detune1 := posZero
  detune2 := posZero
  gain1 := one
  gain2 := posZero
  fm1Carrier := one
  fm1Mod := one
  fm1Index := posZero
  fm2Carrier := one
  fm2Mod := one
  fm2Index := posZero
  cutoff := 0x447A0000#32
  res := 0x3F000000#32
  fenvA := posZero
  fenvD := posZero
  fenvS := posZero
  fenvR := posZero
  fenvAmount := posZero
  lfoRate := one
  lfoDest := .pitch
  lfoAmount := posZero

/-- Power-on reset, then `PRE`'s parameter registers. -/
def cold : State := { State.powerOn (stub [] []) with par := presetPar }

/-- The state after `PRE`. -/
def running : State := initEngine (stub [] []) 0x472C4400#32 2048 cold

/-- Note 69 sounding in slot 0. -/
def playing : State := noteOn (stub [] []) 69 one running

/-- Notes 60, 62, 64, 65 in the four slots. -/
def full : State :=
  noteOn (stub [] []) 65 one (noteOn (stub [] []) 64 one (noteOn (stub [] []) 62 one (noteOn (stub [] []) 60 one running)))

/-- `PRE` with an FM unit in slot 2 of every voice, note 69 sounding. -/
def fmPlaying : State :=
  noteOn (stub [] []) 69 one
    { ((setWave (stub [] []) .two 4 running).orFatal (stub [] []) running) with
      par := { presetPar with wave2 := .fm, gain2 := one, fm2Mod := two, fm2Index := 0x40400000#32, lfoDest := .fm2, lfoAmount := one } }

/-! ## Ill-formed terms are refused (R92: an `i32` operand is the `s32` of a 32-bit word) -/

theorem test_wf_refuses_init : (Instr.init one (2 ^ 31)).wellFormed = false := by decide
theorem test_wf_refuses_noteOn : (Instr.noteOn (-(2 ^ 31) - 1) one).wellFormed = false := by decide
theorem test_wf_refuses_noteOffMidi : (Instr.noteOffMidi (2 ^ 31)).wellFormed = false := by decide
theorem test_wf_refuses_setPoly : (Instr.setPoly (2 ^ 31)).wellFormed = false := by decide
theorem test_wf_refuses_setWave : (Instr.setWave (-(2 ^ 31) - 1)).wellFormed = false := by decide
theorem test_wf_refuses_setWave1 : (Instr.setWave1 (2 ^ 31)).wellFormed = false := by decide
theorem test_wf_refuses_setWave2 : (Instr.setWave2 (2 ^ 32)).wellFormed = false := by decide
theorem test_wf_refuses_lfoDest : (Instr.lfoDest (-(2 ^ 31) - 1)).wellFormed = false := by decide
theorem test_wf_refuses_render : (Instr.render (2 ^ 31)).wellFormed = false := by decide
theorem test_wf_takes_the_ends :
    (Instr.render (2 ^ 31 - 1)).wellFormed = true ∧ (Instr.render (-(2 ^ 31))).wellFormed = true := by decide

/-! ## Each constructor's words, from R96 and the test vectors -/

theorem test_decode_init :
    decodeWords [0x00000201#32, 0x473B8000#32, 0xFFFFFFFF#32] = .ok (.init 0x473B8000#32 (-1)) := by decide
theorem test_decode_shutdown :
    decodeWords [0x00000002#32] = .ok (.shutdown) := by decide
theorem test_decode_noteOn :
    decodeWords [0x00000203#32, 0xFFFFFFFB#32, 0x3F4CCCCD#32] = .ok (.noteOn (-5) 0x3F4CCCCD#32) := by decide
theorem test_decode_noteOffAll :
    decodeWords [0x00000004#32] = .ok (.noteOffAll) := by decide
theorem test_decode_noteOffMidi :
    decodeWords [0x00000105#32, 0x0000003C#32] = .ok (.noteOffMidi 60) := by decide
theorem test_decode_setAmp :
    decodeWords [0x00000106#32, 0x3F000000#32] = .ok (.setAmp 0x3F000000#32) := by decide
theorem test_decode_setFreq :
    decodeWords [0x00000107#32, 0x447A0000#32] = .ok (.setFreq 0x447A0000#32) := by decide
theorem test_decode_setEnv :
    decodeWords [0x00000408#32, 0x3C23D70A#32, 0x3DCCCCCD#32, 0x3F333333#32, 0x3E99999A#32] = .ok (.setEnv 0x3C23D70A#32 0x3DCCCCCD#32 0x3F333333#32 0x3E99999A#32) := by decide
theorem test_decode_setPoly :
    decodeWords [0x00000109#32, 0x00000014#32] = .ok (.setPoly 20) := by decide
theorem test_decode_setWave :
    decodeWords [0x0000010A#32, 0x00000001#32] = .ok (.setWave 1) := by decide
theorem test_decode_setWave1 :
    decodeWords [0x0000010B#32, 0x00000007#32] = .ok (.setWave1 7) := by decide
theorem test_decode_setWave2 :
    decodeWords [0x0000010C#32, 0x00000004#32] = .ok (.setWave2 4) := by decide
theorem test_decode_setDetune1 :
    decodeWords [0x0000010D#32, 0x41400000#32] = .ok (.setDetune1 0x41400000#32) := by decide
theorem test_decode_setDetune2 :
    decodeWords [0x0000010E#32, 0xC1400000#32] = .ok (.setDetune2 0xC1400000#32) := by decide
theorem test_decode_setGain1 :
    decodeWords [0x0000010F#32, 0x40400000#32] = .ok (.setGain1 0x40400000#32) := by decide
theorem test_decode_setGain2 :
    decodeWords [0x00000110#32, 0x3F800000#32] = .ok (.setGain2 0x3F800000#32) := by decide
theorem test_decode_fm1 :
    decodeWords [0x00000311#32, 0x3F800000#32, 0x40000000#32, 0x40400000#32] = .ok (.fm1 0x3F800000#32 0x40000000#32 0x40400000#32) := by decide
theorem test_decode_fm2 :
    decodeWords [0x00000312#32, 0x3F800000#32, 0x40000000#32, 0x40400000#32] = .ok (.fm2 0x3F800000#32 0x40000000#32 0x40400000#32) := by decide
theorem test_decode_filterSet :
    decodeWords [0x00000213#32, 0x49742400#32, 0x3F666666#32] = .ok (.filterSet 0x49742400#32 0x3F666666#32) := by decide
theorem test_decode_filterEnv :
    decodeWords [0x00000414#32, 0x00000001#32, 0x00000002#32, 0x00000003#32, 0x00000004#32] = .ok (.filterEnv 1#32 2#32 3#32 4#32) := by decide
theorem test_decode_filterEnvAmount :
    decodeWords [0x00000115#32, 0x457A0000#32] = .ok (.filterEnvAmount 0x457A0000#32) := by decide
theorem test_decode_lfoSet :
    decodeWords [0x00000116#32, 0x40A00000#32] = .ok (.lfoSet 0x40A00000#32) := by decide
theorem test_decode_lfoDest :
    decodeWords [0x00000117#32, 0xFFFFFFFD#32] = .ok (.lfoDest (-3)) := by decide
theorem test_decode_lfoAmount :
    decodeWords [0x00000118#32, 0x3FC00000#32] = .ok (.lfoAmount 0x3FC00000#32) := by decide
theorem test_decode_lfoAmountSemi :
    decodeWords [0x00000119#32, 0x41400000#32] = .ok (.lfoAmountSemi 0x41400000#32) := by decide
theorem test_decode_render :
    decodeWords [0x0000011A#32, 0xFFFFFFFF#32] = .ok (.render (-1)) := by decide
theorem test_decode_table_word :
    decodeTableWord 32 0x00000408 = some (.setEnv 0 0 0 0) ∧ decodeTableWord 32 0x00010004 = none ∧
      decodeTableWord 96 0x3F8000000000003C00000203 = some (.noteOn 60 one) := by decide

/-- Vectors E-3, E-5, E-7 of L2.1. -/
theorem test_decode_illegal :
    decodeWords [0x000000FF#32] = .error .undefinedOpcode ∧
      decodeWords [0x00010203#32, 0x0000003C#32, 0x3F800000#32] = .error .reservedBits ∧
      decodeWords [0x00000303#32, 0x0000003C#32, 0x3F800000#32, 0#32] = .error .badLength := by decide

/-! ## One command, under `T` -/

/-- The state a command leaves. -/
def result (i : Instr) (s : State) : State :=
  match exec i s with
  | .next t => t
  | .fault _ => s
  | .refused _ => s

/-- Vector I-1, and the state after `PRE`. -/
theorem test_init_replaces_small_table :
    (initEngine (stub [] []) 0x472C4400#32 10 cold).eng =
      { init := true, sampleRate := 0x472C4400#32, tableSize := 2048#32, alloc := 4, rr := 0, lfo := some ⟨.wt, 0⟩
        sine := some ⟨0, 0⟩, tbl1 := some ⟨1, 0⟩, tbl2 := some ⟨2, 0⟩ } := by decide +kernel

/-- Vector F-1: the third table fails, and the two built are released. -/
theorem test_init_fatal_releases_what_it_built :
    statusWord (initEngine (stub [] [2]) 0x472C4400#32 2048 cold) = 0x00001004#32 ∧
      (initEngine (stub [] [2]) 0x472C4400#32 2048 cold).requests =
        [.tblBuild 2048 .sine, .tblBuild 2048 .sine, .tblBuild 2048 .sine, .releaseTbl ⟨1, 0⟩, .releaseTbl ⟨0, 0⟩] := by
  decide +kernel

/-- Vector I-6. -/
theorem test_shutdown_idles_everything :
    statusWord (result .shutdown playing) = 0#32 ∧ (result .shutdown playing).eng.alloc = 0 ∧
      (result .shutdown playing).voice 0 = Voice.blank 0x43DC0000#32 := by decide +kernel

/-- Vector V-1. -/
theorem test_note_on_writes_the_voice :
    let v := (noteOn (stub [] []) 69 0x3F4CCCCD#32 running).voice 0
    (v.active, v.gate, v.midi, v.baseFreq, v.velocity) = (true, one, 69, 0x43DC0000#32, 0x3F4CCCCD#32) := by decide +kernel

/-- Program L3-1: the fifth note steals slot 0. -/
theorem test_note_on_steals_slot_0 :
    ((noteOn (stub [] []) 67 one full).voice 0).midi = 67 ∧ ((noteOn (stub [] []) 67 one full).voice 1).midi = 62 ∧
      (noteOn (stub [] []) 67 one full).eng.rr = 1 := by decide +kernel

/-- Vector V-9. -/
theorem test_note_off_all_clears_gates :
    ((result .noteOffAll full).voice 3).gate = posZero ∧ ((result .noteOffAll full).voice 3).active = true := by decide +kernel

/-- Vectors V-7 and V-8. -/
theorem test_note_off_midi_matches_the_note :
    ((result (.noteOffMidi 62) full).voice 1).gate = posZero ∧ ((result (.noteOffMidi 62) full).voice 2).gate = one ∧
      result (.noteOffMidi 61) full = full := by decide +kernel

/-- Vector V-15. -/
theorem test_set_freq_keeps_midi :
    ((result (.setFreq 0x447A0000#32) playing).voice 0).baseFreq = 0x447A0000#32 ∧
      ((result (.setFreq 0x447A0000#32) playing).voice 0).midi = 69 ∧
      ((result (.setFreq 0x447A0000#32) playing).voice 3).baseFreq = 0x447A0000#32 := by decide +kernel

/-- Vectors V-11 and V-12. -/
theorem test_set_poly_clamps :
    ((setPoly (stub [] []) 0 running).par.poly, (setPoly (stub [] []) 0 running).eng.alloc) = (1, 4) ∧
      ((setPoly (stub [] []) 20 running).par.poly, (setPoly (stub [] []) 20 running).eng.alloc) = (16, 16) := by decide +kernel

/-- Vector P-6: both tables rebuilt as saw. -/
theorem test_set_wave_takes_both_slots :
    let t := ((setWave (stub [] []) .one 1 running).andThen (setWave (stub [] []) .two 1)).orFatal (stub [] []) running
    (t.par.wave1, t.par.wave2, t.eng.tbl1, t.eng.tbl2) = (.saw, .saw, some ⟨1, 1⟩, some ⟨2, 1⟩) := by decide +kernel

/-- Vector P-4: 7 is FM, and the table is not rebuilt. -/
theorem test_set_wave1_clamps_to_fm :
    let t := (setWave (stub [] []) .one 7 running).orFatal (stub [] []) running
    (t.par.wave1, t.eng.tbl1, (t.voice 3).osc1, (t.voice 3).osc2) = (.fm, some ⟨1, 0⟩, some ⟨.fm, 0⟩, some ⟨.wt, 2⟩) := by
  decide +kernel

/-- Vector F-5's kind of failure, on slot 2 of the second voice: the polyphony and the type are kept, the engine is down. -/
theorem test_set_wave2_fatal_keeps_parameters :
    let t := (setWave (stub [] [25]) .two 2 running).orFatal (stub [] [25]) running
    (t.par.wave2, t.par.wave1, t.eng.init, t.eng.alloc, statusWord t) = (.square, .sine, false, 0, 0x00001004#32) := by
  decide +kernel

/-- Vector F-4: draw 29 is slot 5's osc1. With R266's sentence the polyphony would be the 4 of before. -/
theorem test_set_poly_fatal :
    let t := setPoly (stub [] [29]) 8 running
    let u := setPoly { stub [] [29] with fatalRestores := true } 8 running
    (t.par.poly, t.eng.init, t.eng.alloc, statusWord t) = (8, false, 0, 0x00001004#32) ∧
      (u.par.poly, u.eng.init, u.eng.alloc, statusWord u, u.requests == t.requests) =
        (4, false, 0, 0x00001004#32, true) := by decide +kernel

/-- Vector P-1. -/
theorem test_set_amp_on_a_cold_engine :
    (result (.setAmp 0x3F000000#32) cold).par.masterAmp = 0x3F000000#32 ∧
      (result (.setAmp 0x3F000000#32) cold).eng.init = false := by decide +kernel

/-- Vector P-2: four requests, to `V[0..3].aenv`. -/
theorem test_set_env_reaches_four_voices :
    let t := setEnv (stub [] []) 1#32 2#32 3#32 4#32 running
    (t.par.envA, t.par.envD, t.par.envS, t.par.envR) = (1#32, 2#32, 3#32, 4#32) ∧
      t.requests.drop running.requests.length = List.replicate 4 (.envSet ⟨1⟩ 1#32 2#32 3#32 4#32) := by decide +kernel

/-- As vector P-3, with four slots. -/
theorem test_filter_env_reaches_four_voices :
    let t := filterEnv (stub [] []) 1#32 2#32 3#32 4#32 running
    (t.par.fenvA, t.par.fenvD, t.par.fenvS, t.par.fenvR) = (1#32, 2#32, 3#32, 4#32) ∧ (t.voice 3).fenv = some ⟨2⟩ ∧
      (t.voice 3).aenv = some ⟨1⟩ := by decide +kernel

theorem test_set_detune1 : (result (.setDetune1 7#32) cold).par = { presetPar with detune1 := 7#32 } := by decide +kernel
theorem test_set_detune2 : (result (.setDetune2 7#32) cold).par = { presetPar with detune2 := 7#32 } := by decide +kernel
theorem test_set_gain1 : (result (.setGain1 7#32) cold).par = { presetPar with gain1 := 7#32 } := by decide +kernel
theorem test_set_gain2 : (result (.setGain2 7#32) cold).par = { presetPar with gain2 := 7#32 } := by decide +kernel
theorem test_fm1 : (result (.fm1 1#32 2#32 3#32) cold).par =
    { presetPar with fm1Carrier := 1#32, fm1Mod := 2#32, fm1Index := 3#32 } := by decide +kernel
theorem test_fm2 : (result (.fm2 1#32 2#32 3#32) cold).par =
    { presetPar with fm2Carrier := 1#32, fm2Mod := 2#32, fm2Index := 3#32 } := by decide +kernel
theorem test_filter_set : (result (.filterSet 1#32 2#32) cold).par = { presetPar with cutoff := 1#32, res := 2#32 } := by
  decide +kernel
theorem test_filter_env_amount : (result (.filterEnvAmount 7#32) cold).par = { presetPar with fenvAmount := 7#32 } := by
  decide +kernel
theorem test_lfo_set : (result (.lfoSet 7#32) cold).par = { presetPar with lfoRate := 7#32 } := by decide +kernel

/-- L2.3: −3 gives 0 and 9 gives 7. -/
theorem test_lfo_dest_clamps :
    (result (.lfoDest (-3)) fmPlaying).par.lfoDest = .pitch ∧ (result (.lfoDest 9) cold).par.lfoDest = .fm2 := by decide +kernel

theorem test_lfo_amount : (result (.lfoAmount 7#32) cold).par = { presetPar with lfoAmount := 7#32 } := by decide +kernel

/-- L2.3: it selects pitch, whatever was selected. -/
theorem test_lfo_amount_semi_selects_pitch :
    (result (.lfoAmountSemi 0x41400000#32) fmPlaying).par.lfoDest = .pitch ∧
      (result (.lfoAmountSemi 0x41400000#32) fmPlaying).par.lfoAmount = 0x41400000#32 := by decide +kernel

/-- Vectors S-3 and S-1: the LFO at −1.0 with amount 12 halves the frequency; one word, 0.5, is emitted. -/
theorem test_render_pitch_lfo :
    let t := render (stub [0xBF800000#32] []) 1 { playing with par := { presetPar with lfoAmount := 0x41400000#32 } }
    t.out = [0x3F000000#32] ∧ t.requests.drop playing.requests.length =
      [.oscStep ⟨.wt, 0⟩ one, .oscStep ⟨.wt, 1⟩ 0x435C0000#32, .oscStep ⟨.wt, 2⟩ 0x435C0000#32, .envStep ⟨2⟩ one,
        .filtStep ⟨0⟩ 0x3F000000#32 0x447A0000#32 0x3F000000#32, .envStep ⟨2⟩ one] := by decide +kernel

/-- Vector S-17, and −1 frames. -/
theorem test_render_fm_slot :
    (render (stub [0x3F000000#32] []) 1 fmPlaying).out = [0x3F200000#32] ∧
      Request.fmStep ⟨.fm, 0⟩ 0x43DC0000#32 one two 0x40600000#32 ∈
        (render (stub [0x3F000000#32] []) 1 fmPlaying).requests ∧
      render (stub [0x3F000000#32] []) (-1) fmPlaying = fmPlaying := by decide +kernel

/-- Vector S-21: a bound below 20 Hz; 5.0 goes to 20.0 and 1000.0 to the bound. -/
theorem test_cutoff_with_empty_range :
    let r := route (stub [] []) presetPar posZero
    cutoffOf (stub [] []) presetPar r 0x43480000#32 posZero = posZero ∧
      cutoffOf (stub [] []) { presetPar with cutoff := 0x40A00000#32 } r 0x43480000#32 posZero = 0x41A00000#32 := by
  decide +kernel

/-! ## Binary32 arithmetic, worked by hand -/

/-- 0.1 + 0.2 rounds to 0x3E99999A; the smallest normal halved is a subnormal; 1/3 rounds up; overflow gives infinity. -/
theorem test_arithmetic_rounds :
    fadd (stub [] []) 0x3DCCCCCD#32 0x3E4CCCCD#32 = 0x3E99999A#32 ∧
      fmul (stub [] []) 0x00800000#32 0x3F000000#32 = 0x00400000#32 ∧
      fdiv (stub [] []) one 0x40400000#32 = 0x3EAAAAAB#32 ∧
      fadd (stub [] []) 0x7F7FFFFF#32 0x7F7FFFFF#32 = 0x7F800000#32 ∧
      fsub (stub [] []) one one = posZero ∧ fadd (stub [] []) negZero negZero = negZero := by decide +kernel

/-! ## Steps of the decoder (L2.1) -/

/-- A block with words on its command stream. -/
def fed (ws : List Word) : State := { running with input := ws }

/-- The state one step leaves. -/
def stepped (s : State) : State :=
  match step s with
  | .next t => t
  | .fault _ => s
  | .refused _ => s

/-- The decoder with a header and some of its operand words received. -/
def midway (h : Word) (ws : List Word) : Decoder := { ({ running.dec with hdr := h, k := 0 } : Decoder).takeAll ws with phase := .operands }

/-- R94: a header writes no entry of `D.ops`, and an operand word writes one. -/
theorem test_decoder_keeps_entries :
    (stepped (fed [0x00000203#32])).dec.ops = running.dec.ops ∧
      (midway 0x00000203#32 [0x0000003C#32]).ops[0]? = some 0x0000003C#32 ∧
      (midway 0x00000203#32 [0x0000003C#32]).ops[1]? = running.dec.ops[1]? ∧
      (midway 0x00000203#32 [0x0000003C#32]).ops[254]? = running.dec.ops[254]? := by decide +kernel

/-- Vectors E-1, E-4 and E-8. -/
theorem test_step_records_the_code :
    statusWord (stepped (fed [0#32])) = 0x00000103#32 ∧ statusWord (stepped (fed [0x00010004#32])) = 0x00000203#32 ∧
      statusWord (stepped (fed [0xFFFF00FF#32])) = 0x00000203#32 := by decide +kernel

/-- The host's placing of a word: the next step executes it. -/
theorem test_fetch_word_is_executed :
    (stepped (State.withFetchWord running 32 0x00000106)).par.masterAmp = posZero ∧
      (stepped (State.withFetchWord running 32 0x00000004)).input = [] := by decide +kernel

/-! ## Witnesses: the hypotheses of the obligations can be met -/

theorem running_inv : Inv running where
  poly := by decide +kernel
  alloc := by decide +kernel
  rr := by decide +kernel
  down := fun h => absurd h (by decide +kernel)
  up := fun _ => ⟨by decide +kernel, ⟨by decide +kernel, by decide +kernel, by decide +kernel, by decide +kernel⟩,
    by decide +kernel⟩
  notes := fun i hi => Or.inl <| by
    have h : ∀ i, i < NV → (running.voice i).active = false ∧ (running.voice i).gate = posZero ∧
      (running.voice i).midi = -1 ∧ (running.voice i).velocity = posZero := by decide +kernel
    exact h i hi
  units := by
    have h : ∀ i, i < running.eng.alloc → (running.voice i).osc1.map OscState.kind = some running.par.wave1.kind ∧
      (running.voice i).osc2.map OscState.kind = some running.par.wave2.kind ∧ (running.voice i).aenv.isSome = true ∧
      (running.voice i).fenv.isSome = true ∧ (running.voice i).filt.isSome = true := by decide +kernel
    exact h
  rest := by
    have h : ∀ i, i < NV → running.eng.alloc ≤ i → ((running.voice i).osc1 = none ∧ (running.voice i).osc2 = none ∧
      (running.voice i).aenv = none ∧ (running.voice i).fenv = none ∧ (running.voice i).filt = none) ∧
      (running.voice i).active = false ∧ (running.voice i).gate = posZero ∧
      (running.voice i).midi = -1 ∧ (running.voice i).velocity = posZero := by decide +kernel
    exact h
  status := ⟨by decide +kernel, by decide +kernel⟩
  decoder := ⟨by decide +kernel, fun h => absurd h (by decide +kernel)⟩

/-- A cold engine meets the invariant too. -/
theorem cold_inv : Inv cold where
  poly := by decide +kernel
  alloc := by decide +kernel
  rr := by decide +kernel
  down := fun _ => ⟨rfl, rfl, rfl, rfl, rfl⟩
  up := fun h => absurd h (by decide +kernel)
  notes := fun i hi => Or.inl <| by
    have h : ∀ i, i < NV → (cold.voice i).active = false ∧ (cold.voice i).gate = posZero ∧
      (cold.voice i).midi = -1 ∧ (cold.voice i).velocity = posZero := by decide +kernel
    exact h i hi
  units := fun i hi => absurd hi (Nat.not_lt_zero i)
  rest := by
    have h : ∀ i, i < NV → cold.eng.alloc ≤ i → ((cold.voice i).osc1 = none ∧ (cold.voice i).osc2 = none ∧
      (cold.voice i).aenv = none ∧ (cold.voice i).fenv = none ∧ (cold.voice i).filt = none) ∧
      (cold.voice i).active = false ∧ (cold.voice i).gate = posZero ∧
      (cold.voice i).midi = -1 ∧ (cold.voice i).velocity = posZero := by decide +kernel
    exact h
  status := ⟨by decide +kernel, by decide +kernel⟩
  decoder := ⟨by decide +kernel, fun h => absurd h (by decide +kernel)⟩

theorem witness_StepKeepsInvariant : ∃ s t, Inv s ∧ step s = .next t := ⟨running, running, running_inv, rfl⟩

theorem witness_DecodeOfEncode :
    (Instr.init one (2 ^ 31 - 1)).wellFormed = true ∧ (Instr.render (-(2 ^ 31))).wellFormed = true := by decide

theorem witness_EncodeOfDecode : decode 0x00000203#32 [0xFFFFFFFB#32, one] = .ok (.noteOn (-5) one) := by decide

theorem witness_StepRunsDecoded :
    (running.dec.phase = .header ∧ (fed [0x00000002#32]).input = 0x00000002#32 :: [] ∧ lenField 0x00000002#32 = 0 ∧
      decode 0x00000002#32 [] = .ok .shutdown) ∧
    (let s : State := { running with dec := midway 0x00000203#32 [0x0000003C#32], input := [one, 0#32] };
      s.dec.phase = .operands ∧ s.input = one :: [0#32] ∧ s.dec.k + 1 = lenField s.dec.hdr ∧
      decode s.dec.hdr (s.dec.ops.toList.take s.dec.k ++ [one]) = .ok (.noteOn 60 one)) := by decide +kernel

theorem witness_PartialCommandHasNoEffect :
    ((fed [0x00000103#32]).dec.phase = .header ∧ (fed [0x00000103#32]).input = 0x00000103#32 :: [] ∧
      lenField 0x00000103#32 ≠ 0) ∧
    (let s : State := { running with dec := midway 0x00000408#32 [1#32, 2#32], input := [3#32] };
      s.dec.phase = .operands ∧ s.input = 3#32 :: [] ∧ s.dec.k + 1 ≠ lenField s.dec.hdr) := by decide +kernel

theorem witness_CommandStreamRunsCommand :
    (Instr.setEnv one two one two).wellFormed = true ∧
      (fed (encode (.setEnv one two one two) ++ [0x00000004#32])).dec.phase = .header ∧
      (fed (encode (.setEnv one two one two) ++ [0x00000004#32])).input =
        encode (.setEnv one two one two) ++ [0x00000004#32] := by decide +kernel

/-- One header for each clause; 0x00, 0x1B and 0xFF are the ends of the undefined opcodes. -/
theorem witness_ExecuteChecksInOrder :
    rsvField 0x00010004#32 ≠ 0 ∧ rsvField 0xFFFF0000#32 ≠ 0 ∧
    (rsvField 0#32 = 0 ∧ opcField 0#32 = 0) ∧ (rsvField 0x0000001B#32 = 0 ∧ 0x1B ≤ opcField 0x0000001B#32) ∧
    (rsvField 0x0000FFFF#32 = 0 ∧ 0x1B ≤ opcField 0x0000FFFF#32) ∧
    (rsvField 0x00000103#32 = 0 ∧ opcField 0x00000103#32 = (Instr.noteOn 60 one).opcode ∧
      lenField 0x00000103#32 ≠ (Instr.noteOn 60 one).operandWords.length) ∧
    (rsvField 0x0000001A#32 = 0 ∧ opcField 0x0000001A#32 = (Instr.render 1).opcode ∧
      lenField 0x0000001A#32 ≠ (Instr.render 1).operandWords.length) := by decide

/-- A first error, and a later one (vectors E-6 and E-10). -/
theorem witness_IllegalCommandDiscarded :
    (let s := fed [0x00000103#32, 0x00000045#32, 0x00000004#32];
      s.dec.phase = .header ∧ s.input = 0x00000103#32 :: ([0x00000045#32] ++ [0x00000004#32]) ∧
      [0x00000045#32].length = lenField 0x00000103#32 ∧ decode 0x00000103#32 [0x00000045#32] = .error .badLength) ∧
    (let s : State := { fed [0x00010004#32] with st := ⟨true, false, 0x01#8⟩ };
      s.dec.phase = .header ∧ s.input = 0x00010004#32 :: ([] ++ []) ∧
      decode 0x00010004#32 [] = .error .reservedBits ∧ s.st.errCode ≠ 0) := by decide +kernel

theorem witness_WaitsWithAllStateKept : running.input = [] := by decide +kernel

theorem witness_ErrorsAreSticky :
    ∃ s t : State, step s = .next t ∧ s.st.errCmd = true ∧ s.st.fatal = true ∧ s.st.errCode ≠ 0 :=
  ⟨{ running with st := ⟨true, true, 0x10#8⟩, input := [0#32] }, _, rfl, rfl, rfl, by decide⟩

theorem witness_OnlyCreatorsReachFatal : ∃ t, exec (.setPoly 20) running = .next t := ⟨_, rfl⟩

theorem witness_UninitializedVoiceCommandsDoNothing : cold.eng.init = false := rfl

theorem witness_UninitializedSettersOnlyWriteRegisters : cold.eng.init = false := rfl

theorem witness_OnlySettersWriteParameters :
    (∃ t, exec (.init one 64) running = .next t) ∧ (∃ t, exec .shutdown running = .next t) ∧
    (∃ t, exec (.noteOn 60 one) running = .next t) ∧ (∃ t, exec .noteOffAll running = .next t) ∧
    (∃ t, exec (.noteOffMidi 60) running = .next t) ∧ (∃ t, exec (.setFreq one) running = .next t) ∧
    (∃ t, exec (.render 1) running = .next t) :=
  ⟨⟨_, rfl⟩, ⟨_, rfl⟩, ⟨_, rfl⟩, ⟨_, rfl⟩, ⟨_, rfl⟩, ⟨_, rfl⟩, ⟨_, rfl⟩⟩

/-- A value for each clause: below, above, at the bounds, a NaN, and −0.0. -/
theorem witness_ClampConsequences :
    flt 0xBF000000#32 posZero = true ∧ (flt 0x3FC00000#32 posZero = false ∧ fgt 0x3FC00000#32 one = true) ∧
      (flt one posZero = false ∧ fgt one one = false) ∧ (flt posZero posZero = false ∧ fgt posZero one = false) ∧
      isNaN 0x7FC00000#32 = true ∧ fgt negZero two = false := by decide +kernel

theorem witness_ClampStaysInRange :
    isNaN 0xBF000000#32 = false ∧ fle posZero one = true ∧ isNaN one = false ∧ fle one one = true := by decide +kernel

/-- Slot 0 of an idle pool, slot 1 while slot 0 sounds, and slot 3, the last one considered. -/
theorem witness_NoteOnTakesFirstFreeSlot :
    (running.eng.init = true ∧ 0 < running.par.poly ∧ 0 < NV ∧
      ((running.voice 0).active = false ∧ fle (running.voice 0).gate posZero = true) ∧
      ∀ j, j < 0 → ¬((running.voice j).active = false ∧ fle (running.voice j).gate posZero = true)) ∧
    (playing.eng.init = true ∧ 1 < playing.par.poly ∧ 1 < NV ∧
      ((playing.voice 1).active = false ∧ fle (playing.voice 1).gate posZero = true) ∧
      ∀ j, j < 1 → ¬((playing.voice j).active = false ∧ fle (playing.voice j).gate posZero = true)) ∧
    (let s := full.setVoice 3 (running.voice 3);
      s.eng.init = true ∧ 3 < s.par.poly ∧ 3 < NV ∧
      ((s.voice 3).active = false ∧ fle (s.voice 3).gate posZero = true) ∧
      ∀ j, j < 3 → ¬((s.voice j).active = false ∧ fle (s.voice j).gate posZero = true)) := by decide +kernel

/-- Four notes held; also with the counter past the polyphony (R132), and with one voice of polyphony. -/
theorem witness_NoteOnStealsRoundRobin :
    (full.eng.init = true ∧ 1 ≤ full.par.poly ∧ full.par.poly ≤ NV ∧
      ∀ j, j < full.par.poly → ¬((full.voice j).active = false ∧ fle (full.voice j).gate posZero = true)) ∧
    (let s : State := { full with eng := { full.eng with rr := 5 }, par := { full.par with poly := 1 } };
      s.eng.init = true ∧ 1 ≤ s.par.poly ∧ s.par.poly ≤ NV ∧
      ∀ j, j < s.par.poly → ¬((s.voice j).active = false ∧ fle (s.voice j).gate posZero = true)) := by decide +kernel

theorem witness_NoteOffMidiReleasesMatchingVoices : full.eng.init = true := by decide +kernel

theorem witness_NoteOffAllReleasesActiveVoices : full.eng.init = true := by decide +kernel

theorem witness_SetFreqRetunesAllocatedVoices : full.eng.init = true := by decide +kernel

theorem witness_SetPolyGrowsOrIsFatal : full.eng.init = true := by decide +kernel

theorem witness_EnsureBuildsNewSlots :
    16 ≤ NV ∧ CreationsSucceed (stub [] []) running.draws ∧ running.eng.sine = some ⟨0, 0⟩ ∧
      running.eng.tbl1 = some ⟨1, 0⟩ ∧ running.eng.tbl2 = some ⟨2, 0⟩ :=
  ⟨Nat.le_refl _, fun _ _ _ => rfl, by decide +kernel, by decide +kernel, by decide +kernel⟩

theorem witness_SetWaveRecreatesOscillators : Inv running ∧ running.eng.init = true := ⟨running_inv, by decide +kernel⟩

/-- Either slot; 3 and 4 are the operands where the two clauses meet. -/
theorem witness_SetWaveWithoutFailure :
    running.eng.init = true ∧ running.eng.alloc ≤ NV ∧ CreationsSucceed (stub [] []) running.draws ∧
      running.eng.sine = some ⟨0, 0⟩ ∧ running.eng.tbl .one = some ⟨1, 0⟩ ∧ running.eng.tbl .two = some ⟨2, 0⟩ ∧
      ((3 : Int) ≤ 3 ∧ ¬(3 : Int) ≥ 4) ∧ ((4 : Int) ≥ 4 ∧ ¬(4 : Int) ≤ 3) :=
  ⟨by decide +kernel, by decide +kernel, fun _ _ _ => rfl, by decide +kernel, by decide +kernel, by decide +kernel,
    by decide, by decide⟩

theorem witness_InitRunsOrIsFatal : Inv running ∧ fitsI32 63 = true ∧ fitsI32 64 = true := ⟨running_inv, by decide, by decide⟩

theorem witness_InitSucceedsWithoutFailure :
    Inv running ∧ CreationsSucceed (stub [] []) running.draws ∧ ∃ down, exec .shutdown running = .next down :=
  ⟨running_inv, fun _ _ _ => rfl, _, rfl⟩

/-- A stub in which draw `running.draws + j` alone fails, for each of the four clauses; from a running and from a cold engine. -/
theorem witness_InitFailingAtOnceIsFatal :
    (Inv running ∧ ∃ down, exec .shutdown running = .next down) ∧ (Inv cold ∧ ∃ down, exec .shutdown cold = .next down) ∧
    ∀ s, s = running ∨ s = cold → ∀ m, m < 4 → ∀ r : Request,
      (stub [] [s.draws + m]).createFails (s.draws + m) r = true ∧
        ∀ j, j < m → ¬(stub [] [s.draws + m]).createFails (s.draws + j) r = true :=
  ⟨⟨running_inv, _, rfl⟩, ⟨cold_inv, _, rfl⟩, fun s _ m _ r => ⟨by simp [stub], fun j hj => by simp [stub]; omega⟩⟩

theorem witness_ShutdownIsIdempotent : ∃ t, exec .shutdown full = .next t := ⟨_, rfl⟩

theorem witness_OnlyLifecycleWritesInit :
    ∃ t, exec (.setPoly 20) running = .next t ∧ (∀ r n, Instr.setPoly 20 ≠ .init r n) ∧ Instr.setPoly 20 ≠ .shutdown :=
  ⟨_, rfl, by simp, by simp⟩

theorem witness_RouteFeedsOneDestination :
    ∀ d : Fin 8, ∃ p : Params, p.lfoDest.number = d.val :=
  fun d => ⟨{ presetPar with lfoDest := LfoDest.ofNumber d.val }, by revert d; decide⟩

theorem witness_LfoStepsOncePerFrame : running.eng.init = true ∧ running.eng.lfo = some ⟨.wt, 0⟩ := by decide +kernel

theorem witness_VoiceChainFormulas :
    (playing.voice 0).fenv = some ⟨2⟩ ∧ (playing.voice 0).aenv = some ⟨2⟩ ∧ (playing.voice 0).filt = some ⟨0⟩ := by
  decide +kernel

/-- A wavetable and an FM unit in either slot. -/
theorem witness_OscillatorSlotFormulas :
    let w : OscState := ⟨.wt, 1⟩
    let f : OscState := ⟨.fm, 0⟩
    let v := Voice.blank one
    ((v.setOsc .one (some w)).osc1 = some w ∧ w.kind = .wt) ∧ ((v.setOsc .one (some f)).osc1 = some f ∧ f.kind = .fm) ∧
      ((v.setOsc .two (some w)).osc2 = some w ∧ w.kind = .wt) ∧ ((v.setOsc .two (some f)).osc2 = some f ∧ f.kind = .fm) := by
  decide

/-- Note 69 sounds in slot 0; slots 1 to 3 do not sound, and slot 4 is not considered. -/
theorem witness_RenderOneFrame :
    playing.eng.init = true ∧ playing.par.poly ≤ NV ∧ (0 < playing.par.poly ∧ (playing.voice 0).active = true) ∧
      (1 < NV ∧ ¬((playing.voice 1).active = true ∨ fgt (playing.voice 1).gate posZero = true)) ∧
      (4 < NV ∧ playing.par.poly ≤ 4) := by decide +kernel

/-- The corner cases of L2.2: just below the threshold, at it, and a NaN. -/
theorem witness_ReleaseIfSilentRule :
    (fle (Voice.blank one).gate posZero = true ∧ flt 0x38D1B716#32 0x38D1B717#32 = true) ∧
      ¬(fle (Voice.blank one).gate posZero = true ∧ flt 0x38D1B717#32 0x38D1B717#32 = true) ∧
      isNaN 0x7FC00000#32 = true := by decide +kernel

theorem witness_RenderOfSilenceEmitsZeros :
    running.eng.init = true ∧ ∀ i, i < running.par.poly →
      (running.voice i).active = false ∧ fgt (running.voice i).gate posZero = false := by decide +kernel

theorem witness_RenderEmitsFrameCountWords : running.eng.init = true := by decide +kernel

theorem witness_RenderSplits : (0 : Int) ≤ 0 ∧ (0 : Int) ≤ 3 := by decide

theorem witness_SlotsAbovePolyphonyAreFrozen :
    (1 ≤ running.par.poly ∧ running.par.poly ≤ 4) ∧ (∃ t, exec (.noteOn 60 one) running = .next t) ∧
      (∃ t, exec (.noteOffMidi 60) running = .next t) ∧ (∃ t, exec .noteOffAll running = .next t) ∧
      ∃ t, exec (.render 1) running = .next t :=
  ⟨by decide +kernel, ⟨_, rfl⟩, ⟨_, rfl⟩, ⟨_, rfl⟩, ⟨_, rfl⟩⟩

theorem witness_OnlyRenderEmits :
    ∃ t, exec .noteOffAll running = .next t ∧ ∀ n, Instr.noteOffAll ≠ .render n := ⟨_, rfl, by simp⟩

theorem witness_OnlyNoteOnActivates :
    exec .noteOffAll full = .next (result .noteOffAll full) ∧ (∀ m v, Instr.noteOffAll ≠ .noteOn m v) ∧ 3 < NV ∧
      ((result .noteOffAll full).voice 3).active = true := ⟨rfl, by simp, by decide, by decide +kernel⟩

theorem witness_Pow2Exact : (-126 : Int) ≤ -126 ∧ (-126 : Int) ≤ 127 ∧ (127 : Int) ≤ 127 := by decide

/-- A subnormal, −0.0 and the greatest finite value. -/
theorem witness_RoundingKeepsRepresentable :
    (isNaN 1#32 = false ∧ isInf 1#32 = false) ∧ (isNaN negZero = false ∧ isInf negZero = false) ∧
      (isNaN 0x7F7FFFFF#32 = false ∧ isInf 0x7F7FFFFF#32 = false) := by decide

theorem witness_RoundEvenIsNearest :
    0 < 2 ∧ 2 * ((3 : Int) - (roundEven 3 2 * 2 : Nat)).natAbs = 2 := by decide

theorem witness_NansPropagate : isNaN 0x7F800001#32 = true ∧ isNaN 0xFFFFFFFF#32 = true := by decide

end Sys2Proof.Tests
end

section
/-! # Binary32: rounding, the clamp, commutativity, NaNs and the exact powers of two (00_scope.md R10 to R13) -/

namespace Sys2Proof.Machine

/-! ## Rounding to a whole number -/

theorem roundEven_mul_self {d : Nat} (q : Nat) (h : 0 < d) : roundEven (q * d) d = q := by
  simp [roundEven, h]

/-- Settles O57: the quotient or its successor is taken by the side of the half the remainder lies on. -/
theorem roundEvenIsNearest : Obligations.RoundEvenIsNearest := by
  unfold Obligations.RoundEvenIsNearest
  intro n d hd
  have hdiv : n / d * d + n % d = n := Nat.div_add_mod' n d
  have hlt : n % d < d := Nat.mod_lt n hd
  have hup : (n / d + 1) * d = n / d * d + d := Nat.succ_mul _ _
  have htie : n / d % 2 = 0 ∨ n / d % 2 = 1 := Nat.mod_two_eq_zero_or_one _
  simp only [roundEven]
  split
  · omega
  · split
    · rw [hup]; omega
    · obtain he | ho := htie
      · rw [he, Nat.add_zero]; omega
      · rw [ho, hup]; omega

/-! ## Fields of a word -/

/-- Bits 30:0 of a word, from its exponent and its fraction. -/
def bitsBelowSign (x : F32) : Nat := expField x * 2 ^ 23 + fracField x

/-- A word is its sign and its other bits. -/
theorem pack_fields (x : F32) : pack (signBit x) (bitsBelowSign x) = x := by
  obtain ⟨hx, -, -⟩ := toNat_fields x
  apply BitVec.eq_of_toNat_eq
  rw [pack, bitsBelowSign, BitVec.toNat_ofNat, ← Nat.add_assoc, ← hx]
  exact Nat.mod_eq_of_lt x.isLt

/-- The fields of a word made of a sign and 31 bits. -/
theorem fields_pack (neg : Bool) {b : Nat} (h : b < 2 ^ 31) :
    signBit (pack neg b) = neg ∧ bitsBelowSign (pack neg b) = b := by
  have hn : (pack neg b).toNat = (if neg then 2 ^ 31 else 0) + b := by
    rw [pack, BitVec.toNat_ofNat]
    split <;> omega
  have hs : signBit (pack neg b) = neg := by
    rw [signBit, BitVec.msb_eq_decide, hn]
    cases neg
    · simpa using h
    · simp
  obtain ⟨hx, -, -⟩ := toNat_fields (pack neg b)
  rw [hs, hn, Nat.add_assoc] at hx
  exact ⟨hs, (Nat.add_left_cancel hx).symm⟩

theorem eq_of_fields {x y : F32} (hs : signBit x = signBit y) (hb : bitsBelowSign x = bitsBelowSign y) : x = y := by
  rw [← pack_fields x, hs, hb, pack_fields]

theorem isNaN_iff (x : F32) : isNaN x = true ↔ expField x = 255 ∧ fracField x ≠ 0 := by simp [isNaN]

theorem isInf_iff (x : F32) : isInf x = true ↔ expField x = 255 ∧ fracField x = 0 := by simp [isInf]

/-- An infinity is its sign. -/
theorem eq_of_isInf {x y : F32} (hx : isInf x = true) (hy : isInf y = true) (hs : signBit x = signBit y) : x = y := by
  rw [isInf_iff] at hx hy
  exact eq_of_fields hs (by rw [bitsBelowSign, bitsBelowSign, hx.1, hx.2, hy.1, hy.2])

/-- A finite value's exponent is below 255. -/
theorem expField_of_finite {x : F32} (hn : isNaN x = false) (hi : isInf x = false) : expField x < 255 := by
  obtain ⟨-, he, -⟩ := toNat_fields x
  rw [← Bool.not_eq_true, isNaN_iff] at hn
  rw [← Bool.not_eq_true, isInf_iff] at hi
  omega

theorem finite_of_expField {x : F32} (h : expField x ≠ 255) : isNaN x = false ∧ isInf x = false := by
  simp [isNaN, isInf, h]

theorem finite_of_bitsBelowSign {x : F32} (h : bitsBelowSign x < infBits) : isNaN x = false ∧ isInf x = false := by
  have hinf : infBits = 255 * 2 ^ 23 := by decide
  unfold bitsBelowSign at h
  exact finite_of_expField (by omega)

/-! ## Values that rounding keeps -/

/-- `a` quanta of `2 ^ sh` units: a finite binary32 magnitude in its one normal form, with a significand of 24 bits that is
full unless the quantum is the least one (R11). -/
structure Canonical (a sh : Nat) : Prop where
  fits   : a < 2 ^ 24
  full   : sh = 0 ∨ 2 ^ 23 ≤ a
  finite : a + sh * 2 ^ 23 < infBits

/-- The bits of a finite value count the quanta of its magnitude. -/
theorem exists_canonical {x : F32} (hn : isNaN x = false) (hi : isInf x = false) :
    ∃ a sh, Canonical a sh ∧ bitsBelowSign x = a + sh * 2 ^ 23 := by
  have he := expField_of_finite hn hi
  obtain ⟨-, -, hf⟩ := toNat_fields x
  have hinf : infBits = 255 * 2 ^ 23 := by decide
  unfold bitsBelowSign
  by_cases h0 : expField x = 0
  · exact ⟨fracField x, 0, ⟨by omega, .inl rfl, by omega⟩, by omega⟩
  · exact ⟨2 ^ 23 + fracField x, expField x - 1, ⟨by omega, .inr (by omega), by omega⟩, by omega⟩

theorem magUnits_of_canonical {x : F32} {a sh : Nat} (h : Canonical a sh) (hx : bitsBelowSign x = a + sh * 2 ^ 23) :
    magUnits x = a * 2 ^ sh := by
  obtain ⟨hfits, hfull, -⟩ := h
  obtain ⟨-, -, hf⟩ := toNat_fields x
  unfold bitsBelowSign at hx
  unfold magUnits
  split
  · have hsh : sh = 0 := by omega
    rw [hsh, Nat.pow_zero, Nat.mul_one]
    omega
  · have ha : 2 ^ 23 + fracField x = a := by omega
    have hsh : expField x - 1 = sh := by omega
    rw [ha, hsh]

/-- The quantum that rounding picks for a canonical magnitude is its own. -/
theorem log2_of_canonical {a sh : Nat} (h : Canonical a sh) : Nat.log2 (a * 2 ^ sh) - 23 = sh := by
  obtain ⟨hfits, hfull | hfull, -⟩ := h
  · subst hfull
    by_cases ha : a = 0
    · subst ha; rfl
    · have : Nat.log2 a < 24 := (Nat.log2_lt ha).mpr hfits
      rw [Nat.pow_zero, Nat.mul_one]
      omega
  · have hlog : Nat.log2 (a * 2 ^ sh) = 23 + sh := by
      rw [Nat.log2_eq_iff (by positivity)]
      constructor
      · rw [Nat.pow_add]; exact Nat.mul_le_mul_right _ hfull
      · rw [show 23 + sh + 1 = 24 + sh by omega, Nat.pow_add]; exact Nat.mul_lt_mul_of_pos_right hfits (by positivity)
    omega

/-- Rounding sees the ratio alone. -/
theorem roundBits_mul_right (n : Nat) {d : Nat} (h : 0 < d) : roundBits (n * d) d = roundBits n 1 := by
  have hround (q : Nat) : roundEven (n * d) (d * q) = roundEven n q := by
    simp only [roundEven, Nat.mul_comm n d, Nat.mul_div_mul_left n q h, Nat.mul_mod_mul_left, Nat.mul_left_comm 2 d,
      Nat.mul_lt_mul_left h]
  simp only [roundBits, Nat.mul_div_cancel n h, Nat.div_one, Nat.one_mul, hround]

theorem roundBits_of_canonical {a sh : Nat} (h : Canonical a sh) : roundBits (a * 2 ^ sh) 1 = a + sh * 2 ^ 23 := by
  simp only [roundBits, Nat.div_one, Nat.one_mul, log2_of_canonical h, roundEven_mul_self a (Nat.two_pow_pos sh)]
  exact if_pos h.finite

/-- Settles O56: a finite value's magnitude is canonical, so rounding gives back its bits. -/
theorem roundingKeepsRepresentable : Obligations.RoundingKeepsRepresentable := by
  unfold Obligations.RoundingKeepsRepresentable
  intro x hn hi
  obtain ⟨a, sh, hc, hx⟩ := exists_canonical hn hi
  rw [roundF32, magUnits_of_canonical hc hx, roundBits_of_canonical hc, ← hx, pack_fields]

/-- A canonical magnitude is rounded to itself, with its sign. -/
theorem fields_roundF32 (neg : Bool) {a sh : Nat} (h : Canonical a sh) :
    signBit (roundF32 neg (a * 2 ^ sh) 1) = neg ∧ bitsBelowSign (roundF32 neg (a * 2 ^ sh) 1) = a + sh * 2 ^ 23 := by
  rw [roundF32, roundBits_of_canonical h]
  exact fields_pack neg (h.finite.trans (by decide))

/-! ## `i2f` and `POW2` at the whole numbers -/

/-- A whole number of at most 24 bits is a binary32 value. -/
theorem exists_canonical_of_natAbs {n : Nat} (h : n < 2 ^ 24) : ∃ a sh, Canonical a sh ∧ n * 2 ^ 149 = a * 2 ^ sh := by
  by_cases h0 : n = 0
  · subst h0
    exact ⟨0, 0, ⟨by decide, .inl rfl, by decide⟩, by simp⟩
  · have hlog : Nat.log2 n < 24 := (Nat.log2_lt h0).mpr h
    have hlow : 2 ^ Nat.log2 n ≤ n := Nat.log2_self_le h0
    have hhigh : n < 2 ^ (Nat.log2 n + 1) := Nat.lt_log2_self
    generalize Nat.log2 n = l at hlog hlow hhigh
    have hfits : n * 2 ^ (23 - l) < 2 ^ 24 := by
      calc n * 2 ^ (23 - l) < 2 ^ (l + 1) * 2 ^ (23 - l) := Nat.mul_lt_mul_of_pos_right hhigh (Nat.two_pow_pos _)
        _ = 2 ^ 24 := by rw [← Nat.pow_add]; congr 1; omega
    have hfull : 2 ^ 23 ≤ n * 2 ^ (23 - l) := by
      calc 2 ^ 23 = 2 ^ l * 2 ^ (23 - l) := by rw [← Nat.pow_add]; congr 1; omega
        _ ≤ n * 2 ^ (23 - l) := Nat.mul_le_mul_right _ hlow
    have hinf : infBits = 255 * 2 ^ 23 := by decide
    refine ⟨n * 2 ^ (23 - l), 126 + l, ⟨hfits, .inr hfull, by omega⟩, ?_⟩
    rw [Nat.mul_assoc, ← Nat.pow_add]
    congr 2
    omega

/-- `i2f` is exact at the whole numbers of at most 24 bits (R10). -/
theorem i2f_fields {k : Int} (h : k.natAbs < 2 ^ 24) :
    isNaN (i2f k) = false ∧ isInf (i2f k) = false ∧ signBit (i2f k) = decide (k < 0) ∧
      magUnits (i2f k) = k.natAbs * 2 ^ 149 := by
  obtain ⟨a, sh, hc, hk⟩ := exists_canonical_of_natAbs h
  rw [i2f, hk]
  obtain ⟨hs, hb⟩ := fields_roundF32 (decide (k < 0)) hc
  obtain ⟨hn, hi⟩ := finite_of_bitsBelowSign (hb.trans_lt hc.finite)
  exact ⟨hn, hi, hs, magUnits_of_canonical hc hb⟩

theorem valUnits_i2f {k : Int} (h : k.natAbs < 2 ^ 24) : valUnits (i2f k) = k * 2 ^ 149 := by
  obtain ⟨-, -, hs, hm⟩ := i2f_fields h
  rw [valUnits, hs, hm]
  simp only [decide_eq_true_eq]
  split <;> omega

theorem smallInt_i2f {k : Int} (h1 : -127 ≤ k) (h2 : k ≤ 127) : smallInt (i2f k) = some k := by
  have hv : valUnits (i2f k) / 2 ^ 149 = k := by
    rw [valUnits_i2f (by omega)]
    exact Int.mul_ediv_cancel k (by decide)
  simp only [smallInt, hv]
  exact if_pos ⟨h1, h2, trivial⟩

theorem pow2Bits_finite {k : Int} (h1 : -126 ≤ k) (h2 : k ≤ 127) :
    isNaN (pow2Bits k) = false ∧ isInf (pow2Bits k) = false := by
  obtain ⟨he, -, -⟩ := pow2Bits_fields h1 h2
  exact finite_of_expField (by omega)

theorem magUnits_pow2Bits {k : Int} (h1 : -126 ≤ k) (h2 : k ≤ 127) : magUnits (pow2Bits k) = 2 ^ (k + 149).toNat := by
  obtain ⟨he, hf, -⟩ := pow2Bits_fields h1 h2
  rw [magUnits, he, hf, if_neg (by omega), Nat.add_zero, ← Nat.pow_add]
  congr 1
  omega

/-- Settles O55: `smallInt` reads `i2f k` back as `k`, and the fields of `pow2Bits k` are those of 2^k. -/
theorem pow2Exact : Obligations.Pow2Exact := by
  unfold Obligations.Pow2Exact
  intro c k h1 h2
  rw [pow2_of_smallInt c (smallInt_i2f (by omega) h2) h1 h2]
  obtain ⟨-, -, hs⟩ := pow2Bits_fields h1 h2
  obtain ⟨hn, hi⟩ := pow2Bits_finite h1 h2
  exact ⟨hs, hn, hi, magUnits_pow2Bits h1 h2⟩

/-! ## The operations -/

/-- Turning the sign of a value leaves its class. -/
theorem isNaN_fneg (x : F32) : isNaN (fneg x) = isNaN x := by
  have he : expField (fneg x) = expField x := by
    rw [expField, fneg, BitVec.extractLsb'_xor, show negZero.extractLsb' 23 8 = 0#8 by decide, BitVec.xor_zero, expField]
  have hf : fracField (fneg x) = fracField x := by
    rw [fracField, fneg, BitVec.extractLsb'_xor, show negZero.extractLsb' 0 23 = 0#23 by decide, BitVec.xor_zero, fracField]
  rw [isNaN, isNaN, he, hf]

section Nan
variable {x y : F32}

theorem fadd_of_isNaN (c : Config) (h : isNaN x = true ∨ isNaN y = true) : fadd c x y = nan c := by
  rw [fadd, if_pos (by simpa using h)]

theorem fsub_of_isNaN (c : Config) (h : isNaN x = true ∨ isNaN y = true) : fsub c x y = nan c :=
  fadd_of_isNaN c (h.imp_right (isNaN_fneg y).trans)

theorem fmul_of_isNaN (c : Config) (h : isNaN x = true ∨ isNaN y = true) : fmul c x y = nan c := by
  simp only [fmul]
  exact if_pos (by simpa using h)

theorem fdiv_of_isNaN (c : Config) (h : isNaN x = true ∨ isNaN y = true) : fdiv c x y = nan c := by
  simp only [fdiv]
  exact if_pos (by simpa using h)

theorem flt_of_isNaN (h : isNaN x = true ∨ isNaN y = true) : flt x y = false := by
  obtain h | h := h <;> simp [flt, h]

theorem fle_of_isNaN (h : isNaN x = true ∨ isNaN y = true) : fle x y = false := by
  obtain h | h := h <;> simp [fle, h]

theorem feq_of_isNaN (h : isNaN x = true ∨ isNaN y = true) : feq x y = false := by
  obtain h | h := h <;> simp [feq, h]

end Nan

theorem fadd_comm (c : Config) (x y : F32) : fadd c x y = fadd c y x := by
  by_cases hnan : isNaN x = true ∨ isNaN y = true
  · rw [fadd_of_isNaN c hnan, fadd_of_isNaN c hnan.symm]
  · obtain ⟨hx, hy⟩ : isNaN x = false ∧ isNaN y = false := by simpa using hnan
    cases ix : isInf x <;> cases iy : isInf y
    case true.true =>
      by_cases hs : signBit x = signBit y
      · rw [eq_of_isInf ix iy hs]
      · simp [fadd, hx, hy, ix, iy, hs, Ne.symm hs]
    all_goals simp [fadd, hx, hy, ix, iy, Int.add_comm (valUnits x), Bool.and_comm (signBit x)]

theorem fmul_comm (c : Config) (x y : F32) : fmul c x y = fmul c y x := by
  simp only [fmul, Bool.or_comm (isNaN x), Bool.or_comm (isInf x), Bool.or_comm (isZero x), Nat.mul_comm (magUnits x),
    bne_comm (a := signBit x)]

/-- Settles O58: two infinities are equal where their signs are, and what is left of each operation is symmetric. -/
theorem addAndMulCommute : Obligations.AddAndMulCommute := by
  unfold Obligations.AddAndMulCommute
  exact fun c x y => ⟨fadd_comm c x y, fmul_comm c x y⟩

/-- Settles O59: each operation tests its operands for a NaN first, and subtraction's turned sign keeps a NaN one. -/
theorem nansPropagate : Obligations.NansPropagate := by
  unfold Obligations.NansPropagate
  exact fun c x y h => ⟨fadd_of_isNaN c h, fsub_of_isNaN c h, fmul_of_isNaN c h, fdiv_of_isNaN c h, nan_isNaN c,
    flt_of_isNaN h, fle_of_isNaN h, feq_of_isNaN h⟩

section Finite
variable {x y : F32} (hnx : isNaN x = false) (hix : isInf x = false) (hny : isNaN y = false) (hiy : isInf y = false)
include hnx hix hny hiy

theorem fmul_of_finite (c : Config) :
    fmul c x y = roundF32 (signBit x != signBit y) (magUnits x * magUnits y) (2 ^ 149) := by
  simp only [fmul, hnx, hix, hny, hiy, Bool.or_false, Bool.false_eq_true, if_false]

theorem fdiv_of_finite (c : Config) (hzy : isZero y = false) :
    fdiv c x y = roundF32 (signBit x != signBit y) (magUnits x * 2 ^ 149) (magUnits y) := by
  simp only [fdiv, hnx, hix, hny, hiy, hzy, Bool.or_false, Bool.false_eq_true, if_false]

end Finite

/-! ## The clamp (R12) -/

section Clamp
variable {x lo hi : F32}

theorem clamp_of_flt (h : flt x lo = true) : clamp x lo hi = lo := by rw [clamp, if_pos h]

theorem clamp_of_fgt (hl : flt x lo = false) (hh : fgt x hi = true) : clamp x lo hi = hi := by
  rw [clamp, if_neg (by simp [hl]), if_pos hh]

theorem clamp_of_between (hl : flt x lo = false) (hh : fgt x hi = false) : clamp x lo hi = x := by
  rw [clamp, if_neg (by simp [hl]), if_neg (by simp [hh])]

end Clamp

/-- Settles O24: a NaN is neither below nor above a bound, and −0.0 is not below +0.0, so both pass. -/
theorem clampConsequences : Obligations.ClampConsequences := by
  unfold Obligations.ClampConsequences
  exact fun x lo hi => ⟨clamp_of_flt, clamp_of_fgt, clamp_of_between,
    fun hn => clamp_of_between (flt_of_isNaN (.inl hn)) (flt_of_isNaN (.inr hn)),
    clamp_of_between (by decide)⟩

theorem fle_iff (x y : F32) : fle x y = true ↔ isNaN x = false ∧ isNaN y = false ∧ ordKey x ≤ ordKey y := by
  simp [fle, and_assoc]

/-- Values that are no NaN are in order one way or the other. -/
theorem fle_of_flt_false {x y : F32} (hx : isNaN x = false) (hy : isNaN y = false) (h : flt x y = false) :
    fle y x = true := by
  rw [fle_iff]
  simp only [flt, hx, hy, Bool.not_false, Bool.true_and, decide_eq_false_iff_not, Int.not_lt] at h
  exact ⟨hy, hx, h⟩

theorem fle_refl {x : F32} (hx : isNaN x = false) : fle x x = true := (fle_iff x x).mpr ⟨hx, hx, Int.le_refl _⟩

/-- Settles O25: each of the clamp's three answers lies between the bounds. -/
theorem clampStaysInRange : Obligations.ClampStaysInRange := by
  unfold Obligations.ClampStaysInRange
  intro x lo hi hx hb
  obtain ⟨hlo, hhi, -⟩ := (fle_iff lo hi).mp hb
  cases hl : flt x lo
  case true =>
    rw [clamp_of_flt hl]
    exact ⟨fle_refl hlo, hb⟩
  case false =>
    cases hh : fgt x hi
    case true =>
      rw [clamp_of_fgt hl hh]
      exact ⟨hb, fle_refl hhi⟩
    case false =>
      rw [clamp_of_between hl hh]
      exact ⟨fle_of_flt_false hx hlo hl, fle_of_flt_false hhi hx hh⟩

/-! ## `midiToHz` (R130) -/

/-- Twelve semitones make an octave: the quotient is exact. -/
theorem fdiv_semis (c : Config) {k : Int} (h : k.natAbs ≤ 127) : fdiv c (i2f (12 * k)) SEMIS = i2f k := by
  obtain ⟨hn, hi, hs, hm⟩ := i2f_fields (k := 12 * k) (by omega)
  have hsemis : magUnits SEMIS = 12 * 2 ^ 149 := by decide
  have hsign : (decide (12 * k < 0) != signBit SEMIS) = decide (k < 0) := by
    rw [show signBit SEMIS = false by decide, Bool.bne_false, decide_eq_decide]
    omega
  have hmag : (12 * k).natAbs * 2 ^ 149 * 2 ^ 149 = k.natAbs * 2 ^ 149 * (12 * 2 ^ 149) := by omega
  rw [fdiv_of_finite hn hi (by decide) (by decide) c (by decide), hs, hm, hsign, hsemis, hmag, roundF32,
    roundBits_mul_right _ (by decide), i2f, roundF32]

/-- `k` octaves from the reference note, the frequency is 440 Hz times 2^k, rounded once, for every configuration. -/
theorem midiToHz_octave (c : Config) {m k : Int} (hm : m - A4_MIDI = 12 * k) (h1 : -126 ≤ k) (h2 : k ≤ 127) :
    midiToHz c m = roundF32 false (magUnits A4_HZ * 2 ^ (k + 149).toNat) (2 ^ 149) := by
  obtain ⟨-, -, hs⟩ := pow2Bits_fields h1 h2
  obtain ⟨hn, hi⟩ := pow2Bits_finite h1 h2
  rw [midiToHz, hm, fdiv_semis c (by omega),
    pow2_of_smallInt c (smallInt_i2f (by omega) h2) h1 h2, fmul_of_finite (by decide) (by decide) hn hi, hs,
    magUnits_pow2Bits h1 h2, show signBit A4_HZ = false by decide, Bool.bne_false]

/-- Settles O26: the three notes are 0, 1 and −1 octaves from the reference note. -/
theorem midiToHzOctaves : Obligations.MidiToHzOctaves := by
  unfold Obligations.MidiToHzOctaves
  intro c
  refine ⟨?_, ?_, ?_⟩
  · rw [midiToHz_octave c (k := 0) (by decide) (by decide) (by decide)]
    decide
  · rw [midiToHz_octave c (k := 1) (by decide) (by decide) (by decide)]
    decide
  · rw [midiToHz_octave c (k := -1) (by decide) (by decide) (by decide)]
    decide

end Sys2Proof.Machine
end

section
/-! # Receiving a command, one word a step (20_memory.md R75, 30_encoding.md R94) -/

namespace Sys2Proof.Machine

/-! ## One step, by the decoder's phase -/

/-- `D.ops[D.k] <- w ; D.k <- D.k + 1`, as the rule writes it. -/
theorem takeOperand_eq (w : Word) (d : Decoder) :
    d.takeOperand w = { d with k := d.k + 1, ops := d.ops.setIfInBounds d.k w } := by
  rw [← takeOperand_ops]
  rfl

/-- The decoder after a header that announces operands. -/
def Decoder.collecting (d : Decoder) (h : Word) : Decoder := { d.takeHeader h with phase := .operands }

section Step
variable {s : State} {w : Word} {rest : List Word}

theorem step_header (hp : s.dec.phase = .header) (hin : s.input = w :: rest) :
    step s = receiveHeader w { s with input := rest } := by
  simp only [step, receiveNext, hin, receiveWord, hp]

theorem step_operands (hp : s.dec.phase = .operands) (hin : s.input = w :: rest) :
    step s = receiveOperand w { s with input := rest } := by
  simp only [step, receiveNext, hin, receiveWord, hp]

/-- A header that announces operands is held, and the decoder waits for them. -/
theorem step_header_partial (hp : s.dec.phase = .header) (hin : s.input = w :: rest) (hlen : lenField w ≠ 0) :
    step s = .next { s with input := rest, dec := s.dec.collecting w } := by
  rw [step_header hp hin, receiveHeader]
  exact if_neg hlen

theorem step_header_complete (hp : s.dec.phase = .header) (hin : s.input = w :: rest) (hlen : lenField w = 0) :
    step s = execute w [] { s with input := rest, dec := s.dec.takeHeader w } := by
  rw [step_header hp hin, receiveHeader]
  exact if_pos hlen

/-- An operand word that is not the command's last is held. -/
theorem step_operand_partial (hp : s.dec.phase = .operands) (hin : s.input = w :: rest)
    (hk : s.dec.k + 1 ≠ lenField s.dec.hdr) :
    step s = .next { s with input := rest, dec := s.dec.takeOperand w } := by
  rw [step_operands hp hin, receiveOperand]
  exact if_neg hk

theorem step_operand_complete (hp : s.dec.phase = .operands) (hin : s.input = w :: rest)
    (hk : s.dec.k + 1 = lenField s.dec.hdr) :
    step s = execute s.dec.hdr (s.dec.takeOperand w).received
      { s with input := rest, dec := { s.dec.takeOperand w with phase := .header } } := by
  rw [step_operands hp hin, receiveOperand]
  exact if_pos hk

end Step

/-- Settles O8: the step's two partial cases, with the decoder's registers written out. -/
theorem partialCommandHasNoEffect : Obligations.PartialCommandHasNoEffect := by
  unfold Obligations.PartialCommandHasNoEffect
  refine ⟨fun s w rest hp hin hlen => step_header_partial hp hin hlen, fun s w rest hp hin hk => ?_⟩
  rw [step_operand_partial hp hin hk, takeOperand_eq]

/-! ## Running the words of a command -/

theorem run_one (s : State) : Host.Core.run core 1 s = step s := by
  cases h : core.step s <;> simp only [Host.Core.run, h] <;> exact h.symm

theorem run_succ_of_next {s t : State} (h : step s = .next t) (n : Nat) :
    Host.Core.run core (n + 1) s = Host.Core.run core n t := by
  have hc : core.step s = .next t := h
  simp only [Host.Core.run, hc]

/-- The last `ws.length` operand words of a command, one a step, end in Execute on all that were received. -/
theorem run_operands (ws : List Word) (s : State) {rest : List Word} (hne : ws ≠ []) (hp : s.dec.phase = .operands)
    (hin : s.input = ws ++ rest) (hlen : s.dec.k + ws.length = lenField s.dec.hdr) :
    Host.Core.run core ws.length s = execute s.dec.hdr (s.dec.takeAll ws).received
      { s with input := rest, dec := { s.dec.takeAll ws with phase := .header } } := by
  induction ws generalizing s with
  | nil => exact absurd rfl hne
  | cons w ws ih =>
    rw [List.length_cons] at hlen ⊢
    by_cases hws : ws = []
    · subst hws
      exact (run_one s).trans (step_operand_complete hp hin hlen)
    · have hpos : 0 < ws.length := List.length_pos_iff.mpr hws
      have hlen' : (s.dec.takeOperand w).k + ws.length = lenField (s.dec.takeOperand w).hdr := by
        rw [takeOperand_k, takeOperand_hdr]
        omega
      exact (run_succ_of_next (step_operand_partial hp hin (by omega)) _).trans
        (ih { s with input := ws ++ rest, dec := s.dec.takeOperand w } hws hp rfl hlen')

/-- The decoder after a header and its operand words, waiting for the next header. -/
def Decoder.afterCommand (d : Decoder) (h : Word) (ops : List Word) : Decoder :=
  { (d.collecting h).takeAll ops with phase := .header }

section AfterCommand
variable {h : Word} {ops : List Word}

theorem afterCommand_nil {d : Decoder} (hp : d.phase = .header) : d.afterCommand h [] = d.takeHeader h := by
  obtain ⟨_, _, _, _⟩ := d
  subst hp
  rfl

/-- The registers of the decoder once a header's operand words are received: the command's words, and the entries of `D.ops`
they did not reach. -/
theorem takeAll_collecting (d : Decoder) (hlen : ops.length = lenField h) :
    ((d.collecting h).takeAll ops).hdr = h ∧ ((d.collecting h).takeAll ops).k = ops.length ∧
      ((d.collecting h).takeAll ops).received = ops ∧
      ∀ j, ((d.collecting h).takeAll ops).ops[j]? = if j < ops.length then ops[j]? else d.ops[j]? := by
  have hk : (d.collecting h).k + ops.length = ops.length := Nat.zero_add _
  obtain ⟨-, hhdr, hcount, hrec, hops⟩ := takeAll_spec ops (d.collecting h) (by rw [hk, hlen]; exact lenField_le h)
  refine ⟨hhdr, hcount.trans hk, hrec, fun j => (hops j).trans ?_⟩
  rw [hk]
  simp [Decoder.collecting]

theorem afterCommand_spec (d : Decoder) (hlen : ops.length = lenField h) :
    (d.afterCommand h ops).phase = .header ∧ (d.afterCommand h ops).hdr = h ∧
      (d.afterCommand h ops).k = ops.length ∧
      ∀ j, (d.afterCommand h ops).ops[j]? = if j < ops.length then ops[j]? else d.ops[j]? := by
  obtain ⟨hhdr, hk, -, hops⟩ := takeAll_collecting d hlen
  exact ⟨rfl, hhdr, hk, hops⟩

/-- A header and as many operand words as it announces, one a step from a header position, end in Execute on them, whether
the command is legal or not. -/
theorem run_command {s : State} {rest : List Word} (hp : s.dec.phase = .header) (hin : s.input = h :: (ops ++ rest))
    (hlen : ops.length = lenField h) :
    Host.Core.run core (ops.length + 1) s =
      execute h ops { s with input := rest, dec := s.dec.afterCommand h ops } := by
  by_cases hops : ops = []
  · subst hops
    rw [afterCommand_nil hp]
    exact (run_one s).trans (step_header_complete hp hin hlen.symm)
  · have hpos : 0 < ops.length := List.length_pos_iff.mpr hops
    obtain ⟨-, -, hrec, -⟩ := takeAll_collecting s.dec hlen
    have hrun := run_operands ops { s with input := ops ++ rest, dec := s.dec.collecting h } hops rfl rfl
      ((Nat.zero_add _).trans hlen)
    rw [hrec] at hrun
    exact (run_succ_of_next (step_header_partial hp hin (by omega)) _).trans hrun

end AfterCommand

/-! ## The words of a well-formed command -/

/-- The operand words of a well-formed command read back as its operands (R92). -/
theorem instrOf_operandWords {i : Instr} (h : i.wellFormed = true) : instrOf i.opcode i.operandWords = some i := by
  cases i <;> simp_all [Instr.wellFormed, Instr.opcode, Instr.operandWords, instrOf, instrOf0, instrOf1, instrOf2, instrOf3,
    instrOf4, s32_ofS32]

/-- The words of a well-formed command decode to it. -/
theorem decode_words {i : Instr} (h : i.wellFormed = true) : decode i.headerWord i.operandWords = .ok i := by
  obtain ⟨hrsv, hopc, hlen⟩ := headerWord_fields i
  obtain ⟨m, ts, hrow, hts⟩ := opcodeRow_of i
  simp [decode, hrsv, hopc, hlen, hrow, hts, instrOf_operandWords h]

/-- Settles O9: the command's words are a header and the operands it announces, which decode to the command. -/
theorem commandStreamRunsCommand : Obligations.CommandStreamRunsCommand := by
  unfold Obligations.CommandStreamRunsCommand
  intro s i rest hwf hp hin
  obtain ⟨-, -, hlen⟩ := headerWord_fields i
  refine ⟨s.dec.afterCommand i.headerWord i.operandWords, ?_, afterCommand_spec s.dec hlen.symm⟩
  rw [encode, List.length_cons, run_command hp hin hlen.symm, execute, decode_words hwf]

end Sys2Proof.Machine
end

section
/-! # What a command and a step can do: one normal form of the 26 meanings (30_encoding.md R94, R96) -/

namespace Sys2Proof.Machine

/-! ## The commands by what they do -/

/-- Two parameter files that agree where the units and the allocated set depend on them: the polyphony and the waveforms. -/
structure Params.SameShape (p q : Params) : Prop where
  poly  : q.poly = p.poly
  wave1 : q.wave1 = p.wave1
  wave2 : q.wave2 = p.wave2

/-- The commands that create units or tables, with the attempt each makes from `s` (R137, R212 to R214, R240). -/
inductive Attempts (c : Config) (s : State) : Instr → Attempt → Prop
  | init (rate : F32) (size : Int) :
      Attempts c s (.init rate size) ((initTables c (initBegin rate size s)).andThen (initFinish c))
  | setPolyDown (n : Int) (h : s.eng.init = false) :
      Attempts c s (.setPoly n) (.ok (s.setPar { s.par with poly := polyOperand n }))
  | setPolyUp (n : Int) (h : s.eng.init = true) :
      Attempts c s (.setPoly n) (ensure c (polyOperand n) (s.setPar { s.par with poly := polyOperand n }))
  | setWave1 (type : Int) : Attempts c s (.setWave1 type) (setWave c .one type s)
  | setWave2 (type : Int) : Attempts c s (.setWave2 type) (setWave c .two type s)
  | setWave (type : Int) : Attempts c s (.setWave type) ((setWave c .one type s).andThen (setWave c .two type))

/-- How a command takes `s` to its next state. -/
inductive Runs (c : Config) (s : State) : Instr → State → Prop
  /-- A voice command or RENDER on an engine that is down does nothing (R225). -/
  | nothing {i : Instr} : Runs c s i s
  /-- A setter that writes registers alone. -/
  | registers {i : Instr} {p : Params} (h : s.par.SameShape p) : Runs c s i (s.setPar p)
  /-- A setter that also pushes envelope parameters to the voices. -/
  | envelopes {i : Instr} {p : Params} (role : EnvRole) (h : s.par.SameShape p) :
      Runs c s i ((s.setPar p).propagateEnv c role)
  | noteOn (midi : Int) (velocity : F32) (h : s.eng.init = true) :
      Runs c s (.noteOn midi velocity) (startNote c (allocate s).1 (midiOperand midi) velocity (allocate s).2)
  | noteOffs {i : Instr} (which : Voice → Bool) : Runs c s i (forBelow s.par.poly (gateOff which) s)
  | setFreq (freq : F32) : Runs c s (.setFreq freq)
      (forBelow s.eng.alloc (fun j t => t.setVoice j { t.voice j with baseFreq := freq }) s)
  | render (frameCount : Int) (h : s.eng.init = true) : Runs c s (.render frameCount) (frames c frameCount.toNat s)
  | shutdown : Runs c s .shutdown (teardown s)
  | creates {i : Instr} {x : Attempt} (h : Attempts c s i x) : Runs c s i (x.orFatal c s)

/-- A command that does `t` on a running engine and nothing otherwise. -/
theorem Runs.ite {c : Config} {s t : State} {i : Instr} (h : s.eng.init = true → Runs c s i t) :
    Runs c s i (if s.eng.init then t else s) := by
  split
  · next hi => exact h hi
  · exact .nothing

/-- Every command's meaning is one of the forms of `Runs`. -/
theorem exec_runs {i : Instr} {s t : State} (h : exec i s = .next t) : Runs Config.impl s i t := by
  cases i with
  | init rate size => cases h; exact .creates (.init rate size)
  | shutdown => cases h; exact .shutdown
  | noteOn midi velocity => cases h; exact .ite fun hi => .noteOn midi velocity hi
  | noteOffAll | noteOffMidi => cases h; exact .ite fun _ => .noteOffs _
  | setFreq freq => cases h; exact .ite fun _ => .setFreq freq
  | setEnv => cases h; exact .envelopes .amp ⟨rfl, rfl, rfl⟩
  | filterEnv => cases h; exact .envelopes .filt ⟨rfl, rfl, rfl⟩
  | setPoly n =>
    cases h
    unfold setPoly
    by_cases hi : s.eng.init = true
    · simp only [setPar_eng, hi, if_true]
      exact .creates (.setPolyUp n hi)
    · simp only [setPar_eng, hi]
      exact .creates (.setPolyDown n (Bool.not_eq_true _ ▸ hi))
  | setWave type => cases h; exact .creates (.setWave type)
  | setWave1 type => cases h; exact .creates (.setWave1 type)
  | setWave2 type => cases h; exact .creates (.setWave2 type)
  | setAmp | setDetune1 | setDetune2 | setGain1 | setGain2 | fm1 | fm2 | filterSet | filterEnvAmount | lfoSet | lfoDest
  | lfoAmount | lfoAmountSemi => cases h; exact .registers ⟨rfl, rfl, rfl⟩
  | render frameCount => cases h; exact .ite fun hi => .render frameCount hi

/-! ## What every command leaves of STATUS, the decoder and the streams -/

/-- STATUS, the decoder and the two streams are as before. -/
structure SameRecord (s t : State) : Prop where
  st    : t.st = s.st
  dec   : t.dec = s.dec
  out   : t.out = s.out
  input : t.input = s.input

theorem SameRecord.refl (s : State) : SameRecord s s := ⟨rfl, rfl, rfl, rfl⟩

theorem SameRecord.trans {s t u : State} (h : SameRecord s t) (k : SameRecord t u) : SameRecord s u :=
  ⟨k.st.trans h.st, k.dec.trans h.dec, k.out.trans h.out, k.input.trans h.input⟩

theorem SameOutside.record {s t : State} (h : SameOutside s t) : SameRecord s t := ⟨h.st, h.dec, h.out, h.input⟩

theorem setPar_record (s : State) (p : Params) : SameRecord s (s.setPar p) := ⟨rfl, rfl, rfl, rfl⟩

theorem allocate_record (s : State) : SameRecord s (allocate s).2 := by
  rw [allocate_state]
  exact ⟨rfl, rfl, rfl, rfl⟩

theorem setWave_record (c : Config) (k : OscSlot) (type : Int) (s : State) :
    SameRecord s (setWave c k type s).state := by
  obtain ⟨hst, hdec, hout, hin, -⟩ := setWave_frame c k type s
  exact ⟨hst, hdec, hout, hin⟩

/-- No attempt writes STATUS, the decoder or a stream. -/
theorem Attempts.record {c : Config} {s : State} {i : Instr} {x : Attempt} (h : Attempts c s i x) :
    SameRecord s x.state := by
  cases h with
  | init rate size => exact (initAttempt_same c rate size s).record
  | setPolyDown n => exact setPar_record s _
  | setPolyUp n => exact (setPar_record s _).trans (ensure_grown c _ _).toSameOutside.record
  | setWave1 type => exact setWave_record c .one type s
  | setWave2 type => exact setWave_record c .two type s
  | setWave type =>
    exact Attempt.andThen_keeps (K := SameRecord s) (setWave_record c .one type s) fun t ht =>
      ht.trans (setWave_record c .two type t)

/-- What any command may do to STATUS, the decoder and the streams: a Fatal is recorded, and RENDER appends words. -/
structure CommandFrame (i : Instr) (s t : State) : Prop where
  st    : t.st = s.st ∨ t.st = s.st.fatalError FATAL_RESOURCE
  dec   : t.dec = s.dec
  out   : ∃ ws, t.out = s.out ++ ws
  quiet : (∀ n, i ≠ .render n) → t.out = s.out
  input : t.input = s.input

theorem CommandFrame.of_out_eq {i : Instr} {s t : State} (hst : t.st = s.st ∨ t.st = s.st.fatalError FATAL_RESOURCE)
    (hdec : t.dec = s.dec) (hout : t.out = s.out) (hin : t.input = s.input) : CommandFrame i s t :=
  ⟨hst, hdec, ⟨[], by rw [hout, List.append_nil]⟩, fun _ => hout, hin⟩

theorem SameRecord.frame {s t : State} (h : SameRecord s t) (i : Instr) : CommandFrame i s t :=
  .of_out_eq (.inl h.st) h.dec h.out h.input

/-- A loop whose passes each rewrite one voice by `f`: the voices below the bound, and nothing else. -/
theorem forBelow_setVoice_spec (f : Voice → Voice) (n : Nat) (s : State) :
    let t := forBelow n (fun j u => u.setVoice j (f (u.voice j))) s
    t.eng = s.eng ∧ t.par = s.par ∧ SameRecord s t ∧
      ∀ i, i < NV → t.voice i = if i < n then f (s.voice i) else s.voice i := by
  have keeps {α : Type} (π : State → α) (h : ∀ u j v, π (State.setVoice u j v) = π u) :
      π (forBelow n (fun j u => u.setVoice j (f (u.voice j))) s) = π s :=
    forBelow_eq (π := π) (fun j u => h u j _) n s
  refine ⟨keeps State.eng fun _ _ _ => rfl, keeps State.par fun _ _ _ => rfl,
    ⟨keeps State.st fun _ _ _ => rfl, keeps State.dec fun _ _ _ => rfl, keeps State.out fun _ _ _ => rfl,
      keeps State.input fun _ _ _ => rfl⟩, fun i hi => ?_⟩
  exact forBelow_voice (K := fun _ => True) (f := fun _ => f) trivial (fun _ _ _ => trivial)
    (fun j u _ hj => voice_setVoice_self u _ hj) (fun j k u hjk => voice_setVoice_ne u _ hjk) n i hi

theorem Runs.frame {c : Config} {s t : State} {i : Instr} (h : Runs c s i t) : CommandFrame i s t := by
  cases h with
  | nothing => exact (SameRecord.refl s).frame i
  | registers => exact (setPar_record s _).frame i
  | @envelopes _ p role =>
    obtain ⟨-, -, hst, hdec, hout, hin, -⟩ := propagateEnv_frame c role (s.setPar p)
    exact ((setPar_record s p).trans ⟨hst, hdec, hout, hin⟩).frame i
  | noteOn midi velocity =>
    obtain ⟨-, -, hst, hdec, hout, hin, -⟩ := startNote_frame c (allocate s).1 (midiOperand midi) velocity (allocate s).2
    exact ((allocate_record s).trans ⟨hst, hdec, hout, hin⟩).frame _
  | noteOffs which =>
    obtain ⟨-, -, -, hst, hdec, hout, hin, -⟩ := gateOffs_spec which s.par.poly s
    exact SameRecord.frame ⟨hst, hdec, hout, hin⟩ i
  | setFreq freq =>
    obtain ⟨-, -, hr, -⟩ := forBelow_setVoice_spec (fun v => { v with baseFreq := freq }) s.eng.alloc s
    exact hr.frame _
  | render n =>
    have hk := frames_keep c n.toNat s
    obtain ⟨ws, -, hout⟩ := frames_out c n.toNat s
    exact ⟨.inl hk.st, hk.dec, ⟨ws, hout⟩, fun hn => absurd rfl (hn n), hk.input⟩
  | shutdown => exact SameRecord.frame ⟨teardown_st s, teardown_dec s, teardown_out s, teardown_input s⟩ _
  | @creates _ x hx =>
    obtain ⟨hst, hdec, hout, hin⟩ := hx.record
    obtain ⟨-, hx⟩ | ⟨-, hx⟩ := x.orFatal_cases c s
    · rw [hx]
      exact SameRecord.frame ⟨hst, hdec, hout, hin⟩ i
    · rw [hx]
      refine .of_out_eq (.inr ?_) ?_ ?_ ?_
      · rw [fatalFrom_st, hst]
      · rw [fatalFrom_dec, hdec]
      · rw [fatalFrom_out, hout]
      · rw [fatalFrom_input, hin]

/-! ## What a step can do -/

/-- A decoded operand is the `s32` of its word. -/
theorem instrOf_wellFormed {opc : Nat} {ops : List Word} {i : Instr} (h : instrOf opc ops = some i) :
    i.wellFormed = true := by
  unfold instrOf at h
  split at h
  · unfold instrOf0 at h
    split at h <;> cases h <;> rfl
  · unfold instrOf1 at h
    split at h <;> cases h <;> simp only [Instr.wellFormed, fitsI32_s32]
  · unfold instrOf2 at h
    split at h <;> cases h <;> simp only [Instr.wellFormed, fitsI32_s32]
  · unfold instrOf3 at h
    split at h <;> cases h <;> rfl
  · unfold instrOf4 at h
    split at h <;> cases h <;> rfl
  · cases h

theorem decode_wellFormed {w : Word} {ops : List Word} {i : Instr} (h : decode w ops = .ok i) : i.wellFormed = true := by
  unfold decode at h
  split at h
  · cases h
  · split at h
    · cases h
    · split at h
      · cases h
      · split at h
        · next hi => cases h; exact instrOf_wellFormed hi
        · cases h

/-- What Execute does from `u`: it records an error, or it runs a well-formed command (R94). -/
inductive Executes (u : State) : State → Prop
  | error (e : DecodeError) : Executes u (cmdError (errorCode e) u)
  | command {i : Instr} {t : State} (hwf : i.wellFormed = true) (h : exec i u = .next t) : Executes u t

theorem execute_executes {w : Word} {ops : List Word} {u t : State} (h : execute w ops u = .next t) : Executes u t := by
  unfold execute at h
  split at h
  · cases h; exact .error _
  · next hd => exact .command (decode_wellFormed hd) h

/-- `u` is `s` but for the words not yet received and the decoder, which is still inside its command. -/
structure Received (s u : State) : Prop where
  rest   : u = { s with input := u.input, dec := u.dec }
  lawful : s.dec.Lawful → u.dec.Lawful

theorem Received.refl (s : State) : Received s s := ⟨rfl, id⟩

/-- A step receives at most a word, and executes a command if that completes one (R94, R275). -/
theorem step_cases {s t : State} (h : step s = .next t) : ∃ u, Received s u ∧ (t = u ∨ Executes u t) := by
  match hin : s.input with
  | [] =>
    simp only [step, receiveNext, hin] at h
    cases h
    exact ⟨s, .refl s, .inl rfl⟩
  | w :: rest =>
    match hp : s.dec.phase with
    | .header =>
      by_cases hlen : lenField w = 0
      · rw [step_header_complete hp hin hlen] at h
        refine ⟨_, ⟨rfl, fun _ => ⟨Nat.zero_le _, fun hph => ?_⟩⟩, .inr (execute_executes h)⟩
        rw [takeHeader_phase, hp] at hph
        cases hph
      · rw [step_header_partial hp hin hlen] at h
        cases h
        exact ⟨_, ⟨rfl, fun _ => ⟨Nat.zero_le _, fun _ => Nat.pos_of_ne_zero hlen⟩⟩, .inl rfl⟩
    | .operands =>
      have hle := lenField_le s.dec.hdr
      by_cases hk : s.dec.k + 1 = lenField s.dec.hdr
      · rw [step_operand_complete hp hin hk] at h
        exact ⟨_, ⟨rfl, fun _ => ⟨hk.trans_le hle, Phase.noConfusion⟩⟩, .inr (execute_executes h)⟩
      · rw [step_operand_partial hp hin hk] at h
        cases h
        refine ⟨_, ⟨rfl, fun hl => ?_⟩, .inl rfl⟩
        have hlt : s.dec.k + 1 < lenField s.dec.hdr := Nat.lt_of_le_of_ne (hl.2 hp) hk
        exact ⟨Nat.le_trans (Nat.le_of_lt hlt) hle, fun _ => hlt⟩

end Sys2Proof.Machine
end

section
/-! # The invariants of the block are kept by every step (10_state.md R33, R34, R36, R40 to R45) -/

namespace Sys2Proof.Machine

/-! ## The invariants, slot by slot -/

/-- What `Inv` asks of the voice in slot `i` when `alloc` slots are allocated. -/
structure SlotOk (p : Params) (alloc i : Nat) (v : Voice) : Prop where
  note : v.Idle ∨ v.Sounding
  unit : i < alloc → v.Equipped p
  rest : alloc ≤ i → v.Unitless ∧ v.Idle

/-- What `Inv` asks of the engine registers, with `least` slots in place of the polyphony. -/
structure EngineOk (least : Nat) (e : Engine) : Prop where
  alloc : e.alloc ≤ NV
  rr    : e.rr < NV
  down  : e.init = false → e.Bare
  up    : e.init = true → least ≤ e.alloc ∧ e.Equipped ∧ TABLE_MIN ≤ e.tableSize.toNat

/-- `Inv`, but that a running engine needs `least` slots in place of the polyphony: what holds before Ensure grows the set. -/
structure InvFor (least : Nat) (s : State) : Prop where
  poly    : 1 ≤ s.par.poly ∧ s.par.poly ≤ NV
  engine  : EngineOk least s.eng
  slots   : ∀ i, i < NV → SlotOk s.par s.eng.alloc i (s.voice i)
  status  : s.st.Lawful
  decoder : s.dec.Lawful

theorem inv_iff (s : State) : Inv s ↔ InvFor s.par.poly s := by
  constructor
  · intro h
    exact ⟨h.poly, ⟨h.alloc, h.rr, h.down, h.up⟩, fun i hi => ⟨h.notes i hi, h.units i, h.rest i hi⟩, h.status, h.decoder⟩
  · intro h
    exact ⟨h.poly, h.engine.alloc, h.engine.rr, h.engine.down, h.engine.up, fun i hi => (h.slots i hi).note,
      fun i hi => (h.slots i (Nat.lt_of_lt_of_le hi h.engine.alloc)).unit hi, fun i hi => (h.slots i hi).rest, h.status,
      h.decoder⟩

theorem Inv.slot {s : State} (h : Inv s) {i : Nat} (hi : i < NV) : SlotOk s.par s.eng.alloc i (s.voice i) :=
  ((inv_iff s).mp h).slots i hi

theorem Inv.engine {s : State} (h : Inv s) : EngineOk s.par.poly s.eng := ((inv_iff s).mp h).engine

/-- A block that is down meets the invariants. -/
theorem inv_of_down {s : State} (hpoly : 1 ≤ s.par.poly ∧ s.par.poly ≤ NV) (hrr : s.eng.rr < NV)
    (hinit : s.eng.init = false) (hbare : s.eng.Bare) (hv : ∀ i, i < NV → (s.voice i).Idle ∧ (s.voice i).Unitless)
    (hst : s.st.Lawful) (hdec : s.dec.Lawful) : Inv s where
  poly := hpoly
  alloc := hbare.1 ▸ Nat.zero_le NV
  rr := hrr
  down := fun _ => hbare
  up := fun h => absurd h (by rw [hinit]; exact Bool.false_ne_true)
  notes := fun i hi => .inl (hv i hi).1
  units := fun i hi => absurd hi (by rw [hbare.1]; exact Nat.not_lt_zero i)
  rest := fun i hi _ => (hv i hi).symm
  status := hst
  decoder := hdec

/-! ## Clamped operands -/

theorem clampI_bounds (k : Int) {lo hi : Int} (h : lo ≤ hi) : lo ≤ clampI k lo hi ∧ clampI k lo hi ≤ hi := by
  unfold clampI
  split
  · exact ⟨Int.le_refl lo, h⟩
  · split <;> omega

/-- `Inv`'s range of the polyphony, from R36's. -/
theorem clampI_poly_bounds (k : Int) :
    1 ≤ (clampI k POLY_MIN POLY_MAX).toNat ∧ (clampI k POLY_MIN POLY_MAX).toNat ≤ NV := by
  have h := clampI_bounds k (show POLY_MIN ≤ POLY_MAX by decide)
  exact ⟨Int.toNat_le_toNat h.1, Int.toNat_le_toNat h.2⟩

/-! ## Power-on reset -/

theorem voice_powerOn (c : Config) {i : Nat} (hi : i < NV) :
    (State.powerOn c).voice i = Voice.blank (c.resetOpen (3 + i)) := by
  simp [State.voice, State.powerOn, hi]

theorem inv_powerOn (c : Config) : Inv (State.powerOn c) := by
  have hdec : (State.powerOn c).dec.Lawful := ⟨Nat.zero_le _, Phase.noConfusion⟩
  refine inv_of_down (clampI_poly_bounds _) (Nat.zero_lt_succ _) rfl ⟨rfl, rfl, rfl, rfl, rfl⟩ (fun i hi => ?_) ?_ hdec
  · rw [voice_powerOn c hi]
    exact ⟨⟨rfl, rfl, rfl, rfl⟩, rfl, rfl, rfl, rfl, rfl⟩
  · simp [State.powerOn, Status.Lawful]

/-- Settles O2: the block after reset is down, and its open integer parameters are in range. -/
theorem resetMeetsInvariant : Obligations.ResetMeetsInvariant := inv_powerOn Config.impl

/-! ## STATUS -/

/-- A first code recorded beside an error's flag leaves a lawful STATUS. -/
theorem lawful_firstCode {st : Status} {code : BitVec 8}
    (hmem : st.errCode ∈ [0x00#8, CMD_UNDEFINED_OPCODE, CMD_RESERVED_BITS, CMD_BAD_LENGTH, FATAL_RESOURCE])
    (hflag : ¬(st.errCmd = false ∧ st.fatal = false))
    (hcode : code ∈ [CMD_UNDEFINED_OPCODE, CMD_RESERVED_BITS, CMD_BAD_LENGTH, FATAL_RESOURCE]) :
    (st.firstCode code).Lawful := by
  unfold Status.firstCode
  split
  · have hne : code ≠ 0 := fun h0 => absurd (h0 ▸ hcode) (by decide)
    exact ⟨List.mem_cons_of_mem _ hcode, iff_of_false hne hflag⟩
  · next hne => exact ⟨hmem, iff_of_false hne hflag⟩

theorem lawful_cmdError {st : Status} (h : st.Lawful) (e : DecodeError) : (st.cmdError (errorCode e)).Lawful :=
  lawful_firstCode h.1 (fun hf => Bool.noConfusion hf.1) (by cases e <;> decide)

theorem lawful_fatalError {st : Status} (h : st.Lawful) : (st.fatalError FATAL_RESOURCE).Lawful :=
  lawful_firstCode h.1 (fun hf => Bool.noConfusion hf.2) (by decide)

/-! ## Units: what keeps the voice in a slot good -/

/-- `w` holds the units `v` holds, each oscillator with its tag; their states may differ. -/
structure Voice.SameUnits (v w : Voice) : Prop where
  osc  : ∀ k, (w.osc k).map OscState.kind = (v.osc k).map OscState.kind
  env  : ∀ r, (w.env r).isSome = (v.env r).isSome
  filt : w.filt.isSome = v.filt.isSome

/-- A voice's five units, by slot and role. -/
theorem equipped_iff (p : Params) (v : Voice) : v.Equipped p ↔
    (∀ k, (v.osc k).map OscState.kind = some (p.wave k).kind) ∧ (∀ r, (v.env r).isSome = true) ∧ v.filt.isSome = true := by
  constructor
  · rintro ⟨h1, h2, ha, hf, hfilt⟩
    exact ⟨fun k => by cases k <;> assumption, fun r => by cases r <;> assumption, hfilt⟩
  · rintro ⟨hosc, henv, hfilt⟩
    exact ⟨hosc .one, hosc .two, henv .amp, henv .filt, hfilt⟩

theorem unitless_iff (v : Voice) : v.Unitless ↔
    (∀ k, (v.osc k).map OscState.kind = none) ∧ (∀ r, (v.env r).isSome = false) ∧ v.filt.isSome = false := by
  simp only [Option.map_eq_none_iff, Option.isSome_eq_false_iff, Option.isNone_iff_eq_none]
  constructor
  · rintro ⟨h1, h2, ha, hf, hfilt⟩
    exact ⟨fun k => by cases k <;> assumption, fun r => by cases r <;> assumption, hfilt⟩
  · rintro ⟨hosc, henv, hfilt⟩
    exact ⟨hosc .one, hosc .two, henv .amp, henv .filt, hfilt⟩

theorem Voice.SameUnits.equipped {v w : Voice} {p : Params} (h : v.SameUnits w) (hv : v.Equipped p) : w.Equipped p := by
  rw [equipped_iff] at hv ⊢
  simpa only [h.osc, h.env, h.filt] using hv

theorem Voice.SameUnits.unitless {v w : Voice} (h : v.SameUnits w) (hv : v.Unitless) : w.Unitless := by
  rw [unitless_iff] at hv ⊢
  simpa only [h.osc, h.env, h.filt] using hv

/-- A voice that keeps its units, and its note's consistency, stays good in its slot. -/
theorem SlotOk.map {p : Params} {alloc i : Nat} {v w : Voice} (h : SlotOk p alloc i v) (hu : v.SameUnits w)
    (hidle : v.Idle → w.Idle) (hsound : v.Sounding → w.Idle ∨ w.Sounding) : SlotOk p alloc i w where
  note := h.note.elim (fun hv => .inl (hidle hv)) hsound
  unit := fun hi => hu.equipped (h.unit hi)
  rest := fun hi => ⟨hu.unitless (h.rest hi).1, hidle (h.rest hi).2⟩

/-- Of the parameters, the waveforms alone matter to a voice. -/
theorem SlotOk.of_waves {p q : Params} {alloc i : Nat} {v : Voice} (h : SlotOk p alloc i v) (h1 : q.wave1 = p.wave1)
    (h2 : q.wave2 = p.wave2) : SlotOk q alloc i v where
  note := h.note
  unit := fun hi => by
    rw [Voice.Equipped, h1, h2]
    exact h.unit hi
  rest := h.rest

theorem setEnv_sameUnits (c : Config) (q : Adsr) (r : EnvRole) (v : Voice) :
    v.SameUnits (v.setEnv r (envAfterSet c q (v.env r))) where
  osc := fun k => by cases r <;> cases k <;> rfl
  env := fun r' => by cases r <;> cases r' <;> simp [Voice.setEnv, Voice.env, envAfterSet]
  filt := by rw [setEnv_filt]

theorem SlotOk.setEnv {p : Params} {alloc i : Nat} {v : Voice} (h : SlotOk p alloc i v) (c : Config) (q : Adsr)
    (r : EnvRole) : SlotOk p alloc i (v.setEnv r (envAfterSet c q (v.env r))) :=
  h.map (setEnv_sameUnits c q r v) (by cases r <;> exact id) (by cases r <;> exact .inr)

theorem SlotOk.setBaseFreq {p : Params} {alloc i : Nat} {v : Voice} (h : SlotOk p alloc i v) (f : F32) :
    SlotOk p alloc i { v with baseFreq := f } :=
  h.map ⟨fun k => by cases k <;> rfl, fun r => by cases r <;> rfl, rfl⟩ id .inr

theorem SlotOk.offVoice {p : Params} {alloc i : Nat} {v : Voice} (h : SlotOk p alloc i v) (which : Voice → Bool) :
    SlotOk p alloc i (offVoice which v) := by
  unfold Machine.offVoice
  split
  · next hw =>
    refine h.map ⟨fun k => by cases k <;> rfl, fun r => by cases r <;> rfl, rfl⟩ ?_ ?_
    · rintro ⟨ha, -, hm, hvel⟩
      exact ⟨ha, rfl, hm, hvel⟩
    · rintro ⟨ha, -, hm⟩
      exact .inr ⟨ha, .inl rfl, hm⟩
  · exact h

/-! ### A frame -/

theorem stepOsc_kind (c : Config) (o : Option OscState) (f : F32) :
    (stepOsc c o f).2.1.map OscState.kind = o.map OscState.kind := by
  cases o <;> rfl

theorem stepFm_kind (c : Config) (o : Option OscState) (f cr mr idx : F32) :
    (stepFm c o f cr mr idx).2.1.map OscState.kind = o.map OscState.kind := by
  cases o <;> rfl

theorem stepSlot_kind (c : Config) (p : Params) (r : Route) (v : Voice) (k : OscSlot) :
    (stepSlot c p r v k).2.1.map OscState.kind = (v.osc k).map OscState.kind := by
  unfold stepSlot
  dsimp only
  split
  · cases k <;> exact stepFm_kind c _ _ _ _ _
  · exact stepOsc_kind c _ _

theorem stepEnv_isSome (c : Config) (e : Option EnvState) (g : F32) : (stepEnv c e g).2.1.isSome = e.isSome := by
  cases e <;> rfl

theorem stepFilt_isSome (c : Config) (f : Option FiltState) (x fc q : F32) :
    (stepFilt c f x fc q).2.1.isSome = f.isSome := by
  cases f <;> rfl

/-- The chain advances a voice's units and writes nothing else of it. -/
theorem voiceChain_sameUnits (c : Config) (p : Params) (rate : F32) (r : Route) (v : Voice) :
    v.SameUnits (voiceChain c p rate r v).voice where
  osc := fun k => by cases k <;> exact stepSlot_kind c p r v _
  env := fun e => by cases e <;> exact stepEnv_isSome c _ _
  filt := stepFilt_isSome c _ _ _ _

theorem SlotOk.releaseIfSilent {p : Params} {alloc i : Nat} {v : Voice} (h : SlotOk p alloc i v) (ae : F32) :
    SlotOk p alloc i (v.releaseIfSilent ae) := by
  unfold Voice.releaseIfSilent
  split
  · next hr =>
    refine h.map ⟨fun k => by cases k <;> rfl, fun r => by cases r <;> rfl, rfl⟩ ?_ ?_
    · rintro ⟨-, hg, -⟩
      exact ⟨rfl, hg, rfl, rfl⟩
    · rintro ⟨-, hg | hg, -⟩
      · exact .inl ⟨rfl, hg, rfl, rfl⟩
      · rw [hg, show fle one posZero = false by decide] at hr
        exact absurd hr Bool.false_ne_true
  · exact h

theorem SlotOk.frameVoice {p : Params} {alloc i : Nat} {v : Voice} (h : SlotOk p alloc i v) (c : Config) (rate : F32)
    (r : Route) : SlotOk p alloc i (frameVoice c p rate r v) := by
  unfold Machine.frameVoice
  split
  · exact (h.map (voiceChain_sameUnits c p rate r v) id .inr).releaseIfSilent _
  · exact h

/-! ## Commands that keep the allocated set -/

theorem Params.SameShape.of_eq {p q : Params} (h : q = p) : p.SameShape q := by
  subst h
  exact ⟨rfl, rfl, rfl⟩

/-- A command that keeps what the units depend on, and every voice good in its slot, keeps the invariants. -/
theorem Inv.of_slots {s t : State} (h : Inv s) (hpar : s.par.SameShape t.par) (halloc : t.eng.alloc = s.eng.alloc)
    (heng : EngineOk s.par.poly s.eng → EngineOk s.par.poly t.eng) (hrec : t.st = s.st ∧ t.dec = s.dec)
    (hv : ∀ i, i < NV → SlotOk s.par s.eng.alloc i (s.voice i) → SlotOk s.par s.eng.alloc i (t.voice i)) : Inv t := by
  obtain ⟨hst, hdec⟩ := hrec
  rw [inv_iff, hpar.poly]
  refine ⟨hpar.poly ▸ h.poly, heng h.engine, fun i hi => ?_, hst ▸ h.status, hdec ▸ h.decoder⟩
  rw [halloc]
  exact (hv i hi (h.slot hi)).of_waves hpar.wave1 hpar.wave2

theorem inv_propagateEnv (c : Config) (r : EnvRole) {s : State} (h : Inv s) : Inv (s.propagateEnv c r) := by
  obtain ⟨heng, hpar, hst, hdec, -⟩ := propagateEnv_frame c r s
  refine h.of_slots (.of_eq hpar) (congrArg _ heng) (fun he => heng ▸ he) ⟨hst, hdec⟩ fun i hi hs => ?_
  rw [propagateEnv_voice c r s i hi]
  split
  · exact hs.setEnv c _ r
  · exact hs

theorem inv_setPar {s : State} (h : Inv s) {p : Params} (hp : s.par.SameShape p) : Inv (s.setPar p) :=
  h.of_slots hp rfl id ⟨rfl, rfl⟩ fun _ _ hs => hs

theorem inv_noteOffs (which : Voice → Bool) (n : Nat) {s : State} (h : Inv s) : Inv (forBelow n (gateOff which) s) := by
  obtain ⟨hv, heng, hpar, hst, hdec, -⟩ := gateOffs_spec which n s
  refine h.of_slots (.of_eq hpar) (congrArg _ heng) (fun he => heng ▸ he) ⟨hst, hdec⟩ fun i hi hs => ?_
  rw [hv i hi]
  split
  · exact hs.offVoice which
  · exact hs

theorem inv_setFreq (f : F32) (n : Nat) {s : State} (h : Inv s) :
    Inv (forBelow n (fun j t => t.setVoice j { t.voice j with baseFreq := f }) s) := by
  obtain ⟨heng, hpar, hrec, hv⟩ := forBelow_setVoice_spec (fun v => { v with baseFreq := f }) n s
  refine h.of_slots (.of_eq hpar) (congrArg _ heng) (fun he => heng ▸ he) ⟨hrec.st, hrec.dec⟩ fun i hi hs => ?_
  rw [hv i hi]
  split
  · exact hs.setBaseFreq f
  · exact hs

theorem inv_frame (c : Config) {s : State} (h : Inv s) : Inv (frame c s) := by
  obtain ⟨heng, hpar, hst, hdec, -, -, -, hbelow, habove⟩ := frame_spec c s
  refine h.of_slots (.of_eq hpar) (by rw [heng]) (fun he => ?_) ⟨hst, hdec⟩ fun i hi hs => ?_
  · rw [heng]
    refine ⟨he.alloc, he.rr, fun hd => ?_, fun hu => ?_⟩
    · obtain ⟨ha, hlfo, htbl⟩ := he.down hd
      exact ⟨ha, by rw [hlfo]; rfl, htbl⟩
    · obtain ⟨hl, ⟨hlfo, htbl⟩, hsize⟩ := he.up hu
      exact ⟨hl, ⟨(stepOsc_kind c _ _).trans hlfo, htbl⟩, hsize⟩
  · by_cases hp : i < s.par.poly
    · rw [hbelow i hp hi]
      exact hs.frameVoice c _ _
    · rw [habove i (Nat.le_of_not_lt hp)]
      exact hs

/-! ### NOTE_ON -/

theorem allocate_rr_lt {s : State} (h : Inv s) : (allocate s).2.eng.rr < NV := by
  unfold allocate
  split
  · exact h.rr
  · exact Nat.lt_of_lt_of_le (Nat.mod_lt _ h.poly.1) h.poly.2

theorem midiOperand_bounds (k : Int) : MIDI_MIN ≤ midiOperand k ∧ midiOperand k ≤ MIDI_MAX :=
  clampI_bounds k (by decide)

theorem allocate_voice (s : State) (i : Nat) : (allocate s).2.voice i = s.voice i := by
  rw [allocate_state]
  rfl

/-- The voice NOTE_ON starts sounds the clamped note on the units it had. -/
theorem startNote_slotOk (c : Config) (k : Int) (vel : F32) {p : Params} {alloc i : Nat} {s : State} (hi : i < NV)
    (ha : i < alloc) (h : SlotOk p alloc i (s.voice i)) : SlotOk p alloc i ((startNote c i (midiOperand k) vel s).voice i) where
  note := by
    rw [startNote_voice c hi]
    exact .inr ⟨rfl, .inr rfl, midiOperand_bounds k⟩
  unit := fun _ => by
    rw [startNote_voice c hi]
    refine Voice.SameUnits.equipped (v := s.voice i) ⟨fun o => by cases o <;> rfl, fun r => ?_, rfl⟩ (h.unit ha)
    cases r <;> simp [Voice.env, envAfterSet]
  rest := fun hr => absurd ha (Nat.not_lt_of_le hr)

theorem inv_noteOn (c : Config) (k : Int) (vel : F32) {s : State} (h : Inv s) (hup : s.eng.init = true) :
    Inv (startNote c (allocate s).1 (midiOperand k) vel (allocate s).2) := by
  obtain ⟨heng, hpar, hst, hdec, -⟩ := startNote_frame c (allocate s).1 (midiOperand k) vel (allocate s).2
  have hrr := allocate_rr_lt h
  have hrec := allocate_record s
  have hlt : (allocate s).1 < s.par.poly := allocate_lt h.poly.1
  refine h.of_slots (.of_eq (hpar.trans (by rw [allocate_state]; rfl))) ?_ (fun he => ?_)
    ⟨hst.trans hrec.st, hdec.trans hrec.dec⟩ fun i hi hs => ?_
  · rw [heng, allocate_state]
    rfl
  · rw [heng, allocate_state]
    exact ⟨he.alloc, hrr, he.down, he.up⟩
  · by_cases hne : i = (allocate s).1
    · subst hne
      rw [← allocate_voice s] at hs
      exact startNote_slotOk c k vel hi (Nat.lt_of_lt_of_le hlt (h.up hup).1) hs
    · rw [startNote_voice_ne c hne, allocate_voice]
      exact hs

/-! ## Teardown and the fatal path -/

theorem inv_teardown {s : State} (h : Inv s) : Inv (teardown s) := by
  refine inv_of_down ?_ ?_ ?_ ?_ (fun i hi => ?_) ?_ ?_
  · rw [teardown_par]; exact h.poly
  · rw [teardown_eng]; exact h.rr
  · rw [teardown_eng]; rfl
  · rw [teardown_eng]; exact ⟨rfl, rfl, rfl, rfl, rfl⟩
  · rw [teardown_voice s hi]; exact torn_idle _
  · rw [teardown_st]; exact h.status
  · rw [teardown_dec]; exact h.decoder

/-- A Fatal of a command that began at a good state leaves a good state: its registers were in range where it was raised. -/
theorem inv_fatalFrom (c : Config) {s u : State} (h : Inv s) (hrec : SameRecord s u)
    (hpoly : 1 ≤ u.par.poly ∧ u.par.poly ≤ NV) (hrr : u.eng.rr < NV) : Inv (fatalFrom c FATAL_RESOURCE s u) := by
  refine inv_of_down ?_ ?_ ?_ ?_ (fun i hi => ?_) ?_ ?_
  · rw [fatalFrom_par]
    split
    · exact h.poly
    · exact hpoly
  · rw [fatalFrom_eng]
    dsimp only
    split
    · exact h.rr
    · exact hrr
  · rw [fatalFrom_eng]; rfl
  · rw [fatalFrom_eng]; exact ⟨rfl, rfl, rfl, rfl, rfl⟩
  · rw [fatalFrom_voice c _ s u hi]; exact torn_idle _
  · rw [fatalFrom_st, hrec.st]; exact lawful_fatalError h.status
  · rw [fatalFrom_dec, hrec.dec]; exact h.decoder

/-! ## Creation that goes through -/

/-- An equipped engine has the table of every oscillator unit. -/
theorem unitTable_of_equipped {s : State} (h : s.eng.Equipped) (k : OscSlot) : ∃ t, unitTable s k = some t := by
  obtain ⟨-, hsine, h1, h2⟩ := h
  rw [← Option.isSome_iff_exists, unitTable]
  split
  · exact hsine
  · cases k <;> assumption

/-- The unit NewOsc makes on an equipped engine has the tag its slot's waveform needs. -/
theorem freshOsc_kind (c : Config) {s : State} (h : s.eng.Equipped) (k : OscSlot) (old : Option OscState) :
    (freshOsc c s k old).map OscState.kind = some (s.par.wave k).kind := by
  obtain ⟨t, ht⟩ := unitTable_of_equipped h k
  rw [freshOsc, ht]
  rfl

theorem freshVoice_slotOk (c : Config) {s : State} {alloc i : Nat} (h : s.eng.Equipped) (hi : i < alloc) (v : Voice) :
    SlotOk s.par alloc i (freshVoice c s v) where
  note := .inl ⟨rfl, rfl, rfl, rfl⟩
  unit := fun _ => ⟨freshOsc_kind c h .one _, freshOsc_kind c h .two _, rfl, rfl, rfl⟩
  rest := fun hr => absurd hi (Nat.not_lt_of_le hr)

/-- Ensure that went through: the block is good with `n` slots allocated. -/
theorem invFor_ensure {c : Config} {n : Nat} {s t : State} (h : InvFor 0 s) (hup : s.eng.init = true) (hn : n ≤ NV)
    (hok : ensure c n s = .ok t) : InvFor n t := by
  obtain ⟨hg, halloc, habove⟩ := ensure_ok hok
  obtain ⟨-, hequip, hsize⟩ := h.engine.up hup
  have hs := h.engine.alloc
  refine ⟨hg.par ▸ h.poly, ?_, fun i hi => ?_, hg.st ▸ h.status, hg.dec ▸ h.decoder⟩
  · rw [hg.eng]
    refine ⟨by dsimp only; omega, h.engine.rr, fun hd => ?_, fun _ => ⟨by dsimp only; omega, hequip, hsize⟩⟩
    exact absurd (hup.symm.trans hd) Bool.noConfusion
  · rw [hg.par]
    have hslot := h.slots i hi
    by_cases hlow : i < s.eng.alloc
    · rw [hg.below i hlow]
      exact ⟨hslot.note, fun _ => hslot.unit hlow, fun hr => by have := hg.grows; omega⟩
    · by_cases hbuilt : i < t.eng.alloc
      · rw [hg.built i (Nat.le_of_not_lt hlow) hbuilt hi]
        exact freshVoice_slotOk c hequip hbuilt _
      · rw [habove i (Nat.le_of_not_lt hbuilt)]
        exact ⟨hslot.note, fun hr => absurd hr hbuilt, fun _ => hslot.rest (Nat.le_of_not_lt hlow)⟩

/-! ### SET_POLY -/

/-- With the polyphony written, the block is good but for the slots still to be allocated. -/
theorem invFor_setPoly (n : Int) {s : State} (h : Inv s) : InvFor 0 (s.setPar { s.par with poly := polyOperand n }) where
  poly := clampI_poly_bounds n
  engine := ⟨h.alloc, h.rr, h.down, fun hu => ⟨Nat.zero_le _, (h.up hu).2⟩⟩
  slots := fun _ hi => (h.slot hi).of_waves rfl rfl
  status := h.status
  decoder := h.decoder

theorem inv_setPolyDown (n : Int) {s : State} (h : Inv s) (hd : s.eng.init = false) :
    Inv (s.setPar { s.par with poly := polyOperand n }) := by
  have hp := invFor_setPoly n h
  rw [inv_iff]
  exact ⟨hp.poly, ⟨h.alloc, h.rr, h.down, fun hu => absurd (hu.symm.trans hd) Bool.noConfusion⟩, hp.slots, hp.status,
    hp.decoder⟩

theorem inv_setPolyUp {c : Config} {n : Int} {s t : State} (h : Inv s) (hup : s.eng.init = true)
    (hok : ensure c (polyOperand n) (s.setPar { s.par with poly := polyOperand n }) = .ok t) : Inv t := by
  have hpar := (ensure_ok hok).1.par
  rw [inv_iff, hpar]
  exact invFor_ensure (invFor_setPoly n h) hup (clampI_poly_bounds n).2 hok

/-! ### The waveform commands -/

/-- SetWave, wherever it stands, writes no engine register but the slot's table, which is there if it was. -/
theorem setWave_eng (c : Config) (k : OscSlot) (type : Int) (s : State) :
    ∃ t, (setWave c k type s).state.eng = s.eng.setTbl k t ∧ t.isSome = (s.eng.tbl k).isSome := by
  by_cases hi : s.eng.init = true
  · obtain ⟨t, heng, href, -⟩ := setWaveBegin_eng c k type s
    obtain ⟨-, hloop, -⟩ := recreateBelow_frame c k s.eng.alloc (setWaveBegin c k type s)
    refine ⟨t, ?_, by simpa using congrArg Option.isSome href⟩
    rw [setWave_eq c k type s hi, hloop, heng]
  · rw [setWave_uninit c k type s (Bool.eq_false_iff.mpr hi)]
    exact ⟨s.eng.tbl k, by cases k <;> rfl, rfl⟩

theorem equipped_setTbl {e : Engine} {k : OscSlot} {t : Option TableRef} (h : e.Equipped)
    (ht : t.isSome = (e.tbl k).isSome) : (e.setTbl k t).Equipped := by
  obtain ⟨hlfo, hsine, h1, h2⟩ := h
  cases k
  · exact ⟨hlfo, hsine, ht.trans h1, h2⟩
  · exact ⟨hlfo, hsine, h1, ht.trans h2⟩

theorem bare_setTbl {e : Engine} {k : OscSlot} {t : Option TableRef} (h : e.Bare)
    (ht : t.isSome = (e.tbl k).isSome) : (e.setTbl k t).Bare := by
  obtain ⟨ha, hlfo, hsine, h1, h2⟩ := h
  have htbl : e.tbl k = none := by cases k <;> assumption
  have hnone : t = none := by simpa [htbl] using ht
  subst hnone
  cases k
  · exact ⟨ha, hlfo, hsine, rfl, h2⟩
  · exact ⟨ha, hlfo, hsine, h1, rfl⟩

theorem engineOk_setTbl {least : Nat} {e : Engine} {k : OscSlot} {t : Option TableRef} (h : EngineOk least e)
    (ht : t.isSome = (e.tbl k).isSome) : EngineOk least (e.setTbl k t) where
  alloc := by rw [setTbl_alloc]; exact h.alloc
  rr := by rw [setTbl_rr]; exact h.rr
  down := fun hd => bare_setTbl (h.down (by rwa [setTbl_init] at hd)) ht
  up := fun hu => by
    rw [setTbl_init] at hu
    obtain ⟨hl, hequip, hsize⟩ := h.up hu
    rw [setTbl_alloc, setTbl_tableSize]
    exact ⟨hl, equipped_setTbl hequip ht, hsize⟩

theorem wave_setWave_ne (p : Params) {k j : OscSlot} (w : Wave) (h : k ≠ j) : (p.setWave k w).wave j = p.wave j := by
  match k, j with
  | .one, .two | .two, .one => rfl
  | .one, .one | .two, .two => exact absurd rfl h

/-- A voice whose slot-`k` unit was made anew for the new waveform is good in its slot. -/
theorem SlotOk.setOsc {p : Params} {alloc i : Nat} {v : Voice} (h : SlotOk p alloc i v) (hi : i < alloc) {k : OscSlot}
    {w : Wave} {o : Option OscState} (ho : o.map OscState.kind = some w.kind) :
    SlotOk (p.setWave k w) alloc i (v.setOsc k o) where
  note := by cases k <;> exact h.note
  unit := fun _ => by
    obtain ⟨hosc, henv, hfilt⟩ := (equipped_iff p v).mp (h.unit hi)
    refine (equipped_iff _ _).mpr ⟨fun j => ?_, by cases k <;> exact henv, by rw [setOsc_filt]; exact hfilt⟩
    by_cases hkj : k = j
    · subst hkj
      rw [osc_setOsc_self, wave_setWave_self]
      exact ho
    · rw [osc_setOsc_ne v o hkj, wave_setWave_ne p w hkj]
      exact hosc j
  rest := fun hr => absurd hi (Nat.not_lt_of_le hr)

theorem SlotOk.unallocated {p : Params} {alloc i : Nat} {v : Voice} (h : SlotOk p alloc i v) (hi : alloc ≤ i) (q : Params) :
    SlotOk q alloc i v :=
  ⟨h.note, fun hlt => absurd hlt (Nat.not_lt_of_le hi), h.rest⟩

/-- SetWave that went through leaves each voice good for the new waveform. -/
theorem setWave_slotOk {c : Config} {k : OscSlot} {type : Int} {s t : State} (h : Inv s) (hok : setWave c k type s = .ok t)
    {i : Nat} (hi : i < NV) : SlotOk (s.par.setWave k (waveOperand type)) s.eng.alloc i (t.voice i) := by
  have hs := h.slot hi
  by_cases hup : s.eng.init = true
  · rw [setWave_eq c k type s hup] at hok
    obtain ⟨hpar, -, -, -, -, hvoices, -⟩ := setWaveBegin_spec c k type s
    have hv := voice_congr hvoices i
    by_cases ha : i < s.eng.alloc
    · obtain ⟨tbl, heng, href, -⟩ := setWaveBegin_eng c k type s
      have hequip : (setWaveBegin c k type s).eng.Equipped := by
        rw [heng]
        exact equipped_setTbl (h.up hup).2.1 (by simpa using congrArg Option.isSome href)
      have hkind := freshOsc_kind c hequip k none
      rw [hpar, wave_setWave_self] at hkind
      rw [recreateBelow_ok hok i ha hi, hv]
      exact hs.setOsc ha hkind
    · obtain ⟨-, -, habove, -⟩ := recreateBelow_frame c k s.eng.alloc (setWaveBegin c k type s)
      rw [hok] at habove
      rw [show t.voice i = _ from habove i (Nat.le_of_not_lt ha), hv]
      exact hs.unallocated (Nat.le_of_not_lt ha) _
  · have hd := Bool.eq_false_iff.mpr hup
    rw [setWave_uninit c k type s hd] at hok
    cases hok
    exact hs.unallocated ((h.down hd).1 ▸ Nat.zero_le i) _

theorem inv_setWave {c : Config} {k : OscSlot} {type : Int} {s t : State} (h : Inv s) (hok : setWave c k type s = .ok t) :
    Inv t := by
  obtain ⟨hst, hdec, -, -, hpar, -⟩ := setWave_frame c k type s
  obtain ⟨tbl, heng, htbl⟩ := setWave_eng c k type s
  rw [hok] at hst hdec hpar heng
  simp only [Attempt.state] at hst hdec hpar heng
  have hpoly : t.par.poly = s.par.poly := by rw [hpar, setWave_poly]
  rw [inv_iff, hpoly]
  refine ⟨hpoly ▸ h.poly, heng ▸ engineOk_setTbl h.engine htbl, fun i hi => ?_, hst ▸ h.status, hdec ▸ h.decoder⟩
  rw [hpar, heng, setTbl_alloc]
  exact setWave_slotOk h hok hi

/-! ### INIT -/

/-- A table size that INIT accepts is at least the least one (R240). -/
theorem tableSizeOperand_ge {k : Int} (h : fitsI32 k = true) : TABLE_MIN ≤ (tableSizeOperand k).toNat := by
  rw [fitsI32_iff] at h
  simp only [tableSizeOperand, ofS32, BitVec.toNat_ofInt, TABLE_MIN, TABLE_DEFAULT]
  split <;> omega

/-- Once INIT has its tables and its LFO, the block is good but for the slots still to be allocated. -/
theorem invFor_initTables {c : Config} {rate : F32} {size : Int} {s t : State} (h : Inv s) (hsize : fitsI32 size = true)
    (hok : initTables c (initBegin rate size s) = .ok t) : InvFor 0 (t.setEng { t.eng with init := true }) := by
  have hdown := inv_teardown h
  have htab := initTables_frame c (initBegin rate size s)
  rw [hok, initBegin_teardown rate size h] at htab
  simp only [Attempt.state] at htab
  refine ⟨htab.par ▸ hdown.poly, ?_, fun i hi => ?_, htab.st ▸ hdown.status, htab.dec ▸ hdown.decoder⟩
  · have hequip := initTables_ok hok
    rw [setEng_eng]
    refine ⟨?_, ?_, Bool.noConfusion, fun _ => ⟨Nat.zero_le _, hequip, ?_⟩⟩
    · rw [htab.eng]; exact hdown.alloc
    · rw [htab.eng]; exact Nat.zero_lt_succ _
    · rw [htab.eng]; exact tableSizeOperand_ge hsize
  · have halloc : t.eng.alloc = (teardown s).eng.alloc := by rw [htab.eng]; rfl
    simp only [setEng_par, setEng_eng, voice_setEng]
    rw [htab.par, halloc, voice_congr htab.voices]
    exact hdown.slot hi

theorem inv_init {c : Config} {rate : F32} {size : Int} {s t u : State} (h : Inv s) (hsize : fitsI32 size = true)
    (htab : initTables c (initBegin rate size s) = .ok t) (hok : initFinish c t = .ok u) : Inv u := by
  have hb := invFor_initTables h hsize htab
  have hpar := (ensure_ok hok).1.par
  rw [inv_iff, hpar]
  exact invFor_ensure hb rfl hb.poly.2 hok

/-! ## Every command, every step -/

theorem Attempts.inv {c : Config} {s t : State} {i : Instr} {x : Attempt} (ha : Attempts c s i x) (h : Inv s)
    (hwf : i.wellFormed = true) (hx : x = .ok t) : Inv t := by
  cases ha with
  | init rate size =>
    obtain ⟨u, htab, hok⟩ := Attempt.andThen_eq_ok.mp hx
    exact inv_init h hwf htab hok
  | setPolyDown n hd => cases hx; exact inv_setPolyDown n h hd
  | setPolyUp n hup => exact inv_setPolyUp h hup hx
  | setWave1 type => exact inv_setWave h hx
  | setWave2 type => exact inv_setWave h hx
  | setWave type =>
    obtain ⟨u, h1, h2⟩ := Attempt.andThen_eq_ok.mp hx
    exact inv_setWave (inv_setWave h h1) h2

/-- The registers a Fatal may keep from where it was raised are in range. -/
def InRange (s : State) : Prop := (1 ≤ s.par.poly ∧ s.par.poly ≤ NV) ∧ s.eng.rr < NV

theorem inRange_setWave (c : Config) (k : OscSlot) (type : Int) {s : State} (h : InRange s) :
    InRange (setWave c k type s).state := by
  obtain ⟨-, -, -, -, hpar, -⟩ := setWave_frame c k type s
  obtain ⟨tbl, heng, -⟩ := setWave_eng c k type s
  rw [InRange, hpar, heng, setWave_poly, setTbl_rr]
  exact h

theorem inRange_ensure (c : Config) (n : Nat) {s : State} (h : InRange s) : InRange (ensure c n s).state := by
  have hg := ensure_grown c n s
  rw [InRange, hg.par, hg.eng]
  exact h

theorem Attempts.inRange {c : Config} {s : State} {i : Instr} {x : Attempt} (ha : Attempts c s i x) (h : Inv s) :
    InRange x.state := by
  have hs : InRange s := ⟨h.poly, h.rr⟩
  cases ha with
  | init rate size =>
    have hbegin : InRange (initBegin rate size s) := by
      obtain ⟨heng, hpar, -⟩ := initBegin_spec rate size s
      rw [InRange, heng, hpar]
      exact ⟨h.poly, Nat.zero_lt_succ _⟩
    have htab := initTables_frame c (initBegin rate size s)
    refine Attempt.andThen_keeps (K := InRange) ?_ fun t ht => inRange_ensure c _ ht
    rw [InRange, htab.par, htab.eng]
    exact hbegin
  | setPolyDown n => exact ⟨clampI_poly_bounds n, h.rr⟩
  | setPolyUp n => exact inRange_ensure c _ ⟨clampI_poly_bounds n, h.rr⟩
  | setWave1 type => exact inRange_setWave c .one type hs
  | setWave2 type => exact inRange_setWave c .two type hs
  | setWave type =>
    exact Attempt.andThen_keeps (K := InRange) (inRange_setWave c .one type hs) fun t => inRange_setWave c .two type

theorem Runs.inv {c : Config} {s t : State} {i : Instr} (hr : Runs c s i t) (h : Inv s) (hwf : i.wellFormed = true) :
    Inv t := by
  cases hr with
  | nothing => exact h
  | registers hp => exact inv_setPar h hp
  | envelopes role hp => exact inv_propagateEnv c role (inv_setPar h hp)
  | noteOn midi velocity hup => exact inv_noteOn c midi velocity h hup
  | noteOffs which => exact inv_noteOffs which _ h
  | setFreq freq => exact inv_setFreq freq _ h
  | render n => exact frames_induct c n.toNat h fun u hu => inv_frame c hu
  | shutdown => exact inv_teardown h
  | @creates _ x ha =>
    cases hx : x with
    | ok u => exact ha.inv h hwf hx
    | fail u =>
      subst hx
      obtain ⟨hpoly, hrr⟩ := ha.inRange h
      exact inv_fatalFrom c h ha.record hpoly hrr

theorem inv_cmdError {s : State} (h : Inv s) (e : DecodeError) : Inv (cmdError (errorCode e) s) where
  poly := h.poly
  alloc := h.alloc
  rr := h.rr
  down := h.down
  up := h.up
  notes := h.notes
  units := h.units
  rest := h.rest
  status := lawful_cmdError h.status e
  decoder := h.decoder

theorem Received.inv {s u : State} (hu : Received s u) (h : Inv s) : Inv u := by
  have hdec := hu.lawful h.decoder
  rw [hu.rest]
  exact ⟨h.poly, h.alloc, h.rr, h.down, h.up, h.notes, h.units, h.rest, h.status, hdec⟩

/-- Settles O3: receiving a word keeps the invariants, and so does every command and every recorded error. -/
theorem stepKeepsInvariant : Obligations.StepKeepsInvariant := by
  unfold Obligations.StepKeepsInvariant
  intro s t h hstep
  obtain ⟨u, hu, rfl | he⟩ := step_cases hstep
  · exact hu.inv h
  · cases he with
    | error e => exact inv_cmdError (hu.inv h) e
    | command hwf hexec => exact (exec_runs hexec).inv (hu.inv h) hwf

end Sys2Proof.Machine
end

section
/-! # What the commands keep: errors, parameters, the output stream, the running state and the notes (10_state.md R32, R34,
R35, R40, R41, R44, R46) -/

namespace Sys2Proof.Machine

/-! ## STATUS -/

/-- STATUS bit by bit, in one reading of its concatenation (R44). -/
theorem statusWord_getLsbD (s : State) (i : Nat) : (statusWord s).getLsbD i =
    if i < 3 then (if i = 0 then s.eng.init else if i = 1 then s.st.errCmd else s.st.fatal)
    else if i < 8 then false else s.st.errCode.getLsbD (i - 8) := by
  change BitVec.getLsbD (w := 16 + 8 + 5 + 1 + 1 + 1) (0#16 ++ s.st.errCode ++ 0#5 ++ BitVec.ofBool s.st.fatal ++
    BitVec.ofBool s.st.errCmd ++ BitVec.ofBool s.eng.init) i = _
  simp only [BitVec.getLsbD_append, BitVec.getLsbD_ofBool]
  match i with
  | 0 | 1 | 2 | 3 | 4 | 5 | 6 | 7 => simp
  | j + 8 =>
    have hhigh (hj : ¬j < 8) : s.st.errCode.getLsbD j = false := BitVec.getLsbD_of_ge _ _ (Nat.le_of_not_lt hj)
    by_cases hj : j < 8 <;> simp [hj, hhigh, show ¬j + 8 < 3 by omega]

/-- Settles O14: each field is read off the bits of STATUS. -/
theorem statusLayout : Obligations.StatusLayout := by
  unfold Obligations.StatusLayout
  intro s
  refine ⟨statusWord_getLsbD s 0, statusWord_getLsbD s 1, statusWord_getLsbD s 2, ?_, ?_, ?_⟩
  · ext i hi
    simp [statusWord_getLsbD, show ¬3 + i < 3 by omega, show 3 + i < 8 by omega]
  · ext i hi
    simp [statusWord_getLsbD, show ¬8 + i < 3 by omega, show ¬8 + i < 8 by omega, hi]
  · ext i hi
    simp [statusWord_getLsbD, show ¬16 + i < 3 by omega, show ¬16 + i < 8 by omega,
      BitVec.getLsbD_of_ge s.st.errCode (16 + i - 8) (by omega)]

/-- `st'` keeps every error that `st` records (R44, R265). -/
structure Status.Keeps (st st' : Status) : Prop where
  errCmd  : st.errCmd = true → st'.errCmd = true
  fatal   : st.fatal = true → st'.fatal = true
  errCode : st.errCode ≠ 0 → st'.errCode = st.errCode

theorem Status.Keeps.refl (st : Status) : st.Keeps st := ⟨id, id, fun _ => rfl⟩

theorem firstCode_keeps (st : Status) (code : BitVec 8) : st.Keeps (st.firstCode code) := by
  unfold Status.firstCode
  split
  · next h0 => exact ⟨id, id, fun hne => absurd h0 hne⟩
  · exact .refl st

theorem cmdError_keeps (st : Status) (code : BitVec 8) : st.Keeps (st.cmdError code) := by
  have h := firstCode_keeps { st with errCmd := true } code
  exact ⟨fun _ => h.errCmd rfl, h.fatal, h.errCode⟩

theorem fatalError_keeps (st : Status) (code : BitVec 8) : st.Keeps (st.fatalError code) := by
  have h := firstCode_keeps { st with fatal := true } code
  exact ⟨h.errCmd, fun _ => h.fatal rfl, h.errCode⟩

theorem exec_keeps_errors {i : Instr} {s t : State} (h : exec i s = .next t) : s.st.Keeps t.st := by
  obtain hst | hst := (exec_runs h).frame.st
  · rw [hst]
    exact .refl _
  · rw [hst]
    exact fatalError_keeps _ _

theorem step_keeps_errors {s t : State} (h : step s = .next t) : s.st.Keeps t.st := by
  obtain ⟨u, hu, ht⟩ := step_cases h
  have hst : s.st = u.st := by rw [hu.rest]
  rw [hst]
  obtain rfl | he := ht
  · exact .refl _
  · cases he with
    | error e => exact cmdError_keeps _ _
    | command _ hexec => exact exec_keeps_errors hexec

/-- Settles O15: a first code is recorded only where there is none, and the flags are only set. -/
theorem errorsAreSticky : Obligations.ErrorsAreSticky := by
  unfold Obligations.ErrorsAreSticky
  intro s t h
  obtain ⟨hcmd, hfatal, hcode⟩ := step_keeps_errors h
  exact ⟨hcmd, hfatal, hcode⟩

/-! ## The output stream -/

/-- Settles O53: the frame of every command, whose one writer of the stream is RENDER. -/
theorem onlyRenderEmits : Obligations.OnlyRenderEmits := by
  unfold Obligations.OnlyRenderEmits
  intro i s t h
  have hf := (exec_runs h).frame
  exact ⟨hf.out, hf.quiet⟩

/-! ## The parameters -/

theorem noteOn_par (c : Config) (k : Int) (vel : F32) (s : State) : (noteOn c k vel s).par = s.par := by
  unfold noteOn
  split
  · obtain ⟨-, hpar, -⟩ := startNote_frame c (allocate s).1 (midiOperand k) vel (allocate s).2
    rw [hpar, allocate_state]
    rfl
  · rfl

theorem render_par (c : Config) (n : Int) (s : State) : (render c n s).par = s.par := by
  unfold render
  split
  · exact (frames_keep c n.toNat s).par
  · rfl

/-- INIT keeps the parameters, whether it goes through or ends in a Fatal. -/
theorem initEngine_par (c : Config) (rate : F32) (size : Int) (s : State) : (initEngine c rate size s).par = s.par := by
  have hpar := (initAttempt_same c rate size s).par
  unfold initEngine
  obtain ⟨-, h⟩ | ⟨-, h⟩ := Attempt.orFatal_cases c s ((initTables c (initBegin rate size s)).andThen (initFinish c))
  · rw [h, hpar]
  · rw [h, fatalFrom_par, hpar, ite_self]

theorem noteOffs_par (which : Voice → Bool) (s : State) :
    (if s.eng.init then forBelow s.par.poly (gateOff which) s else s).par = s.par := by
  split
  · obtain ⟨-, -, hpar, -⟩ := gateOffs_spec which s.par.poly s
    exact hpar
  · rfl

/-- Settles O23: command by command; INIT's Fatal keeps the parameters in both readings, as INIT wrote none. -/
theorem onlySettersWriteParameters : Obligations.OnlySettersWriteParameters := by
  unfold Obligations.OnlySettersWriteParameters
  rintro s t k x (h | h | h | h | h | h | h)
  · cases h; exact initEngine_par _ _ _ s
  · cases h; exact teardown_par s
  · cases h; exact noteOn_par _ _ _ s
  · cases h; exact noteOffs_par _ s
  · cases h; exact noteOffs_par _ s
  · cases h
    split
    · obtain ⟨-, hpar, -⟩ := forBelow_setVoice_spec (fun v => { v with baseFreq := x }) s.eng.alloc s
      exact hpar
    · rfl
  · cases h; exact render_par _ _ s

/-! ## The voices at or above the polyphony -/

/-- A slot outside the register file reads alike in every state. -/
theorem voice_of_ge (s t : State) {j : Nat} (h : NV ≤ j) : s.voice j = t.voice j := by
  simp only [State.voice]
  rw [Vector.getElem?_eq_none h, Vector.getElem?_eq_none h]

theorem noteOn_voice_above (c : Config) (k : Int) (vel : F32) {s : State} {j : Nat} (hpoly : 1 ≤ s.par.poly)
    (hj : s.par.poly ≤ j) : (noteOn c k vel s).voice j = s.voice j := by
  unfold noteOn
  split
  · have hlt : (allocate s).1 < s.par.poly := allocate_lt hpoly
    rw [startNote_voice_ne c (by omega), allocate_voice]
  · rfl

theorem noteOffs_voice_above (which : Voice → Bool) {s : State} {j : Nat} (hj : s.par.poly ≤ j) :
    (if s.eng.init then forBelow s.par.poly (gateOff which) s else s).voice j = s.voice j := by
  split
  · by_cases hv : j < NV
    · obtain ⟨hvoice, -⟩ := gateOffs_spec which s.par.poly s
      rw [hvoice j hv, if_neg (Nat.not_lt_of_le hj)]
    · exact voice_of_ge _ _ (Nat.le_of_not_lt hv)
  · rfl

theorem frame_voice_above (c : Config) {s : State} {j : Nat} (hj : s.par.poly ≤ j) :
    (frame c s).voice j = s.voice j := by
  obtain ⟨-, -, -, -, -, -, -, -, habove⟩ := frame_spec c s
  exact habove j hj

theorem render_voice_above (c : Config) (n : Int) {s : State} {j : Nat} (hj : s.par.poly ≤ j) :
    (render c n s).voice j = s.voice j := by
  unfold render
  split
  · have hframes := frames_induct (K := fun t => t.par = s.par ∧ t.voice j = s.voice j) c n.toNat ⟨rfl, rfl⟩
      fun t ht => ⟨(frame_keeps c t).par.trans ht.1, (frame_voice_above c (ht.1 ▸ hj)).trans ht.2⟩
    exact hframes.2
  · rfl

/-- Settles O52: NOTE_ON takes a slot below the polyphony, and the other commands' loops end there. -/
theorem slotsAbovePolyphonyAreFrozen : Obligations.SlotsAbovePolyphonyAreFrozen := by
  unfold Obligations.SlotsAbovePolyphonyAreFrozen
  rintro s t k x j hpoly hj (h | h | h | h)
  · cases h; exact noteOn_voice_above _ _ _ hpoly hj
  · cases h; exact noteOffs_voice_above _ hj
  · cases h; exact noteOffs_voice_above _ hj
  · cases h; exact render_voice_above _ _ hj

/-! ## The running state -/

theorem ensure_init (c : Config) (n : Nat) (s : State) : (ensure c n s).state.eng.init = s.eng.init := by
  rw [(ensure_grown c n s).eng]

theorem setWave_init (c : Config) (k : OscSlot) (type : Int) (s : State) :
    (setWave c k type s).state.eng.init = s.eng.init := by
  obtain ⟨tbl, heng, -⟩ := setWave_eng c k type s
  rw [heng, setTbl_init]

/-- The commands other than INIT that create units. -/
def CreatesUnits (i : Instr) : Prop :=
  (∃ n, i = .setPoly n) ∨ (∃ n, i = .setWave n) ∨ (∃ n, i = .setWave1 n) ∨ (∃ n, i = .setWave2 n)

/-- Every attempt but INIT's keeps `E.init` where it stands, and goes through when no creation fails. -/
theorem Attempts.init_sure {c : Config} {s : State} {i : Instr} {x : Attempt} (h : Attempts c s i x)
    (hi : ∀ r n, i ≠ .init r n) : CreatesUnits i ∧ x.state.eng.init = s.eng.init ∧ Sure c s x := by
  cases h with
  | init rate size => exact absurd rfl (hi rate size)
  | setPolyDown n => exact ⟨.inl ⟨n, rfl⟩, rfl, .ok (Nat.le_refl _)⟩
  | setPolyUp n => exact ⟨.inl ⟨n, rfl⟩, ensure_init c _ _, (ensure_sure c _ _).of_draws rfl⟩
  | setWave1 type => exact ⟨.inr (.inr (.inl ⟨type, rfl⟩)), setWave_init c .one type s, setWave_sure c .one type s⟩
  | setWave2 type => exact ⟨.inr (.inr (.inr ⟨type, rfl⟩)), setWave_init c .two type s, setWave_sure c .two type s⟩
  | setWave type =>
    refine ⟨.inr (.inl ⟨type, rfl⟩), ?_, (setWave_sure c .one type s).andThen (setWave_sure c .two type)⟩
    exact Attempt.andThen_keeps (K := fun t => t.eng.init = s.eng.init) (setWave_init c .one type s) fun t ht =>
      (setWave_init c .two type t).trans ht

/-- What a command but INIT and SHUTDOWN does to `E.init`: nothing, or it ends in the fatal path of a failed creation. -/
theorem Runs.init_cases {c : Config} {s t : State} {i : Instr} (h : Runs c s i t) (hi : ∀ r n, i ≠ .init r n)
    (hs : i ≠ .shutdown) : t.eng.init = s.eng.init ∨
      (CreatesUnits i ∧ ¬CreationsSucceed c s.draws ∧ t.eng.init = false ∧ t.st = s.st.fatalError FATAL_RESOURCE) := by
  cases h with
  | nothing => exact .inl rfl
  | registers => exact .inl rfl
  | @envelopes _ p role =>
    obtain ⟨heng, -⟩ := propagateEnv_frame c role (s.setPar p)
    rw [heng]
    exact .inl rfl
  | noteOn midi velocity =>
    obtain ⟨heng, -⟩ := startNote_frame c (allocate s).1 (midiOperand midi) velocity (allocate s).2
    rw [heng, allocate_state]
    exact .inl rfl
  | noteOffs which =>
    obtain ⟨-, heng, -⟩ := gateOffs_spec which s.par.poly s
    rw [heng]
    exact .inl rfl
  | setFreq freq =>
    obtain ⟨heng, -⟩ := forBelow_setVoice_spec (fun v => { v with baseFreq := freq }) s.eng.alloc s
    exact .inl (congrArg Engine.init heng)
  | render n =>
    rw [(frames_keep c n.toNat s).eng]
    exact .inl rfl
  | shutdown => exact absurd rfl hs
  | @creates _ x hx =>
    obtain ⟨hcreates, hinit, hsure⟩ := hx.init_sure hi
    obtain ⟨-, ht⟩ | ⟨hfail, ht⟩ := x.orFatal_cases c s
    · exact .inl (by rw [ht, hinit])
    · refine .inr ⟨hcreates, fun hc => ?_, ?_, ?_⟩
      · exact absurd (hfail.symm.trans (hsure.sure hc)) Bool.noConfusion
      · rw [ht, fatalFrom_eng]
        rfl
      · rw [ht, fatalFrom_st, hx.record.st]

/-- What a Fatal writes to STATUS, field by field. -/
theorem fatalError_eq (st : Status) (code : BitVec 8) :
    st.fatalError code = { errCmd := st.errCmd, fatal := true, errCode := if st.errCode = 0 then code else st.errCode } := by
  unfold Status.fatalError Status.firstCode
  split <;> simp_all

/-- Settles O42: an attempt keeps `E.init` wherever it stands, and only a failed creation ends it in the fatal path. -/
theorem onlyLifecycleWritesInit : Obligations.OnlyLifecycleWritesInit := by
  unfold Obligations.OnlyLifecycleWritesInit
  intro i s t h hi hs
  rw [← fatalError_eq]
  exact (exec_runs h).init_cases hi hs

/-! ## Notes -/

/-- `w` is active only where `v` is, and then holds the note `v` holds. -/
def Voice.NoNewNote (v w : Voice) : Prop := w.active = true → v.active = true ∧ w.midi = v.midi ∧ w.velocity = v.velocity

theorem Voice.NoNewNote.refl (v : Voice) : v.NoNewNote v := fun h => ⟨h, rfl, rfl⟩

theorem Voice.NoNewNote.trans {u v w : Voice} (h : u.NoNewNote v) (k : v.NoNewNote w) : u.NoNewNote w := fun hw => by
  obtain ⟨hv, hm, hvel⟩ := k hw
  obtain ⟨hu, hm', hvel'⟩ := h hv
  exact ⟨hu, hm.trans hm', hvel.trans hvel'⟩

theorem noNewNote_of_inactive (v : Voice) {w : Voice} (h : w.active = false) : v.NoNewNote w := fun hw =>
  absurd (h.symm.trans hw) Bool.noConfusion

theorem noNewNote_setOsc (v : Voice) (k : OscSlot) (o : Option OscState) : v.NoNewNote (v.setOsc k o) := by
  cases k <;> exact fun h => ⟨h, rfl, rfl⟩

theorem noNewNote_setEnv (v : Voice) (r : EnvRole) (e : Option EnvState) : v.NoNewNote (v.setEnv r e) := by
  cases r <;> exact fun h => ⟨h, rfl, rfl⟩

theorem noNewNote_offVoice (which : Voice → Bool) (v : Voice) : v.NoNewNote (offVoice which v) := by
  unfold offVoice
  split
  · exact fun h => ⟨h, rfl, rfl⟩
  · exact .refl v

theorem noNewNote_frameVoice (c : Config) (p : Params) (rate : F32) (r : Route) (v : Voice) :
    v.NoNewNote (frameVoice c p rate r v) := by
  unfold frameVoice Voice.releaseIfSilent
  split
  · split
    · exact noNewNote_of_inactive v rfl
    · exact fun h => ⟨h, rfl, rfl⟩
  · exact .refl v

/-- No voice of the register file became active or changed its note. -/
def NoNewNotes (s t : State) : Prop := ∀ j, j < NV → (s.voice j).NoNewNote (t.voice j)

theorem NoNewNotes.trans {s t u : State} (h : NoNewNotes s t) (k : NoNewNotes t u) : NoNewNotes s u := fun j hj =>
  (h j hj).trans (k j hj)

theorem NoNewNotes.of_voices {s t : State} (h : t.voices = s.voices) : NoNewNotes s t := fun j _ => by
  rw [voice_congr h]
  exact .refl _

theorem noNewNotes_propagateEnv (c : Config) (r : EnvRole) (s : State) : NoNewNotes s (s.propagateEnv c r) := by
  intro j hj
  rw [propagateEnv_voice c r s j hj]
  split
  · exact noNewNote_setEnv _ r _
  · exact .refl _

theorem noNewNotes_frame (c : Config) (s : State) : NoNewNotes s (frame c s) := by
  intro j hj
  by_cases hp : j < s.par.poly
  · obtain ⟨-, -, -, -, -, -, -, hbelow, -⟩ := frame_spec c s
    rw [hbelow j hp hj]
    exact noNewNote_frameVoice c _ _ _ _
  · rw [frame_voice_above c (Nat.le_of_not_lt hp)]
    exact .refl _

theorem noNewNotes_teardown (s : State) : NoNewNotes s (teardown s) := fun j hj => by
  rw [teardown_voice s hj]
  exact noNewNote_of_inactive _ rfl

theorem noNewNotes_fatalFrom (c : Config) (s u : State) : NoNewNotes s (fatalFrom c FATAL_RESOURCE s u) := fun j hj => by
  rw [fatalFrom_voice c _ s u hj]
  exact noNewNote_of_inactive _ rfl

/-- Ensure that went through gives its new slots idle voices. -/
theorem noNewNotes_ensure {c : Config} {n : Nat} {s t : State} (h : ensure c n s = .ok t) : NoNewNotes s t := by
  obtain ⟨hg, -, habove⟩ := ensure_ok h
  intro j hj
  by_cases hlow : j < s.eng.alloc
  · rw [hg.below j hlow]
    exact .refl _
  · by_cases hbuilt : j < t.eng.alloc
    · rw [hg.built j (Nat.le_of_not_lt hlow) hbuilt hj]
      exact noNewNote_of_inactive _ rfl
    · rw [habove j (Nat.le_of_not_lt hbuilt)]
      exact .refl _

/-- SetWave, wherever it stands, changes oscillator units alone. -/
theorem noNewNotes_setWave (c : Config) (k : OscSlot) (type : Int) (s : State) :
    NoNewNotes s (setWave c k type s).state := by
  intro j _
  by_cases hup : s.eng.init = true
  · obtain ⟨-, -, -, -, -, hvoices, -⟩ := setWaveBegin_spec c k type s
    obtain ⟨o, ho⟩ := recreateBelow_sameButOsc c k s.eng.alloc j (setWaveBegin c k type s)
    rw [setWave_eq c k type s hup, ho, voice_congr hvoices]
    exact noNewNote_setOsc _ k o
  · rw [setWave_uninit c k type s (Bool.eq_false_iff.mpr hup)]
    exact .refl _

theorem noNewNotes_initBegin (rate : F32) (size : Int) (s : State) : NoNewNotes s (initBegin rate size s) := by
  obtain ⟨-, -, -, -, -, -, -, -, hvoices⟩ := initBegin_spec rate size s
  intro j hj
  rw [voice_congr hvoices]
  split
  · exact noNewNotes_teardown s j hj
  · exact .refl _

theorem Attempts.noNewNotes {c : Config} {s t : State} {i : Instr} {x : Attempt} (h : Attempts c s i x) (hx : x = .ok t) :
    NoNewNotes s t := by
  cases h with
  | init rate size =>
    obtain ⟨u, htab, hok⟩ := Attempt.andThen_eq_ok.mp hx
    have hv := (initTables_frame c (initBegin rate size s)).voices
    rw [htab] at hv
    have hu : NoNewNotes u (u.setEng { u.eng with init := true }) := .of_voices rfl
    exact (noNewNotes_initBegin rate size s).trans ((NoNewNotes.of_voices hv).trans (hu.trans (noNewNotes_ensure hok)))
  | setPolyDown n => cases hx; exact .of_voices rfl
  | setPolyUp n =>
    have hp : NoNewNotes s (s.setPar { s.par with poly := polyOperand n }) := .of_voices rfl
    exact hp.trans (noNewNotes_ensure hx)
  | setWave1 type => have h := noNewNotes_setWave c .one type s; rwa [hx] at h
  | setWave2 type => have h := noNewNotes_setWave c .two type s; rwa [hx] at h
  | setWave type =>
    have h := Attempt.andThen_keeps (K := NoNewNotes s) (noNewNotes_setWave c .one type s) fun u hu =>
      hu.trans (noNewNotes_setWave c .two type u)
    rwa [hx] at h

theorem Runs.noNewNotes {c : Config} {s t : State} {i : Instr} (h : Runs c s i t) (hi : ∀ m v, i ≠ .noteOn m v) :
    NoNewNotes s t := by
  cases h with
  | nothing => exact .of_voices rfl
  | registers => exact .of_voices rfl
  | @envelopes _ p role =>
    have hp : NoNewNotes s (s.setPar p) := .of_voices rfl
    exact hp.trans (noNewNotes_propagateEnv c role _)
  | noteOn midi velocity => exact absurd rfl (hi midi velocity)
  | noteOffs which =>
    obtain ⟨hv, -⟩ := gateOffs_spec which s.par.poly s
    intro j hj
    rw [hv j hj]
    split
    · exact noNewNote_offVoice which _
    · exact .refl _
  | setFreq freq =>
    obtain ⟨-, -, -, hv⟩ := forBelow_setVoice_spec (fun v => { v with baseFreq := freq }) s.eng.alloc s
    intro j hj
    rw [hv j hj]
    split
    · exact fun h => ⟨h, rfl, rfl⟩
    · exact .refl _
  | render n =>
    exact frames_induct (K := NoNewNotes s) c n.toNat (.of_voices rfl) fun u hu => hu.trans (noNewNotes_frame c u)
  | shutdown => exact noNewNotes_teardown s
  | @creates _ x hx =>
    cases hok : x with
    | ok u => exact hx.noNewNotes hok
    | fail u => exact noNewNotes_fatalFrom c s u

/-- Settles O54: no other command makes a voice active, and the voices it leaves active keep their notes. -/
theorem onlyNoteOnActivates : Obligations.OnlyNoteOnActivates := by
  unfold Obligations.OnlyNoteOnActivates
  intro i s t j h hi hj
  exact (exec_runs h).noNewNotes hi j hj

end Sys2Proof.Machine
end

section
/-! # Requests to the library when no creation fails, and RENDER in two parts (20_memory.md R76, R80; 40_voice_pool.md R131,
43_parameter_store.md R224, 44_engine_lifecycle.md R240) -/

namespace Sys2Proof.Machine

/-! ## RENDER -/

theorem render_init (c : Config) (n : Int) (s : State) : (render c n s).eng.init = s.eng.init := by
  unfold render
  split
  · rw [(frames_keep c n.toNat s).eng]
  · rfl

theorem render_add (c : Config) (s : State) {a b : Int} (ha : 0 ≤ a) (hb : 0 ≤ b) :
    render c (a + b) s = render c b (render c a s) := by
  rw [render, render, render_init]
  by_cases hup : s.eng.init = true
  · simp only [render, hup, if_true, Int.toNat_add ha hb, frames_add]
  · simp only [render, hup, Bool.false_eq_true, if_false]

/-- Settles O51: the frames of a + b are those of a and then those of b, and RENDER keeps the engine running or down. -/
theorem renderSplits : Obligations.RenderSplits := by
  unfold Obligations.RenderSplits
  intro s a b ha hb
  refine ⟨render Config.impl a s, render Config.impl b (render Config.impl a s), rfl, rfl, ?_⟩
  rw [← render_add Config.impl s ha hb]
  rfl

/-! ## Ensure (R131) -/

/-- An FM slot's unit is made on the sine table, a wavetable slot's on the slot's own table. -/
theorem unitTable_of_tables {s : State} {k : OscSlot} {sine tbl : TableRef} (hs : s.eng.sine = some sine)
    (ht : s.eng.tbl k = some tbl) : unitTable s k = some (if s.par.wave k = .fm then sine else tbl) := by
  rw [unitTable, hs, ht, apply_ite some]

/-- Whatever is made of a slot's kind and its unit's table, split by the waveform. -/
theorem kind_ite {α : Type} (f : OscKind → TableRef → α) (w : Wave) (sine tbl : TableRef) :
    f w.kind (if w = .fm then sine else tbl) = if w = .fm then f .fm sine else f .wt tbl := by
  unfold Wave.kind
  split <;> rfl

theorem freshOsc_of_unitTable (c : Config) {s : State} {k : OscSlot} {t : TableRef} (h : unitTable s k = some t)
    (old : Option OscState) :
    freshOsc c s k old = some ⟨(s.par.wave k).kind, c.oscNew (s.par.wave k).kind t⟩ := by
  rw [freshOsc, h]

theorem freshOsc_of_tables (c : Config) {s : State} {k : OscSlot} {sine tbl : TableRef} (hs : s.eng.sine = some sine)
    (ht : s.eng.tbl k = some tbl) (old : Option OscState) :
    freshOsc c s k old =
      some (if s.par.wave k = .fm then ⟨.fm, c.oscNew .fm sine⟩ else ⟨.wt, c.oscNew .wt tbl⟩) := by
  rw [freshOsc_of_unitTable c (unitTable_of_tables hs ht)]
  exact congrArg some (kind_ite (fun kind t => OscState.mk kind (c.oscNew kind t)) _ sine tbl)

/-- Settles O33: Ensure goes through, has built the fresh voices of its new slots, and has made seven requests for each. -/
theorem ensureBuildsNewSlots : Obligations.EnsureBuildsNewSlots := by
  unfold Obligations.EnsureBuildsNewSlots
  intro c s n sine tbl1 tbl2 hn hc hsine ht1 ht2
  have hok := (ensure_sure c n s).eq_ok hc
  obtain ⟨hg, halloc, habove⟩ := ensure_ok hok
  have hasked := ensure_asked hn (unitTable_of_tables hsine ht1) (unitTable_of_tables hsine ht2) hok
  refine ⟨_, hok, ?_, hg.par, hg.st, hg.dec, hg.out, hg.input, hasked.draws, ?_, fun i hi => ?_, fun i hlow hi => ?_⟩
  · rw [hg.eng, halloc]
  · rw [hasked.requests, slotRequests, ← kind_ite Request.oscNew, ← kind_ite Request.oscNew]
    rfl
  · by_cases hlow : i < s.eng.alloc
    · exact hg.below i hlow
    · exact habove i (by omega)
  · rw [hg.built i hlow (by omega) (by omega), freshVoice, freshOsc_of_tables c (k := .one) hsine ht1,
      freshOsc_of_tables c (k := .two) hsine ht2]
    rfl

/-! ## SetWave (R224) -/

/-- The waveform type that plays a table of a shape. -/
def waveOfShape : Shape → Wave
  | .sine => .sine
  | .saw => .saw
  | .square => .square
  | .triangle => .triangle

theorem shape?_waveOfShape (sh : Shape) : (waveOfShape sh).shape? = some sh := by cases sh <;> rfl

theorem waveOfShape_ne_fm (sh : Shape) : waveOfShape sh ≠ .fm := by cases sh <;> exact Wave.noConfusion

theorem waveOperand_of_ge {k : Int} (h : 4 ≤ k) : waveOperand k = .fm := by
  have hk : clampI k WAVE_MIN WAVE_MAX = 4 := by
    simp only [clampI, WAVE_MIN, WAVE_MAX, NWAVE]
    split_ifs <;> omega
  rw [waveOperand, hk]
  rfl

theorem waveOperand_of_le {k : Int} (h : k ≤ 3) : ∃ sh, waveOperand k = waveOfShape sh := by
  have hk : (clampI k WAVE_MIN WAVE_MAX).toNat ≤ 3 := by
    simp only [clampI, WAVE_MIN, WAVE_MAX, NWAVE]
    split_ifs <;> omega
  unfold waveOperand
  generalize (clampI k WAVE_MIN WAVE_MAX).toNat = n at hk
  match n, hk with
  | 0, _ => exact ⟨.sine, rfl⟩
  | 1, _ => exact ⟨.saw, rfl⟩
  | 2, _ => exact ⟨.square, rfl⟩
  | 3, _ => exact ⟨.triangle, rfl⟩

theorem setWaveBegin_of_fm (c : Config) (k : OscSlot) {type : Int} (s : State) (h : waveOperand type = .fm) :
    setWaveBegin c k type s = s.setPar (s.par.setWave k .fm) := by
  rw [setWaveBegin, rebuildFor, h]
  rfl

theorem setWaveBegin_of_shape (c : Config) {k : OscSlot} {type : Int} {s : State} {sh : Shape} {tbl : TableRef}
    (h : waveOperand type = waveOfShape sh) (ht : s.eng.tbl k = some tbl) :
    setWaveBegin c k type s =
      ((s.setPar (s.par.setWave k (waveOfShape sh))).setEng
        (s.eng.setTbl k (some { tbl with contents := c.tblRebuild tbl sh }))).ask [.tblRebuild tbl sh] := by
  rw [setWaveBegin, rebuildFor, h, shape?_waveOfShape]
  simp only [rebuildTable, setPar_eng, ht]

/-- SetWave without a failure, from the state on which it recreates the units and the table it makes them on. -/
theorem setWave_succeeds {c : Config} {k : OscSlot} {type : Int} {s : State} {r : TableRef} (hup : s.eng.init = true)
    (hn : s.eng.alloc ≤ NV) (hc : CreationsSucceed c s.draws) (hr : unitTable (setWaveBegin c k type s) k = some r) :
    let kind := (waveOperand type).kind
    ∃ t, setWave c k type s = .ok t ∧ t.eng = (setWaveBegin c k type s).eng ∧
      Asked (setWaveBegin c k type s) t ((List.range s.eng.alloc).flatMap fun i =>
        (((s.voice i).osc k).map Request.releaseOsc).toList ++ [.oscNew kind r]) s.eng.alloc ∧
      (∀ i, i < s.eng.alloc → t.voice i = (s.voice i).setOsc k (some ⟨kind, c.oscNew kind r⟩)) ∧
      ∀ i, s.eng.alloc ≤ i → t.voice i = s.voice i := by
  obtain ⟨hpar, -, -, -, -, hvoices, hdraws, -⟩ := setWaveBegin_spec c k type s
  have hv := voice_congr hvoices
  have hok := (recreateBelow_sure c k s.eng.alloc (setWaveBegin c k type s)).eq_ok (hdraws ▸ hc)
  obtain ⟨-, heng, habove, -⟩ := recreateBelow_frame c k s.eng.alloc (setWaveBegin c k type s)
  have hasked := recreateBelow_asked hr hok
  have hfresh := freshOsc_of_unitTable c hr none
  simp only [hpar, wave_setWave_self, hv] at hasked hfresh
  refine ⟨_, (setWave_eq c k type s hup).trans hok, heng, hasked, fun i hi => ?_, fun i hi => ?_⟩
  · rw [recreateBelow_ok hok i hi (by omega), hfresh, hv]
  · exact (habove i hi).trans (hv i)

/-- Settles O35: for FM the units are made on the sine table, otherwise on the slot's rebuilt one. -/
theorem setWaveWithoutFailure : Obligations.SetWaveWithoutFailure := by
  unfold Obligations.SetWaveWithoutFailure
  intro c slot s k sine tbl hup hn hc hsine htbl
  by_cases hk : k ≤ 3
  · obtain ⟨sh, hw⟩ := waveOperand_of_le hk
    have hb := setWaveBegin_of_shape c hw htbl
    have hr : unitTable (setWaveBegin c slot k s) slot = some { tbl with contents := c.tblRebuild tbl sh } := by
      simp [hb, unitTable, waveOfShape_ne_fm]
    obtain ⟨t, hok, heng, hasked, hbelow, habove⟩ := setWave_succeeds hup hn hc hr
    have hkind : (waveOperand k).kind = .wt := by rw [hw, Wave.kind, if_neg (waveOfShape_ne_fm sh)]
    rw [hkind] at hasked hbelow
    rw [hb] at heng hasked
    refine ⟨t, hok, hasked.draws, fun hge => by omega, fun _ => ⟨sh, ?_, heng, hasked.requests, hbelow⟩,
      fun i _ => habove i⟩
    rw [hw]
    cases sh <;> rfl
  · have hw := waveOperand_of_ge (show 4 ≤ k by omega)
    have hb := setWaveBegin_of_fm c slot s hw
    have hr : unitTable (setWaveBegin c slot k s) slot = some sine := by
      simp [hb, unitTable, hsine]
    obtain ⟨t, hok, heng, hasked, hbelow, habove⟩ := setWave_succeeds hup hn hc hr
    have hkind : (waveOperand k).kind = .fm := by rw [hw]; rfl
    rw [hkind] at hasked hbelow
    rw [hb] at heng hasked
    exact ⟨t, hok, hasked.draws, fun _ => ⟨heng, hasked.requests, hbelow⟩, fun hle => absurd hle hk,
      fun i _ => habove i⟩

/-! ## INIT (R240) -/

/-- The state INIT's three tables and LFO leave when no creation fails. -/
def State.withTables (c : Config) (s : State) : State :=
  let size := s.eng.tableSize
  let sine := c.tblBuild s.draws size .sine
  let shape1 := s.par.wave1.shapeAtInit
  let shape2 := s.par.wave2.shapeAtInit
  { s with
    eng := { s.eng with
      lfo := some ⟨.wt, c.oscNew .wt sine⟩
      sine := some sine
      tbl1 := some (c.tblBuild (s.draws + 1) size shape1)
      tbl2 := some (c.tblBuild (s.draws + 2) size shape2) }
    requests := s.requests ++
      [.tblBuild size .sine, .tblBuild size shape1, .tblBuild size shape2, .oscNew .wt sine]
    draws := s.draws + 4 }

theorem initTables_succeeds {c : Config} {s : State} (h : CreationsSucceed c s.draws) :
    initTables c s = .ok (s.withTables c) := by
  have hlater (n : Nat) : CreationsSucceed c (s.draws + n) := h.mono (Nat.le_add_right _ n)
  simp [initTables, createTable, createOsc, create_succeeds, h, hlater, Nat.add_assoc, State.withTables, State.setEng,
    State.ask]

/-- Settles O38: INIT begins from what a SHUTDOWN leaves, its tables and LFO go through, and Ensure builds every slot. -/
theorem initSucceedsWithoutFailure : Obligations.InitSucceedsWithoutFailure := by
  unfold Obligations.InitSucceedsWithoutFailure
  intro c s down rate size hinv hc hdown n sine tbl1 tbl2
  cases hdown
  have hbegin := initBegin_teardown rate size hinv
  obtain ⟨-, hpar, hst, hdec, hout, hin, hdraws, -⟩ := initBegin_spec rate size s
  have heng : (initBegin rate size s).eng = { s.eng.torn with sampleRate := rate, tableSize := n, rr := 0 } := by
    rw [hbegin, setEng_eng, teardown_eng]
  have hreq : (initBegin rate size s).requests = (teardown s).requests := by rw [hbegin, setEng_requests]
  rw [initEngine]
  generalize initBegin rate size s = b at hpar hst hdec hout hin hdraws heng hreq
  have hcb : CreationsSucceed c b.draws := hdraws ▸ hc
  obtain ⟨t, hok, hteng, htpar, htst, htdec, htout, htin, htdraws, htreq, -⟩ :=
    ensureBuildsNewSlots c ((b.withTables c).setEng { (b.withTables c).eng with init := true }) b.par.poly _ _ _
      (hpar ▸ hinv.poly.2) (hcb.mono (Nat.le_add_right _ 4)) rfl rfl rfl
  have hfinish : initFinish c (b.withTables c) = .ok t := hok
  rw [initTables_succeeds hcb, Attempt.andThen_ok, hfinish, Attempt.orFatal_ok]
  have halloc : s.eng.torn.alloc = 0 := rfl
  simp only [setEng_eng, setEng_par, setEng_draws, setEng_requests, State.withTables, heng, hpar, hdraws, hreq, halloc,
    Nat.zero_max, Nat.sub_zero] at hteng htdraws htreq
  exact ⟨hteng, htreq, htdraws, htpar.trans hpar, htst.trans hst, htdec.trans hdec, htout.trans hout, htin.trans hin⟩

end Sys2Proof.Machine
end

section
/-! # Decoding against encoding, Execute and its errors, the words RENDER emits, and the assembler's sample lines
(30_encoding.md R90 to R100, 42_signal_chain_and_mixer.md R188, 60_exceptions.md R260 to R265) -/

namespace Sys2Proof.Machine

/-! ## Decode of encode -/

/-- Settles O4: `encode` puts a command's header before its operand words, and those decode to it. -/
theorem decodeOfEncode : Obligations.DecodeOfEncode := by
  unfold Obligations.DecodeOfEncode
  intro i hwf
  calc decodeWords (encode i) = decode i.headerWord i.operandWords := rfl
    _ = .ok i := decode_words hwf

/-! ## Encode of decode -/

/-- The opcode and the operand words a command was made from are the ones it is encoded with. -/
theorem eq_of_instrOf {opc : Nat} {ops : List Word} {i : Instr} (h : instrOf opc ops = some i) :
    i.opcode = opc ∧ i.operandWords = ops := by
  unfold instrOf at h
  split at h
  · unfold instrOf0 at h
    split at h <;> cases h <;> exact ⟨rfl, rfl⟩
  · unfold instrOf1 at h
    split at h <;> cases h <;> simp only [Instr.opcode, Instr.operandWords, ofS32_s32, and_self]
  · unfold instrOf2 at h
    split at h <;> cases h <;> simp only [Instr.opcode, Instr.operandWords, ofS32_s32, and_self]
  · unfold instrOf3 at h
    split at h <;> cases h <;> exact ⟨rfl, rfl⟩
  · unfold instrOf4 at h
    split at h <;> cases h <;> exact ⟨rfl, rfl⟩
  · cases h

/-- What a header that decodes has passed: the three checks, in the rule's order, and the reading of its operands (R94). -/
theorem decode_ok_checks {h : Word} {ops : List Word} {i : Instr} (hd : decode h ops = .ok i) :
    rsvField h = 0 ∧
      (∃ r, opcodeRow (opcField h) = some r ∧ lenField h = r.operands.length) ∧
      instrOf (opcField h) ops = some i := by
  unfold decode at hd
  split at hd
  · cases hd
  · next hrsv =>
    split at hd
    · cases hd
    · next r hrow =>
      split at hd
      · cases hd
      · next hlen =>
        split at hd
        · next hi => cases hd; exact ⟨not_not.mp hrsv, ⟨r, hrow, not_not.mp hlen⟩, hi⟩
        · cases hd

/-- The header word of a decoded command is the one it was decoded from. -/
theorem headerWord_of_decode {h : Word} {ops : List Word} {i : Instr} (hd : decode h ops = .ok i) : i.headerWord = h := by
  obtain ⟨hrsv, ⟨r, hrow, hlen⟩, hi⟩ := decode_ok_checks hd
  obtain ⟨hopc, -⟩ := eq_of_instrOf hi
  obtain ⟨m, ts, hrow', hts⟩ := opcodeRow_of i
  rw [hopc, hrow, Option.some_inj] at hrow'
  calc i.headerWord = header (opcField h) (lenField h) := by rw [Instr.headerWord, hopc, hlen, hrow', hts]
    _ = h := header_of_fields h hrsv

/-- Settles O5: the checks fix each field of the header, and the operands read are those of the command. -/
theorem encodeOfDecode : Obligations.EncodeOfDecode := by
  unfold Obligations.EncodeOfDecode
  intro h ops i hd
  obtain ⟨-, -, hi⟩ := decode_ok_checks hd
  obtain ⟨-, hops⟩ := eq_of_instrOf hi
  exact ⟨by rw [encode, headerWord_of_decode hd, hops], decode_wellFormed hd⟩

/-- Settles O6 by running the decoder on each line. -/
theorem sampleWordsDecode : Obligations.SampleWordsDecode := by
  unfold Obligations.SampleWordsDecode
  decide

/-! ## Execute (R94) -/

theorem execute_of_ok {h : Word} {ops : List Word} {i : Instr} (hd : decode h ops = .ok i) (s : State) :
    execute h ops s = exec i s := by
  rw [execute, hd]

theorem execute_of_error {h : Word} {ops : List Word} {e : DecodeError} (hd : decode h ops = .error e) (s : State) :
    execute h ops s = .next (cmdError (errorCode e) s) := by
  rw [execute, hd]

theorem decode_of_reserved {h : Word} (ops : List Word) (hrsv : rsvField h ≠ 0) :
    decode h ops = .error .reservedBits := if_pos hrsv

theorem decode_of_undefined {h : Word} (ops : List Word) (hrsv : rsvField h = 0) (hrow : opcodeRow (opcField h) = none) :
    decode h ops = .error .undefinedOpcode := by
  simp only [decode, hrsv, hrow, ne_eq, not_true_eq_false, if_false]

theorem decode_of_badLength {h : Word} {r : OpRow} (ops : List Word) (hrsv : rsvField h = 0)
    (hrow : opcodeRow (opcField h) = some r) (hlen : lenField h ≠ r.operands.length) :
    decode h ops = .error .badLength := by
  simp only [decode, hrsv, hrow, hlen, ne_eq, not_true_eq_false, not_false_eq_true, if_false, if_true]

/-- The opcodes of R96 run from 0x01 to 0x1A. -/
theorem opcodeTable_range : ∀ r ∈ opcodeTable, 1 ≤ r.opc ∧ r.opc ≤ 0x1A := by decide

theorem opcodeRow_of_outside {opc : Nat} (h : opc = 0 ∨ 0x1B ≤ opc) : opcodeRow opc = none := by
  refine List.find?_eq_none.mpr fun r hr heq => ?_
  obtain ⟨hlo, hhi⟩ := opcodeTable_range r hr
  have : r.opc = opc := eq_of_beq heq
  omega

/-- Settles O10: each check decides once the ones before it have passed, and a command's row has as many operands as it. -/
theorem executeChecksInOrder : Obligations.ExecuteChecksInOrder := by
  unfold Obligations.ExecuteChecksInOrder
  intro h ops s
  refine ⟨fun hrsv => ?_, fun hrsv hopc => ?_, fun i hrsv hopc hlen => ?_⟩
  · exact execute_of_error (decode_of_reserved ops hrsv) s
  · exact execute_of_error (decode_of_undefined ops hrsv (opcodeRow_of_outside hopc)) s
  · obtain ⟨m, ts, hrow, hts⟩ := opcodeRow_of i
    rw [← hopc] at hrow
    exact execute_of_error (decode_of_badLength ops hrsv hrow (hts ▸ hlen)) s

/-! ## Steps and illegal commands -/

/-- Settles O7: the step executes the received words, and there is an entry of `D.ops` for the last of them. -/
theorem stepRunsDecoded : Obligations.StepRunsDecoded := by
  unfold Obligations.StepRunsDecoded
  refine ⟨fun s w rest i hp hin hlen hd => ?_, fun s w rest i hp hin hk hd => ?_⟩
  · rw [step_header_complete hp hin hlen, execute_of_ok hd, Decoder.takeHeader]
  · have hlt : s.dec.k < NOPS := Nat.lt_of_succ_le (hk.trans_le (lenField_le s.dec.hdr))
    rw [step_operand_complete hp hin hk, received_takeOperand w s.dec hlt, Decoder.received, execute_of_ok hd,
      takeOperand_eq]

/-- `CmdError` writes STATUS alone, field by field as R262 and R265 say. -/
theorem cmdError_eq (code : BitVec 8) (s : State) :
    cmdError code s = { s with
      st := { errCmd := true, fatal := s.st.fatal, errCode := if s.st.errCode = 0 then code else s.st.errCode } } := by
  unfold cmdError Status.cmdError Status.firstCode
  split <;> rfl

/-- Settles O11: the words are consumed as a legal command's are, and Execute then records the error alone. -/
theorem illegalCommandDiscarded : Obligations.IllegalCommandDiscarded := by
  unfold Obligations.IllegalCommandDiscarded
  intro s h ws rest e hp hin hlen hd
  refine ⟨s.dec.afterCommand h ws, ?_, afterCommand_spec s.dec hlen⟩
  rw [run_command hp hin hlen, execute_of_error hd]
  exact congrArg Host.Outcome.next (cmdError_eq _ _)

/-- No command faults or is refused (R260). -/
theorem exec_answers (i : Instr) (s : State) : ∃ t, exec i s = .next t := by
  cases i <;> exact ⟨_, rfl⟩

theorem execute_answers (h : Word) (ops : List Word) (s : State) : ∃ t, execute h ops s = .next t := by
  cases hd : decode h ops with
  | error e => exact ⟨_, execute_of_error hd s⟩
  | ok i => rw [execute_of_ok hd]; exact exec_answers i s

/-- Settles O12: a step waits, holds a word, or executes a command. -/
theorem everyStepAnswers : Obligations.EveryStepAnswers := by
  unfold Obligations.EveryStepAnswers
  intro s
  match hin : s.input, hp : s.dec.phase with
  | [], _ => exact ⟨s, by rw [step, receiveNext, hin]⟩
  | w :: rest, .header =>
    by_cases hlen : lenField w = 0
    · rw [step_header_complete hp hin hlen]
      exact execute_answers _ _ _
    · exact ⟨_, step_header_partial hp hin hlen⟩
  | w :: rest, .operands =>
    by_cases hk : s.dec.k + 1 = lenField s.dec.hdr
    · rw [step_operand_complete hp hin hk]
      exact execute_answers _ _ _
    · exact ⟨_, step_operand_partial hp hin hk⟩

/-! ## RENDER's words (R188) -/

/-- Settles O50: `n` frames emit a word each and write no register but the voices, the LFO and the request log. -/
theorem renderEmitsFrameCountWords : Obligations.RenderEmitsFrameCountWords := by
  unfold Obligations.RenderEmitsFrameCountWords
  intro s n hup
  obtain ⟨ws, hlen, hout⟩ := frames_out Config.impl n.toNat s
  obtain ⟨heng, hpar, hst, hdec, hin, hdraws⟩ := frames_keep Config.impl n.toNat s
  have hexec : exec (.render n) s = .next (frames Config.impl n.toNat s) := by
    rw [exec, execRender, render, if_pos hup]
  exact ⟨_, ws, hexec, hout, by rw [hlen, Int.toNat_eq_max], heng, hpar, hst, hdec, hin, hdraws⟩

/-! ## The assembler (R99, R100) -/

/-- Settles O60 by running the assembler on each line. -/
theorem assemblerSampleLines : Obligations.AssemblerSampleLines := by
  unfold Obligations.AssemblerSampleLines
  exact ⟨rfl, rfl, rfl, rfl⟩

end Sys2Proof.Machine
end

section
/-! # The voice pool: NOTE_ON, the NOTE_OFFs, SET_FREQ, SET_POLY, the setters of an engine that is down, and the release check
(40_voice_pool.md R131 to R139, 43_parameter_store.md R224, R225) -/

namespace Sys2Proof.Machine

/-! ## NOTE_ON (R132, R134, R139) -/

theorem allocate_of_free {s : State} {i : Nat} (h : firstFree s = some i) : allocate s = (i, s) := by
  rw [allocate, h]

theorem allocate_of_no_free {s : State} (h : firstFree s = none) :
    allocate s = (s.eng.rr % s.par.poly,
      s.setEng { s.eng with rr := (s.eng.rr % s.par.poly + 1) % s.par.poly }) := by
  rw [allocate, h]

/-- NOTE_ON on a running engine, from the slot Allocate answers and the engine registers it leaves: the voice in that slot is
started on the oscillators and the filter it had, and nothing else changes. -/
theorem exec_noteOn_of_allocate {s : State} {i : Nat} {e : Engine} (midi : Int) (velocity : F32) (hup : s.eng.init = true)
    (hi : i < NV) (ha : allocate s = (i, s.setEng e)) :
    ∃ t, exec (.noteOn midi velocity) s = .next t ∧
      t.voice i = { s.voice i with
        active := true, gate := one, midi := midiOperand midi
        baseFreq := midiToHz Config.impl (midiOperand midi), velocity := clamp velocity VEL_MIN VEL_MAX
        aenv := envAfterSet Config.impl (s.par.adsr .amp) (s.voice i).aenv
        fenv := envAfterSet Config.impl (s.par.adsr .filt) (s.voice i).fenv } ∧
      (∀ j, j ≠ i → t.voice j = s.voice j) ∧
      t.requests = s.requests ++ envSetRequest (s.par.adsr .amp) (s.voice i).aenv ++
        envSetRequest (s.par.adsr .filt) (s.voice i).fenv ∧
      t.eng = e ∧ t.par = s.par ∧ t.st = s.st ∧ t.dec = s.dec ∧ t.out = s.out ∧ t.input = s.input ∧ t.draws = s.draws := by
  have hexec : exec (.noteOn midi velocity) s =
      .next (startNote Config.impl i (midiOperand midi) velocity (s.setEng e)) := by
    rw [exec, execNoteOn, noteOn, if_pos hup, ha]
  exact ⟨_, hexec, startNote_voice _ hi _ _ _, fun j hj => startNote_voice_ne _ hj _ _ _, startNote_requests _ hi _ _ _,
    startNote_frame _ i _ _ _⟩

/-- Settles O27: Allocate answers the first free slot and writes nothing. -/
theorem noteOnTakesFirstFreeSlot : Obligations.NoteOnTakesFirstFreeSlot := by
  unfold Obligations.NoteOnTakesFirstFreeSlot
  intro s midi velocity i hup hpoly hi hfree hfirst
  have hff : firstFree s = some i :=
    firstFree_eq_some hpoly ((free_iff _).mpr hfree) fun j hj hf => hfirst j hj ((free_iff _).mp hf)
  exact exec_noteOn_of_allocate midi velocity hup hi (allocate_of_free hff)

/-- Settles O28: with no free slot Allocate answers the victim, which is below the polyphony, and moves `E.rr` past it. -/
theorem noteOnStealsRoundRobin : Obligations.NoteOnStealsRoundRobin := by
  unfold Obligations.NoteOnStealsRoundRobin
  intro s midi velocity hup hpoly hnv hnone
  have hff : firstFree s = none := firstFree_eq_none fun j hj hf => hnone j hj ((free_iff _).mp hf)
  have hi : s.eng.rr % s.par.poly < NV := Nat.lt_of_lt_of_le (Nat.mod_lt _ hpoly) hnv
  exact exec_noteOn_of_allocate midi velocity hup hi (allocate_of_no_free hff)

/-! ## NOTE_OFF (R135, R136) -/

/-- A pass below the bound clears the gate of an active voice that is picked. -/
theorem ite_offVoice (which : Voice → Bool) (b : Prop) [Decidable b] (v : Voice) :
    (if b then offVoice which v else v) =
      if b ∧ v.active = true ∧ which v = true then { v with gate := posZero } else v := by
  simp only [offVoice, Bool.and_eq_true, ite_and]

/-- Settles O29: the loop picks the voices that hold the clamped note. -/
theorem noteOffMidiReleasesMatchingVoices : Obligations.NoteOffMidiReleasesMatchingVoices := by
  unfold Obligations.NoteOffMidiReleasesMatchingVoices
  intro s midi hup
  obtain ⟨hv, hframe⟩ := gateOffs_spec (fun v => v.midi == midiOperand midi) s.par.poly s
  refine ⟨_, by rw [exec, execNoteOffMidi, if_pos hup], fun i hi => ?_, hframe⟩
  rw [hv i hi, ite_offVoice]
  simp only [beq_iff_eq]
  rfl

/-- Settles O30: the loop picks every voice. -/
theorem noteOffAllReleasesActiveVoices : Obligations.NoteOffAllReleasesActiveVoices := by
  unfold Obligations.NoteOffAllReleasesActiveVoices
  intro s hup
  obtain ⟨hv, hframe⟩ := gateOffs_spec (fun _ => true) s.par.poly s
  refine ⟨_, by rw [exec, execNoteOffAll, if_pos hup], fun i hi => ?_, hframe⟩
  rw [hv i hi, ite_offVoice]
  simp only [and_true]

/-! ## SET_FREQ (R138) -/

/-- Settles O31: the loop rewrites the allocated voices, and no pass makes a request or a draw. -/
theorem setFreqRetunesAllocatedVoices : Obligations.SetFreqRetunesAllocatedVoices := by
  unfold Obligations.SetFreqRetunesAllocatedVoices
  intro s freq hup
  obtain ⟨heng, hpar, hrec, hv⟩ := forBelow_setVoice_spec (fun v => { v with baseFreq := freq }) s.eng.alloc s
  refine ⟨_, by rw [exec, execSetFreq, if_pos hup], hv, heng, hpar, hrec.st, hrec.dec, hrec.out, hrec.input, ?_, ?_⟩
  · exact forBelow_eq (π := State.requests) (fun j u => setVoice_requests u j _) _ s
  · exact forBelow_eq (π := State.draws) (fun j u => setVoice_draws u j _) _ s

/-! ## Clamped operands as integers (R137, R224) -/

theorem polyOperand_eq_clampI (k : Int) : (polyOperand k : Int) = clampI k 1 16 :=
  Int.toNat_of_nonneg (Int.le_trans (by decide) (clampI_bounds k (show POLY_MIN ≤ POLY_MAX by decide)).1)

theorem polyOperand_le (k : Int) : polyOperand k ≤ NV := (clampI_poly_bounds k).2

theorem number_ofNumber {n : Nat} (h : n ≤ 4) : (Wave.ofNumber n).number = n := by
  match n, h with
  | 0, _ | 1, _ | 2, _ | 3, _ | 4, _ => rfl

theorem waveOperand_number (k : Int) : ((waveOperand k).number : Int) = clampI k 0 4 := by
  obtain ⟨hlo, hhi⟩ := clampI_bounds k (show WAVE_MIN ≤ WAVE_MAX by decide)
  rw [waveOperand, number_ofNumber (Int.toNat_le_toNat hhi)]
  exact Int.toNat_of_nonneg hlo

/-! ## The setters of an engine that is down (R137, R224, R225) -/

theorem setPoly_uninit (c : Config) (n : Int) {s : State} (h : s.eng.init = false) :
    setPoly c n s = s.setPar { s.par with poly := polyOperand n } := by
  simp only [setPoly, setPar_eng, h, Bool.false_eq_true, if_false]

/-- Settles O22: each command writes its register and stops there. -/
theorem uninitializedSettersOnlyWriteRegisters : Obligations.UninitializedSettersOnlyWriteRegisters := by
  unfold Obligations.UninitializedSettersOnlyWriteRegisters
  intro s k hdown
  refine ⟨⟨polyOperand k, ?_, polyOperand_eq_clampI k⟩, waveOperand k, ?_, ?_, ?_, waveOperand_number k⟩
  · rw [exec, execSetPoly, setPoly_uninit _ _ hdown]
    rfl
  · rw [exec, execSetWave1, setWave_uninit _ _ _ _ hdown]
    rfl
  · rw [exec, execSetWave2, setWave_uninit _ _ _ _ hdown]
    rfl
  · have hdown' (p : Params) : (s.setPar p).eng.init = false := hdown
    rw [exec, execSetWave, setWave_uninit _ _ _ _ hdown, Attempt.andThen_ok, setWave_uninit _ _ _ _ (hdown' _)]
    rfl

/-! ## SET_POLY (R131, R137, R263, R266) -/

theorem setPoly_init (c : Config) (n : Int) {s : State} (h : s.eng.init = true) :
    setPoly c n s = (ensure c (polyOperand n) (s.setPar { s.par with poly := polyOperand n })).orFatal c s := by
  simp only [setPoly, setPar_eng, h, if_true]

/-- A creation that failed shows that not all succeed. -/
theorem Sure.not_succeed {c : Config} {s u : State} (h : Sure c s (.fail u)) : ¬CreationsSucceed c s.draws := fun hc =>
  Bool.false_ne_true (h.sure hc)

theorem freshVoice_idle (c : Config) (s : State) (v : Voice) : (freshVoice c s v).Idle := ⟨rfl, rfl, rfl, rfl⟩

theorem freshOsc_isSome (c : Config) {s : State} (h : s.eng.Equipped) (k : OscSlot) (old : Option OscState) :
    (freshOsc c s k old).isSome = true := by
  obtain ⟨t, ht⟩ := unitTable_of_equipped h k
  rw [freshOsc_of_unitTable c ht]
  rfl

/-- Where Ensure has only grown the allocated set, the fatal path tears down the engine and the voices of the state before. -/
theorem Grown.fatalFrom_spec {c : Config} {p : Params} {s u : State} (h : Grown c (s.setPar p) u) :
    let t := fatalFrom c FATAL_RESOURCE s u
    t.eng = s.eng.torn ∧ t.par = (if c.fatalRestores then s.par else p) ∧ t.st = s.st.fatalError FATAL_RESOURCE ∧
      t.dec = s.dec ∧ t.out = s.out ∧ t.input = s.input ∧ ∀ i, i < NV → t.voice i = (s.voice i).torn := by
  refine ⟨?_, ?_, ?_, ?_, ?_, ?_, fun i hi => ?_⟩
  · rw [fatalFrom_eng, h.eng]
    simp only [setPar_eng, ite_self]
    rfl
  · rw [fatalFrom_par, h.par, setPar_par]
  · rw [fatalFrom_st, h.st, setPar_st]
  · rw [fatalFrom_dec, h.dec, setPar_dec]
  · rw [fatalFrom_out, h.out, setPar_out]
  · rw [fatalFrom_input, h.input, setPar_input]
  · rw [fatalFrom_voice _ _ _ _ hi]
    exact torn_congr (h.freq i)

/-- Settles O32: SET_POLY is Ensure on the written polyphony, which goes through, or stands at a failed creation with the
slots completed before it built. -/
theorem setPolyGrowsOrIsFatal : Obligations.SetPolyGrowsOrIsFatal := by
  unfold Obligations.SetPolyGrowsOrIsFatal
  intro s k hup
  have hexec : exec (.setPoly k) s = .next _ := congrArg Host.Outcome.next (setPoly_init Config.impl k hup)
  have hn := polyOperand_le k
  have hg := ensure_grown Config.impl (polyOperand k) (s.setPar { s.par with poly := polyOperand k })
  refine ⟨polyOperand k, _, hexec, polyOperand_eq_clampI k, ?_⟩
  cases he : ensure Config.impl (polyOperand k) (s.setPar { s.par with poly := polyOperand k }) with
  | ok t =>
    obtain ⟨hg, halloc, habove⟩ := ensure_ok he
    rw [setPar_eng] at halloc
    rw [Attempt.orFatal_ok]
    refine ⟨hg.dec, hg.out, hg.input, .inl ⟨hg.par, halloc ▸ hg.eng, hg.st, fun i _ hi => ?_, fun i hlow hi => ?_⟩⟩
    · by_cases hlow : i < s.eng.alloc
      · exact hg.below i hlow
      · exact habove i (by omega)
    · rw [hg.built i hlow (by omega) (by omega)]
      exact freshVoice_idle _ _ _
  | fail u =>
    rw [he] at hg
    obtain ⟨heng, hpar, hst, hdec, hout, hin, hv⟩ := hg.fatalFrom_spec
    have hsure := ensure_sure Config.impl (polyOperand k) (s.setPar { s.par with poly := polyOperand k })
    rw [he] at hsure
    refine ⟨hdec, hout, hin, .inr ⟨hsure.not_succeed, heng, hst, hv, hpar, u, he, rfl, hg.eng, hg.grows, hg.below,
      fun i hlow hi hnv => ?_⟩⟩
    rw [show u.voice i = _ from hg.built i hlow hi hnv]
    exact ⟨rfl, rfl, rfl, fun hequip => ⟨freshOsc_isSome _ hequip .one _, freshOsc_isSome _ hequip .two _⟩⟩

/-! ## The release check (R133) -/

theorem releaseIfSilent_of_silent {v : Voice} {ae : F32} (hg : fle v.gate posZero = true)
    (ha : flt ae RELEASE_THRESHOLD = true) :
    v.releaseIfSilent ae = { v with active := false, midi := -1, velocity := posZero } := by
  rw [Voice.releaseIfSilent, if_pos (by rw [hg, ha]; rfl)]

theorem releaseIfSilent_of_sounding {v : Voice} {ae : F32}
    (h : ¬(fle v.gate posZero = true ∧ flt ae RELEASE_THRESHOLD = true)) : v.releaseIfSilent ae = v := by
  rw [Voice.releaseIfSilent, if_neg (by rwa [Bool.and_eq_true])]

/-- Settles O48: a NaN is not below the threshold. -/
theorem releaseIfSilentRule : Obligations.ReleaseIfSilentRule := by
  unfold Obligations.ReleaseIfSilentRule
  refine fun v ae => ⟨fun h => releaseIfSilent_of_silent h.1 h.2, releaseIfSilent_of_sounding, fun hn => ?_⟩
  refine releaseIfSilent_of_sounding fun h => ?_
  rw [flt_of_isNaN (.inl hn)] at h
  exact Bool.false_ne_true h.2

end Sys2Proof.Machine
end

section
/-! # The modulation router and one frame: the destinations, the LFO commands, the LFO's step and the mix
(41_modulation_router.md R160 to R167, 42_signal_chain_and_mixer.md R180 to R188) -/

namespace Sys2Proof.Machine

/-! ## Destinations by number (R38, R163) -/

theorem dest_ofNumber_number (d : LfoDest) : LfoDest.ofNumber d.number = d := by cases d <;> rfl

theorem dest_number_ofNumber {n : Nat} (h : n ≤ 7) : (LfoDest.ofNumber n).number = n := by
  match n, h with
  | 0, _ | 1, _ | 2, _ | 3, _ | 4, _ | 5, _ | 6, _ | 7, _ => rfl

theorem destOperand_number (k : Int) : ((destOperand k).number : Int) = clampI k 0 7 := by
  obtain ⟨hlo, hhi⟩ := clampI_bounds k (show DEST_MIN ≤ DEST_MAX by decide)
  rw [destOperand, dest_number_ofNumber (Int.toNat_le_toNat hhi)]
  exact Int.toNat_of_nonneg hlo

/-! ## One frame of RENDER -/

theorem exec_render_one {s : State} (hup : s.eng.init = true) : exec (.render 1) s = .next (frame Config.impl s) := by
  rw [exec, execRender, render, if_pos hup]
  rfl

/-- A frame asks the LFO first and then the eligible considered voices, in slot order (R161, R180). -/
theorem frame_requests (c : Config) (s : State) :
    (frame c s).requests = s.requests ++ (stepOsc c s.eng.lfo s.par.lfoRate).2.2 ++
      (List.range s.par.poly).flatMap fun i =>
        if (s.voice i).eligible then
          (voiceChain c s.par s.eng.sampleRate (route c s.par (stepOsc c s.eng.lfo s.par.lfoRate).1) (s.voice i)).requests
        else [] :=
  mixBelow_requests c _ _ (lfoStep c s).2

theorem eligible_iff (v : Voice) : v.eligible = true ↔ v.active = true ∨ fgt v.gate posZero = true := by
  rw [Voice.eligible, Bool.or_eq_true]

/-- The sum of the contributions of the eligible voices in slots 0 to n − 1 (R187), in the frame that starts in `s`. -/
def frameMix (c : Config) (s : State) (n : Nat) : F32 :=
  (mixBelow c (route c s.par (lfoStep c s).1) n (lfoStep c s).2).1

theorem frameMix_succ (c : Config) (s : State) (n : Nat) :
    frameMix c s (n + 1) =
      if (s.voice n).eligible then
        fadd c (frameMix c s n)
          (voiceChain c s.par s.eng.sampleRate (route c s.par (lfoStep c s).1) (s.voice n)).contribution
      else frameMix c s n :=
  mixBelow_succ_sum c _ n (lfoStep c s).2

/-- Settles O47: the mix is built slot by slot, and each slot is run on the state before the frame. -/
theorem renderOneFrame : Obligations.RenderOneFrame := by
  unfold Obligations.RenderOneFrame
  intro s hup hpoly lv r chain sounds
  obtain ⟨-, -, -, -, -, -, hout, hconsidered, habove⟩ := frame_spec Config.impl s
  refine ⟨_, exec_render_one hup, ⟨frameMix Config.impl s, rfl, fun i _ => ⟨fun hs => ?_, fun hs => ?_⟩, hout⟩,
    frame_requests Config.impl s, fun i hi hs => ?_, fun i hi hs => ?_⟩
  · rw [frameMix_succ, if_pos ((eligible_iff _).2 hs)]
    rfl
  · rw [frameMix_succ, if_neg (mt (eligible_iff _).1 hs)]
  · rw [hconsidered i hi (by omega), frameVoice, if_pos ((eligible_iff _).2 hs)]
  · by_cases hlow : i < s.par.poly
    · rw [hconsidered i hlow hi, frameVoice, if_neg (mt (eligible_iff _).1 (hs.resolve_left (by omega)))]
    · exact habove i (by omega)

/-- Settles O44: the LFO's request precedes those of the voices, and the voices write no engine register. -/
theorem lfoStepsOncePerFrame : Obligations.LfoStepsOncePerFrame := by
  unfold Obligations.LfoStepsOncePerFrame
  intro s o hup hlfo
  obtain ⟨heng, -⟩ := frame_spec Config.impl s
  have hreq := frame_requests Config.impl s
  rw [hlfo, List.append_assoc] at hreq
  rw [hlfo] at heng
  exact ⟨_, _, exec_render_one hup, hreq, heng⟩

/-! ## The LFO commands (R162 to R165) -/

/-- The words of a command with one operand: its header announces one word. -/
theorem encode_of_one_operand {i : Instr} {a h : Word} (opc : Nat) (hi : i.opcode = opc) (ha : i.operandWords = [a])
    (hh : header opc 1 = h) : encode i = [h, a] := by
  rw [encode, Instr.headerWord, hi, ha, ← hh]
  rfl

/-- Settles O18: each command writes its registers and stops there. -/
theorem lfoCommandsWriteTheirRegisters : Obligations.LfoCommandsWriteTheirRegisters := by
  unfold Obligations.LfoCommandsWriteTheirRegisters
  intro s a k
  exact ⟨rfl, rfl, rfl, rfl, encode_of_one_operand 0x16 rfl rfl rfl, encode_of_one_operand 0x17 rfl rfl rfl,
    encode_of_one_operand 0x18 rfl rfl rfl, encode_of_one_operand 0x19 rfl rfl rfl, destOperand k, rfl,
    destOperand_number k⟩

/-! ## The route record (R160, R167) -/

/-- The route record in which `d` alone is fed, with `v`. -/
def Route.feeding (c : Config) (v : F32) (d : LfoDest) : Route :=
  let silent := { pitchMul := one, cutoff := posZero, amp := posZero, res := posZero, gain1 := posZero, gain2 := posZero,
                  fm1 := posZero, fm2 := posZero : Route }
  match d with
  | .pitch => { silent with pitchMul := pow2 c (fdiv c v SEMIS) }
  | .cutoff => { silent with cutoff := v }
  | .amp => { silent with amp := v }
  | .res => { silent with res := v }
  | .gain1 => { silent with gain1 := v }
  | .gain2 => { silent with gain2 := v }
  | .fm1 => { silent with fm1 := v }
  | .fm2 => { silent with fm2 := v }

theorem route_eq_feeding (c : Config) (p : Params) (lv : F32) :
    route c p lv = Route.feeding c (fmul c lv p.lfoAmount) p.lfoDest := by
  unfold route
  cases p.lfoDest <;> rfl

theorem route_of_number (c : Config) {p : Params} (lv : F32) {n : Nat} (h : p.lfoDest.number = n) :
    route c p lv = Route.feeding c (fmul c lv p.lfoAmount) (LfoDest.ofNumber n) := by
  rw [route_eq_feeding, ← h, dest_ofNumber_number]

/-- Settles O43: the number selects the destination, and the route record feeds it alone. -/
theorem routeFeedsOneDestination : Obligations.RouteFeedsOneDestination := by
  unfold Obligations.RouteFeedsOneDestination
  exact fun c p lv => ⟨route_of_number c lv, route_of_number c lv, route_of_number c lv, route_of_number c lv,
    route_of_number c lv, route_of_number c lv, route_of_number c lv, route_of_number c lv⟩

end Sys2Proof.Machine
end

section
/-! # RENDER of silence, the oscillator slots and a voice's chain, and the commands that do nothing on an engine that is down
(42_signal_chain_and_mixer.md R181 to R188, 43_parameter_store.md R225) -/

namespace Sys2Proof.Machine

/-! ## Frames with no eligible voice (R181, R187, R188) -/

/-- No considered voice is eligible. -/
def State.Silent (s : State) : Prop := ∀ i, i < s.par.poly → ¬(s.voice i).eligible = true

theorem State.Silent.congr {s t : State} (h : s.Silent) (hpar : t.par = s.par) (hv : t.voices = s.voices) : t.Silent := by
  intro i hi
  rw [voice_congr hv]
  exact h i (hpar ▸ hi)

/-- Slots that are not eligible leave the mix at +0.0 and the state as it is. -/
theorem mixBelow_of_ineligible (c : Config) (r : Route) {n : Nat} {s : State}
    (h : ∀ i, i < n → ¬(s.voice i).eligible = true) : mixBelow c r n s = (posZero, s) := by
  induction n with
  | zero => rfl
  | succ m ih =>
    rw [mixBelow, ih fun i hi => h i (Nat.lt_succ_of_lt hi)]
    exact mixVoice_ineligible (h m (Nat.lt_succ_self m))

/-- Only the LFO runs in a frame of a silent state, and the word emitted is +0.0. -/
theorem frame_of_silent (c : Config) {s : State} (h : s.Silent) : frame c s = (lfoStep c s).2.emit posZero := by
  have hs : (lfoStep c s).2.Silent := h.congr rfl rfl
  rw [frame, mixBelow_of_ineligible c _ hs]

theorem frames_of_silent (c : Config) (n : Nat) {s : State} (h : s.Silent) :
    (frames c n s).out = s.out ++ List.replicate n posZero ∧ (frames c n s).voices = s.voices := by
  induction n with
  | zero => exact ⟨(List.append_nil _).symm, rfl⟩
  | succ m ih =>
    obtain ⟨hout, hv⟩ := ih
    rw [frames, frame_of_silent c (h.congr (frames_keep c m s).par hv)]
    refine ⟨?_, hv⟩
    calc (frames c m s).out ++ [posZero]
      _ = s.out ++ (List.replicate m posZero ++ [posZero]) := by rw [hout, List.append_assoc]
      _ = s.out ++ List.replicate (m + 1) posZero := by rw [List.replicate_succ']

/-- Settles O49: each frame of a silent state emits +0.0 and leaves the state silent. -/
theorem renderOfSilenceEmitsZeros : Obligations.RenderOfSilenceEmitsZeros := by
  unfold Obligations.RenderOfSilenceEmitsZeros
  intro s n hup hquiet
  have hs : s.Silent := by
    intro i hi
    obtain ⟨ha, hg⟩ := hquiet i hi
    simp [eligible_iff, ha, hg]
  refine ⟨frames Config.impl n.toNat s, ?_, frames_of_silent Config.impl n.toNat hs⟩
  rw [exec, execRender, render, if_pos hup]

/-! ## The commands an engine that is down ignores (R188, R225) -/

theorem ite_init_of_down {s t : State} (h : s.eng.init = false) : (if s.eng.init then t else s) = s :=
  if_neg (Bool.eq_false_iff.mp h)

/-- Settles O21: each of the five commands answers the state it started from unless the engine is running. -/
theorem uninitializedVoiceCommandsDoNothing : Obligations.UninitializedVoiceCommandsDoNothing := by
  unfold Obligations.UninitializedVoiceCommandsDoNothing
  intro s k x hdown
  refine ⟨?noteOn, ?noteOffMidi, ?noteOffAll, ?setFreq, ?render⟩
  case noteOn => rw [exec, execNoteOn, noteOn, ite_init_of_down hdown]
  case noteOffMidi => rw [exec, execNoteOffMidi, ite_init_of_down hdown]
  case noteOffAll => rw [exec, execNoteOffAll, ite_init_of_down hdown]
  case setFreq => rw [exec, execSetFreq, ite_init_of_down hdown]
  case render => rw [exec, execRender, render, ite_init_of_down hdown]

/-! ## The oscillator slots (R182) -/

section Slot
variable (c : Config) (p : Params) (r : Route) {v : Voice} {k : OscSlot} {o : OscState}

theorem stepSlot_of_wt (ho : v.osc k = some o) (hk : o.kind = .wt) :
    stepSlot c p r v k = stepOsc c (some o) (playFreq c p r v.baseFreq k) := by
  have hfm : ¬isFm (some o) = true := by simp [isFm, hk]
  rw [stepSlot, ho, if_neg hfm]

theorem stepSlot_of_fm (ho : v.osc k = some o) (hk : o.kind = .fm) :
    stepSlot c p r v k = stepFmSlot c p r k (some o) (playFreq c p r v.baseFreq k) := by
  have hfm : isFm (some o) = true := by simp [isFm, hk]
  rw [stepSlot, ho, if_pos hfm]

end Slot

/-- Settles O46: the unit's tag selects the kind of step, and the slot its detune, ratios and index. -/
theorem oscillatorSlotFormulas : Obligations.OscillatorSlotFormulas := by
  unfold Obligations.OscillatorSlotFormulas
  intro c p r v o f1 f2 x1 x2
  exact ⟨fun ho => stepSlot_of_wt c p r (k := .one) ho, fun ho => stepSlot_of_fm c p r (k := .one) ho,
    fun ho => stepSlot_of_wt c p r (k := .two) ho, fun ho => stepSlot_of_fm c p r (k := .two) ho⟩

/-! ## The chain of a voice that holds its units (R183 to R185) -/

/-- Settles O45: the filter envelope, the filter and the amplitude envelope are stepped in this order, on the slots' mix. -/
theorem voiceChainFormulas : Obligations.VoiceChainFormulas := by
  unfold Obligations.VoiceChainFormulas
  intro c p sr r v fe ae fl hfe hae hfl o1 o2 s hi fc q y a
  rw [voiceChain, hfe, hae, hfl]
  exact ⟨rfl, rfl, rfl, (List.append_assoc _ _ _).trans (List.append_assoc _ _ _)⟩

end Sys2Proof.Machine
end

section
/-! # The parameter store: the plain setters, the two envelope commands and the waveform commands
(43_parameter_store.md R210 to R224, 60_exceptions.md R263, R266) -/

namespace Sys2Proof.Machine

/-! ## SetWave, wherever it stands (R224) -/

/-- What SetWave with type `w` has done of `s` once it stands at `u`, gone through or not: the register is written, the slot's
table keeps its identity, and of the allocated voices at most the slot's units have changed. -/
structure Rewaved (k : OscSlot) (w : Wave) (s u : State) : Prop extends SameRecord s u where
  par   : u.par = s.par.setWave k w
  eng   : u.eng = s.eng.setTbl k (u.eng.tbl k)
  ref   : (u.eng.tbl k).map TableRef.ref = (s.eng.tbl k).map TableRef.ref
  fm    : w = .fm → u.eng.tbl k = s.eng.tbl k
  voice : ∀ i, u.voice i = (s.voice i).setOsc k ((u.voice i).osc k)
  above : ∀ i, s.eng.alloc ≤ i → u.voice i = s.voice i

theorem SameButOsc.eq_setOsc {k : OscSlot} {v w : Voice} (h : SameButOsc k v w) : w = v.setOsc k (w.osc k) := by
  obtain ⟨o, rfl⟩ := h
  rw [osc_setOsc_self]

theorem setWave_rewaved (c : Config) (k : OscSlot) (type : Int) {s : State} (hup : s.eng.init = true) :
    Rewaved k (waveOperand type) s (setWave c k type s).state := by
  obtain ⟨-, -, -, -, hpar, -⟩ := setWave_frame c k type s
  obtain ⟨-, -, -, -, -, hvoices, -⟩ := setWaveBegin_spec c k type s
  obtain ⟨tbl, hbegin, href, hfm⟩ := setWaveBegin_eng c k type s
  obtain ⟨-, hloop, habove, -⟩ := recreateBelow_frame c k s.eng.alloc (setWaveBegin c k type s)
  have hv := voice_congr hvoices
  have hosc (i : Nat) := (recreateBelow_sameButOsc c k s.eng.alloc i (setWaveBegin c k type s)).eq_setOsc
  have hrec := setWave_record c k type s
  rw [setWave_eq c k type s hup] at hrec hpar ⊢
  have heng := hloop.trans hbegin
  have htbl : (recreateBelow c k s.eng.alloc (setWaveBegin c k type s)).state.eng.tbl k = tbl := by
    rw [heng, tbl_setTbl_self]
  exact ⟨hrec, hpar, by rw [htbl, heng], by rw [htbl, href], fun hw => by rw [htbl, hfm hw],
    fun i => (hosc i).trans (by rw [hv]), fun i hi => (habove i hi).trans (hv i)⟩

/-- SetWave that went through on a running engine leaves every allocated voice a unit of the type's kind in its slot. -/
theorem setWave_kind {c : Config} {k : OscSlot} {type : Int} {s t : State} (h : Inv s) (hok : setWave c k type s = .ok t)
    {i : Nat} (hi : i < s.eng.alloc) : ((t.voice i).osc k).map OscState.kind = some (waveOperand type).kind := by
  have hunits := (setWave_slotOk h hok (Nat.lt_of_lt_of_le hi h.alloc)).unit hi
  obtain ⟨hosc, -⟩ := (equipped_iff _ _).mp hunits
  rw [hosc k, wave_setWave_self]

/-! ## A Fatal of a waveform command (R263, R266) -/

theorem torn_setTbl (e : Engine) (k : OscSlot) (t : Option TableRef) : (e.setTbl k t).torn = e.torn := by
  cases k <;> rfl

/-- The fatal path from where SetWave stands tears down the engine and the voices of the state before. -/
theorem Rewaved.fatalFrom_spec (c : Config) {k : OscSlot} {w : Wave} {s u : State} (h : Rewaved k w s u) :
    let t := fatalFrom c FATAL_RESOURCE s u
    SameRecord { s with st := s.st.fatalError FATAL_RESOURCE } t ∧ t.eng = s.eng.torn ∧
      t.par = (if c.fatalRestores then s.par else s.par.setWave k w) ∧ ∀ i, i < NV → t.voice i = (s.voice i).torn := by
  refine ⟨⟨?_, ?_, ?_, ?_⟩, ?_, ?_, fun i hi => ?_⟩
  · rw [fatalFrom_st, h.st]
  · rw [fatalFrom_dec, h.dec]
  · rw [fatalFrom_out, h.out]
  · rw [fatalFrom_input, h.input]
  · rw [fatalFrom_eng, h.eng, torn_setTbl, setTbl_sampleRate, setTbl_tableSize, setTbl_rr]
    simp only [ite_self]
    rfl
  · rw [fatalFrom_par, h.par]
  · rw [fatalFrom_voice c _ s u hi, h.voice i]
    exact torn_congr (setOsc_baseFreq _ _ _)

/-! ## SET_WAVE1 and SET_WAVE2 (R212, R213) -/

/-- How a waveform command ends on a running engine, for either slot: SetWave went through, or it is the fatal path from where
SetWave stood. -/
theorem setWave_orFatal_spec (c : Config) (k : OscSlot) (type : Int) {s : State} (h : Inv s) (hup : s.eng.init = true) :
    let w := waveOperand type
    let t := (setWave c k type s).orFatal c s
    t.dec = s.dec ∧ t.out = s.out ∧ t.input = s.input ∧
      ((t.par = s.par.setWave k w ∧ t.st = s.st ∧ t.eng = s.eng.setTbl k (t.eng.tbl k) ∧
          (w = .fm → t.eng.tbl k = s.eng.tbl k) ∧
          (t.eng.tbl k).map TableRef.ref = (s.eng.tbl k).map TableRef.ref ∧
          ∀ i, i < NV → t.voice i = (s.voice i).setOsc k ((t.voice i).osc k) ∧
            (i < s.eng.alloc → ((t.voice i).osc k).map OscState.kind = some w.kind) ∧
            (s.eng.alloc ≤ i → t.voice i = s.voice i)) ∨
        (¬CreationsSucceed c s.draws ∧ t.eng = s.eng.torn ∧ t.st = s.st.fatalError FATAL_RESOURCE ∧
          (∀ i, i < NV → t.voice i = (s.voice i).torn) ∧
          t.par = (if c.fatalRestores then s.par else s.par.setWave k w) ∧
          ∃ u, setWave c k type s = .fail u ∧ t = fatalFrom c FATAL_RESOURCE s u ∧
            u.eng = s.eng.setTbl k (u.eng.tbl k) ∧
            (u.eng.tbl k).map TableRef.ref = (s.eng.tbl k).map TableRef.ref ∧
            ∀ i, i < NV → u.voice i = (s.voice i).setOsc k ((u.voice i).osc k))) := by
  intro w t
  have hr := setWave_rewaved c k type hup
  cases hx : setWave c k type s with
  | ok v =>
    have ht : t = v := congrArg (Attempt.orFatal c s) hx
    rw [hx] at hr
    rw [ht]
    exact ⟨hr.dec, hr.out, hr.input, .inl ⟨hr.par, hr.st, hr.eng, hr.fm, hr.ref,
      fun i _ => ⟨hr.voice i, setWave_kind h hx, hr.above i⟩⟩⟩
  | fail u =>
    have ht : t = fatalFrom c FATAL_RESOURCE s u := congrArg (Attempt.orFatal c s) hx
    have hsure := setWave_sure c k type s
    rw [hx] at hr hsure
    obtain ⟨hrec, heng, hpar, hv⟩ := hr.fatalFrom_spec c
    rw [ht]
    exact ⟨hrec.dec, hrec.out, hrec.input, .inr ⟨hsure.not_succeed, heng, hrec.st, hv, hpar, u, rfl, rfl, hr.eng, hr.ref,
      fun i _ => hr.voice i⟩⟩

/-- Settles O34: each command is SetWave on its slot, ended by the fatal path if a creation failed. -/
theorem setWaveRecreatesOscillators : Obligations.SetWaveRecreatesOscillators := by
  unfold Obligations.SetWaveRecreatesOscillators
  intro s k hinv hup
  obtain ⟨hdec1, hout1, hin1, hend1⟩ := setWave_orFatal_spec Config.impl .one k hinv hup
  obtain ⟨hdec2, hout2, hin2, hend2⟩ := setWave_orFatal_spec Config.impl .two k hinv hup
  exact ⟨waveOperand k, _, _, waveOperand_number k, rfl, hdec1, hout1, hin1, rfl, hdec2, hout2, hin2, hend1, hend2⟩

/-! ## SET_WAVE (R214) -/

theorem fatalFrom_of_keeping {c : Config} (h : c.fatalRestores = false) (code : BitVec 8) (s u : State) :
    fatalFrom c code s u = fatal code u := by
  rw [fatalFrom, h, if_neg Bool.false_ne_true]

/-- Settles O36: by where the two SetWaves stand. The two Fatals of slot 2 differ in the state put back alone. -/
theorem setWaveIsBothSlots : Obligations.SetWaveIsBothSlots := by
  unfold Obligations.SetWaveIsBothSlots
  intro s k
  simp only [exec, execSetWave, execSetWave1, execSetWave2]
  cases h1 : setWave Config.impl .one k s with
  | fail t => exact .inr (.inr ⟨t, rfl, rfl, rfl⟩)
  | ok t =>
    rw [Attempt.andThen_ok]
    cases h2 : setWave Config.impl .two k t with
    | ok u => exact .inl ⟨t, u, rfl, rfl, h2, by rw [h2]; rfl, rfl⟩
    | fail u =>
      refine .inr (.inl ⟨t, u, rfl, rfl, h2, by rw [h2]; rfl, rfl, fun hkeep => ?_⟩)
      rw [h2, Attempt.orFatal_fail, Attempt.orFatal_fail, fatalFrom_of_keeping hkeep, fatalFrom_of_keeping hkeep]

/-! ## SET_ENV and FILTER_ENV (R211, R222) -/

/-- Propagation asks one `EnvSet` for each allocated voice that has the role's envelope, in slot order. -/
theorem propagateEnv_requests (c : Config) (r : EnvRole) (s : State) :
    (s.propagateEnv c r).requests = s.requests ++ (if s.eng.init = true then
      (List.range s.eng.alloc).flatMap fun i => envSetRequest (s.par.adsr r) ((s.voice i).env r) else []) := by
  rw [State.propagateEnv]
  split
  · exact forBelow_requests (K := fun t => t.par = s.par) (body := State.pushEnv c r)
      (f := fun _ v => envSetRequest (s.par.adsr r) (v.env r)) rfl (fun _ _ h => h)
      (fun i t h => by rw [pushEnv_requests, h]) (fun _ _ t h => pushEnv_voice_ne c r t h) s.eng.alloc
  · exact (List.append_nil _).symm

/-- A setter of a role's envelope registers, for either role: the registers, the envelopes, the requests and the frame. -/
theorem setPar_propagateEnv_spec (c : Config) (r : EnvRole) (p : Params) (s : State) :
    let t := (s.setPar p).propagateEnv c r
    t.par = p ∧
      (∀ i, i < NV → t.voice i =
        if s.eng.init = true ∧ i < s.eng.alloc then
          (s.voice i).setEnv r (envAfterSet c (p.adsr r) ((s.voice i).env r))
        else s.voice i) ∧
      t.requests = s.requests ++ (if s.eng.init = true then
        (List.range s.eng.alloc).flatMap fun i => envSetRequest (p.adsr r) ((s.voice i).env r) else []) ∧
      t.eng = s.eng ∧ t.st = s.st ∧ t.dec = s.dec ∧ t.out = s.out ∧ t.input = s.input ∧ t.draws = s.draws := by
  obtain ⟨heng, hpar, hframe⟩ := propagateEnv_frame c r (s.setPar p)
  exact ⟨hpar, propagateEnv_voice c r (s.setPar p), propagateEnv_requests c r (s.setPar p), heng, hframe⟩

/-- Settles O19: the amplitude role's setter. -/
theorem setEnvReachesEveryAllocatedVoice : Obligations.SetEnvReachesEveryAllocatedVoice := by
  unfold Obligations.SetEnvReachesEveryAllocatedVoice
  intro s a d u r
  exact ⟨_, rfl, setPar_propagateEnv_spec Config.impl .amp { s.par with envA := a, envD := d, envS := u, envR := r } s⟩

/-- Settles O20: the filter role's setter. -/
theorem filterEnvReachesEveryAllocatedVoice : Obligations.FilterEnvReachesEveryAllocatedVoice := by
  unfold Obligations.FilterEnvReachesEveryAllocatedVoice
  intro s a d u r
  exact ⟨_, rfl, setPar_propagateEnv_spec Config.impl .filt { s.par with fenvA := a, fenvD := d, fenvS := u, fenvR := r } s⟩

/-! ## The plain setters (R210, R215 to R221, R223) -/

/-- The words of a command with any number of operands, from its opcode and that number. -/
theorem encode_of_operands {i : Instr} {ops : List Word} {h : Word} (opc len : Nat) (hi : i.opcode = opc)
    (ho : i.operandWords = ops) (hl : ops.length = len) (hh : header opc len = h) : encode i = h :: ops := by
  rw [encode, Instr.headerWord, hi, ho, hl, hh]

/-- Settles O17: each setter writes its registers and stops there. -/
theorem plainSettersWriteTheirRegisters : Obligations.PlainSettersWriteTheirRegisters := by
  unfold Obligations.PlainSettersWriteTheirRegisters
  intro s a b c
  refine ⟨rfl, rfl, rfl, rfl, rfl, rfl, rfl, rfl, rfl, ?_⟩
  exact ⟨encode_of_one_operand 0x06 rfl rfl rfl, encode_of_one_operand 0x0D rfl rfl rfl,
    encode_of_one_operand 0x0E rfl rfl rfl, encode_of_one_operand 0x0F rfl rfl rfl,
    encode_of_one_operand 0x10 rfl rfl rfl, encode_of_operands 0x11 3 rfl rfl rfl rfl,
    encode_of_operands 0x12 3 rfl rfl rfl rfl, encode_of_operands 0x13 2 rfl rfl rfl rfl,
    encode_of_one_operand 0x15 rfl rfl rfl⟩

end Sys2Proof.Machine
end

section
/-! # The engine lifecycle: SHUTDOWN, and INIT's two ends (44_engine_lifecycle.md R240 to R242, 60_exceptions.md R263, R266) -/

namespace Sys2Proof.Machine

/-! ## SHUTDOWN (R241, R242) -/

theorem Engine.torn_torn (e : Engine) : e.torn.torn = e.torn := rfl

theorem Engine.releases_torn (e : Engine) : e.torn.releases = [] := rfl

/-- A torn down block holds nothing that a second Teardown could release. -/
theorem teardown_teardown (s : State) : teardown (teardown s) = teardown s := by
  have hclean : ∀ i, i < NV → ((teardown s).voice i).Idle ∧ ((teardown s).voice i).Unitless := fun i hi => by
    rw [teardown_voice s hi]
    exact torn_idle _
  rw [teardown_clean hclean, teardown_eng, Engine.torn_torn, Engine.releases_torn, List.append_nil, ← teardown_eng s]

/-- Settles O41: SHUTDOWN is Teardown. -/
theorem shutdownIsIdempotent : Obligations.ShutdownIsIdempotent := by
  unfold Obligations.ShutdownIsIdempotent
  intro s t ht
  cases ht
  exact congrArg Host.Outcome.next (teardown_teardown s)

/-- Settles O40: SHUTDOWN is Teardown, and the fatal path is Teardown with the record in STATUS. -/
theorem shutdownReleasesEverything : Obligations.ShutdownReleasesEverything := by
  unfold Obligations.ShutdownReleasesEverything
  intro s
  obtain ⟨heng, hpar, hst, hdec, hout, hin, hdraws, hreq, hvoice⟩ := teardown_spec s
  refine ⟨_, rfl, heng, hvoice, ?_, hpar, hst, hdec, hout, hin, hdraws, fun c before code => ?_⟩
  · rw [hreq]
    simp only [teardownReleases, Voice.releases, Engine.releases, List.append_assoc]
  · have hfatal := fatal_eq code s
    rw [fatalError_eq] at hfatal
    refine ⟨hfatal, ?_⟩
    rw [fatalFrom, hfatal]
    rfl

/-! ## INIT, wherever it stands (R240) -/

/-- What INIT has done of `s` once it stands at `u`, gone through or not: the three registers it writes first are written, and
no base frequency has changed. -/
structure Initing (rate : F32) (size : Int) (s u : State) : Prop extends SameOutside s u where
  torn : u.eng.torn = { s.eng.torn with sampleRate := rate, tableSize := tableSizeOperand size, rr := 0 }
  freq : ∀ i, i < NV → (u.voice i).baseFreq = (s.voice i).baseFreq

theorem initBegin_initing (rate : F32) (size : Int) (s : State) : Initing rate size s (initBegin rate size s) := by
  obtain ⟨heng, hpar, hst, hdec, hout, hin, -, -, hvoices⟩ := initBegin_spec rate size s
  refine ⟨⟨hpar, hst, hdec, hout, hin⟩, ?_, fun i hi => ?_⟩
  · rw [heng]
    split
    · rw [teardown_eng]; rfl
    · rfl
  · rw [voice_congr hvoices]
    split
    · rw [teardown_voice s hi]; rfl
    · rfl

theorem TablesOnly.initing {rate : F32} {size : Int} {s t u : State} (ht : TablesOnly t u) (h : Initing rate size s t) :
    Initing rate size s u :=
  ⟨h.toSameOutside.trans ht.toSameOutside, (congrArg Engine.torn ht.eng).trans h.torn,
    fun i hi => (congrArg Voice.baseFreq (voice_congr ht.voices i)).trans (h.freq i hi)⟩

theorem initFinish_initing (c : Config) {rate : F32} {size : Int} {s t : State} (h : Initing rate size s t) :
    Initing rate size s (initFinish c t).state := by
  have hg := initFinish_grown c t
  refine ⟨h.toSameOutside.trans ⟨hg.par, hg.st, hg.dec, hg.out, hg.input⟩, ?_, fun i hi => (hg.freq i).trans (h.freq i hi)⟩
  exact (congrArg Engine.torn hg.eng).trans h.torn

theorem initAttempt_initing (c : Config) (rate : F32) (size : Int) (s : State) :
    Initing rate size s ((initTables c (initBegin rate size s)).andThen (initFinish c)).state :=
  Attempt.andThen_keeps (K := Initing rate size s)
    ((initTables_frame c _).initing (initBegin_initing rate size s)) fun _ => initFinish_initing c

/-- The engine registers a fatal INIT leaves: what a SHUTDOWN leaves, with the new rate, table size and steal counter where
the pseudocode of R263 holds (log 24). -/
def Engine.afterFatalInit (c : Config) (rate : F32) (size : Int) (e : Engine) : Engine :=
  if c.fatalRestores then e.torn
  else { e.torn with sampleRate := rate, tableSize := tableSizeOperand size, rr := 0 }

/-- States that agree register by register and port by port are the same. -/
theorem State.eq_of_fields {s t : State} (eng : s.eng = t.eng) (par : s.par = t.par) (voices : s.voices = t.voices)
    (st : s.st = t.st) (dec : s.dec = t.dec) (out : s.out = t.out) (input : s.input = t.input)
    (requests : s.requests = t.requests) (draws : s.draws = t.draws) : s = t := by
  cases s
  cases t
  simp only at *
  subst_vars
  rfl

/-- The engine registers the fatal path leaves where INIT stands. -/
theorem Initing.fatalFrom_eng (c : Config) (code : BitVec 8) {rate : F32} {size : Int} {s u : State}
    (h : Initing rate size s u) : (fatalFrom c code s u).eng = s.eng.afterFatalInit c rate size := by
  have hrate : u.eng.sampleRate = rate := congrArg Engine.sampleRate h.torn
  have hsize : u.eng.tableSize = tableSizeOperand size := congrArg Engine.tableSize h.torn
  have hrr : u.eng.rr = 0 := congrArg Engine.rr h.torn
  rw [Machine.fatalFrom_eng, h.torn, hrate, hsize, hrr, Engine.afterFatalInit]
  split <;> rfl

/-- The fatal path from where INIT stands leaves what a SHUTDOWN leaves, but for the record of the Fatal, the requests made
and the draws taken. -/
theorem Initing.fatalFrom_eq (c : Config) (code : BitVec 8) {rate : F32} {size : Int} {s u : State}
    (h : Initing rate size s u) :
    fatalFrom c code s u = { teardown s with
      eng := s.eng.afterFatalInit c rate size
      st := s.st.fatalError code
      requests := u.requests ++ teardownReleases u
      draws := u.draws } := by
  apply State.eq_of_fields
  case eng => exact h.fatalFrom_eng c code
  case par => rw [fatalFrom_par, h.par, ite_self, teardown_par]
  case voices =>
    refine voices_ext fun i hi => ?_
    rw [fatalFrom_voice c code s u hi, torn_congr (h.freq i hi)]
    exact (teardown_voice s hi).symm
  case st => rw [fatalFrom_st, h.st]
  case dec => rw [fatalFrom_dec, h.dec, teardown_dec]
  case out => rw [fatalFrom_out, h.out, teardown_out]
  case input => rw [fatalFrom_input, h.input, teardown_input]
  case requests => exact fatalFrom_requests c code s u
  case draws => exact fatalFrom_draws c code s u

/-! ## INIT failing at a table or the LFO (R240, R263, R266) -/

/-- `s` with engine registers `e`, after the creation requests `rs`. -/
def State.created (s : State) (e : Engine) (rs : List Request) : State :=
  { s with eng := e, requests := s.requests ++ rs, draws := s.draws + rs.length }

@[simp] theorem created_eng (s : State) (e : Engine) (rs : List Request) : (s.created e rs).eng = e := rfl
@[simp] theorem created_par (s : State) (e : Engine) (rs : List Request) : (s.created e rs).par = s.par := rfl
@[simp] theorem created_setEng (s : State) (e f : Engine) (rs : List Request) :
    (s.created e rs).setEng f = s.created f rs := rfl

theorem created_nil (s : State) : s.created s.eng [] = s := by
  rw [State.created, List.append_nil]
  rfl

/-- One more creation request, answered or not. -/
theorem create_created (c : Config) (r : Request) (store : State → State) (s : State) (e : Engine) (rs : List Request) :
    create c r store (s.created e rs) =
      if c.createFails (s.draws + rs.length) r = true then .fail (s.created e (rs ++ [r]))
      else .ok (store (s.created e (rs ++ [r]))) := by
  simp only [create, State.created, State.ask, List.append_assoc, List.length_append, List.length_singleton, Nat.add_assoc]

theorem createTable_created (c : Config) (size : Word) (shape : Shape) (store : TableRef → State → State) (s : State)
    (e : Engine) (rs : List Request) :
    createTable c size shape store (s.created e rs) =
      if c.createFails (s.draws + rs.length) (.tblBuild size shape) = true then
        .fail (s.created e (rs ++ [.tblBuild size shape]))
      else .ok (store (c.tblBuild (s.draws + rs.length) size shape) (s.created e (rs ++ [.tblBuild size shape]))) :=
  create_created c _ _ s e rs

/-- A choice between two attempts goes on as either does. -/
theorem Attempt.andThen_ite (p : Prop) [Decidable p] (x y : Attempt) (f : State → Attempt) :
    (if p then x else y).andThen f = if p then x.andThen f else y.andThen f :=
  apply_ite (fun a : Attempt => a.andThen f) p x y

/-- The three tables and the LFO, one creation after another: what is built when one fails, and when all go through. -/
theorem initTables_eq (c : Config) (s : State) :
    let size := s.eng.tableSize
    let shape1 := s.par.wave1.shapeAtInit
    let shape2 := s.par.wave2.shapeAtInit
    let sine := c.tblBuild s.draws size .sine
    let e1 := { s.eng with sine := some sine }
    let e2 := { e1 with tbl1 := some (c.tblBuild (s.draws + 1) size shape1) }
    let e3 := { e2 with tbl2 := some (c.tblBuild (s.draws + 2) size shape2) }
    initTables c s =
      if c.createFails s.draws (.tblBuild size .sine) = true then .fail (s.created s.eng [.tblBuild size .sine])
      else if c.createFails (s.draws + 1) (.tblBuild size shape1) = true then
        .fail (s.created e1 [.tblBuild size .sine, .tblBuild size shape1])
      else if c.createFails (s.draws + 2) (.tblBuild size shape2) = true then
        .fail (s.created e2 [.tblBuild size .sine, .tblBuild size shape1, .tblBuild size shape2])
      else if c.createFails (s.draws + 3) (.oscNew .wt sine) = true then
        .fail (s.created e3 [.tblBuild size .sine, .tblBuild size shape1, .tblBuild size shape2, .oscNew .wt sine])
      else .ok (s.withTables c) := by
  intro size shape1 shape2 sine e1 e2 e3
  have hfirst : initTables c s = initTables c (s.created s.eng []) := by rw [created_nil]
  rw [hfirst, initTables]
  simp only [createTable_created, createOsc, create_created, Attempt.andThen_ite, Attempt.andThen_ok, Attempt.andThen_fail,
    created_setEng, created_eng, created_par, List.nil_append, List.cons_append]
  rfl

/-- INIT begins on torn down engine registers. -/
theorem initBegin_eng (rate : F32) (size : Int) {s : State} (h : Inv s) :
    (initBegin rate size s).eng = { s.eng.torn with sampleRate := rate, tableSize := tableSizeOperand size, rr := 0 } := by
  rw [initBegin_teardown rate size h, setEng_eng, teardown_eng]

/-- Where the tables or the LFO fail, no voice holds a unit: the fatal path releases what the engine holds alone. -/
theorem teardownReleases_of_initTables_fail {c : Config} {rate : F32} {size : Int} {s u : State} (h : Inv s)
    (hfail : initTables c (initBegin rate size s) = .fail u) : teardownReleases u = u.eng.releases := by
  have htab := initTables_frame c (initBegin rate size s)
  rw [hfail, initBegin_teardown rate size h] at htab
  have hnone : (List.range NV).flatMap (fun i => (u.voice i).releases) = [] := by
    rw [List.flatMap_eq_nil_iff]
    intro i hi
    have hv : u.voice i = (s.voice i).torn :=
      (voice_congr htab.voices i).trans (teardown_voice s (List.mem_range.mp hi))
    rw [hv]
    rfl
  rw [teardownReleases, hnone, List.nil_append]

/-- The end of INIT where the tables or the LFO failed after the requests `rs`, with engine registers `e`. -/
theorem initEngine_of_initTables_fail {c : Config} {rate : F32} {size : Int} {s : State} {e : Engine} {rs : List Request}
    (h : Inv s) (hfail : initTables c (initBegin rate size s) = .fail ((initBegin rate size s).created e rs)) :
    initEngine c rate size s = { teardown s with
      eng := s.eng.afterFatalInit c rate size
      st := s.st.fatalError FATAL_RESOURCE
      requests := (teardown s).requests ++ (rs ++ e.releases)
      draws := s.draws + rs.length } := by
  have hiniting := initAttempt_initing c rate size s
  have hreleases := teardownReleases_of_initTables_fail h hfail
  obtain ⟨-, -, -, -, -, -, hdraws, -⟩ := initBegin_spec rate size s
  have hreq : (initBegin rate size s).requests = (teardown s).requests := by
    rw [initBegin_teardown rate size h, setEng_requests]
  rw [hfail, Attempt.andThen_fail, Attempt.state] at hiniting
  rw [initEngine, hfail, Attempt.andThen_fail, Attempt.orFatal_fail, hiniting.fatalFrom_eq, hreleases, created_eng]
  simp only [State.created, hreq, hdraws, List.append_assoc]

/-- Settles O39: by which of the four creations is the first to fail. -/
theorem initFailingAtOnceIsFatal : Obligations.InitFailingAtOnceIsFatal := by
  unfold Obligations.InitFailingAtOnceIsFatal
  intro c s down rate size hinv hdown n sine tbl1 tbl2 ask0 ask1 ask2 ask3 fails ends
  cases hdown
  have hends {e : Engine} {rs : List Request}
      (hfail : initTables c (initBegin rate size s) = .fail ((initBegin rate size s).created e rs)) :
      ends rs.length (rs ++ e.releases) := by
    have hend := initEngine_of_initTables_fail hinv hfail
    rw [Engine.afterFatalInit, ← teardown_eng, fatalError_eq] at hend
    exact hend
  obtain ⟨-, hpar, -, -, -, -, hdraws, -⟩ := initBegin_spec rate size s
  have htables := initTables_eq c (initBegin rate size s)
  simp only [initBegin_eng rate size hinv, hpar, hdraws] at htables
  -- Each clause is elaborated by itself: its creation fixes the registers and the requests.
  exact ⟨fun h0 => (hends (htables.trans (if_pos h0)) :),
    fun h0 h1 => (hends (htables.trans ((if_neg h0).trans (if_pos h1))) :),
    fun h0 h1 h2 => (hends (htables.trans ((if_neg h0).trans ((if_neg h1).trans (if_pos h2)))) :),
    fun h0 h1 h2 h3 =>
      (hends (htables.trans ((if_neg h0).trans ((if_neg h1).trans ((if_neg h2).trans (if_pos h3))))) :)⟩

/-! ## INIT running or fatal (R240, R263) -/

/-- A table size that fits is the operand, or the default where that is below the least. -/
theorem tableSizeOperand_toNat {k : Int} (h : fitsI32 k = true) :
    ((tableSizeOperand k).toNat : Int) = if k < 64 then 2048 else k := by
  rw [fitsI32_iff] at h
  simp only [tableSizeOperand, ofS32, BitVec.toNat_ofInt, TABLE_MIN, TABLE_DEFAULT]
  split <;> omega

/-- No slot is allocated yet where INIT has its tables and its LFO. -/
theorem initTables_ok_alloc {c : Config} {rate : F32} {size : Int} {s t : State} (h : Inv s)
    (hok : initTables c (initBegin rate size s) = .ok t) : t.eng.alloc = 0 := by
  have htab := initTables_frame c (initBegin rate size s)
  rw [hok, Attempt.state] at htab
  rw [htab.eng, initBegin_eng rate size h]
  rfl

/-- INIT that went through: the engine is running, on the new rate, table size and steal counter. -/
theorem initFinish_ok_eng {c : Config} {rate : F32} {size : Int} {s t u : State} (h : Initing rate size s u)
    (hok : initFinish c t = .ok u) (halloc : t.eng.alloc = 0) :
    u.eng.init = true ∧ u.eng.alloc = u.par.poly ∧ u.eng.sampleRate = rate ∧ u.eng.tableSize = tableSizeOperand size ∧
      u.eng.rr = 0 := by
  obtain ⟨hg, hgrown, -⟩ := ensure_ok hok
  refine ⟨by rw [hg.eng]; rfl, ?_, congrArg Engine.sampleRate h.torn, congrArg Engine.tableSize h.torn,
    congrArg Engine.rr h.torn⟩
  rw [hgrown, hg.par, setEng_eng, halloc, Nat.zero_max]

/-- INIT that went through leaves every voice idle: those it built are fresh, the others hold nothing. -/
theorem initFinish_ok_idle {c : Config} {t u : State} (hinv : Inv u) (hok : initFinish c t = .ok u)
    (halloc : t.eng.alloc = 0) {i : Nat} (hi : i < NV) : (u.voice i).Idle := by
  by_cases hbuilt : i < u.eng.alloc
  · have hv := (ensure_ok hok).1.built i (by rw [setEng_eng, halloc]; exact Nat.zero_le i) hbuilt hi
    rw [hv]
    exact freshVoice_idle _ _ _
  · exact (hinv.rest i hi (Nat.le_of_not_lt hbuilt)).2

/-- Settles O37: INIT's creations go through, and Ensure has built the slots, or it is the fatal path from where they stand. -/
theorem initRunsOrIsFatal : Obligations.InitRunsOrIsFatal := by
  unfold Obligations.InitRunsOrIsFatal
  intro s rate size hinv hsize
  have hi := initAttempt_initing Config.impl rate size s
  have hsure := initAttempt_sure Config.impl rate size s
  have hcount := tableSizeOperand_toNat hsize
  refine ⟨_, rfl, ?_⟩
  unfold initEngine
  cases hx : (initTables Config.impl (initBegin rate size s)).andThen (initFinish Config.impl) with
  | ok u =>
    rw [hx, Attempt.state] at hi
    obtain ⟨t, htab, hok⟩ := Attempt.andThen_eq_ok.mp hx
    have hgood := inv_init hinv hsize htab hok
    have halloc0 := initTables_ok_alloc hinv htab
    obtain ⟨hinit, halloc, hrate, htsize, hrr⟩ := initFinish_ok_eng hi hok halloc0
    obtain ⟨-, hequipped, -⟩ := hgood.up hinit
    rw [Attempt.orFatal_ok]
    refine ⟨hi.par, hi.dec, hi.out, hi.input,
      fun i hv => ⟨initFinish_ok_idle hgood hok halloc0 hv, hi.freq i hv⟩, .inl ?_⟩
    rw [hi.par] at halloc
    refine ⟨hrr, hrate, htsize ▸ hcount, hinit, halloc, hequipped, hi.st, fun i hv => ⟨fun hlow => ?_, fun hup => ?_⟩⟩
    · exact hi.par ▸ hgood.units i (halloc ▸ hlow)
    · exact (hgood.rest i hv (halloc ▸ hup)).1
  | fail u =>
    rw [hx, Attempt.state] at hi
    rw [hx] at hsure
    rw [Attempt.orFatal_fail]
    have hvoice : ∀ i, i < NV → (fatalFrom Config.impl FATAL_RESOURCE s u).voice i = (s.voice i).torn := fun i hv =>
      (fatalFrom_voice Config.impl _ s u hv).trans (torn_congr (hi.freq i hv))
    have heng := hi.fatalFrom_eng Config.impl FATAL_RESOURCE
    refine ⟨?_, ?_, ?_, ?_, fun i hv => ?_, .inr ⟨hsure.not_succeed, ?_, ?_, ?_, hvoice, ?_, u, rfl, rfl⟩⟩
    · rw [fatalFrom_par, hi.par, ite_self]
    · rw [fatalFrom_dec, hi.dec]
    · rw [fatalFrom_out, hi.out]
    · rw [fatalFrom_input, hi.input]
    · rw [hvoice i hv]; exact ⟨(torn_idle _).1, rfl⟩
    · rw [fatalFrom_eng]; rfl
    · rw [fatalFrom_eng]; exact ⟨rfl, rfl, rfl, rfl, rfl⟩
    · rw [fatalFrom_st, hi.st]
    · rw [heng, Engine.afterFatalInit]
      split
      · exact ⟨rfl, rfl, rfl⟩
      · exact ⟨rfl, rfl, hcount⟩

end Sys2Proof.Machine
end

section
/-! # Which commands can end in a Fatal, and the wait for a word (60_exceptions.md R261, R263, R264, R275) -/

namespace Sys2Proof.Machine

/-! ## Commands that write STATUS (R261, R263, R264) -/

/-- The commands that make an attempt are those that create units or tables. -/
theorem Attempts.creator {c : Config} {s : State} {i : Instr} {x : Attempt} (h : Attempts c s i x) :
    (∃ r n, i = .init r n) ∨ CreatesUnits i := by
  by_cases hinit : ∃ r n, i = .init r n
  · exact .inl hinit
  · exact .inr (h.init_sure fun r n hi => hinit ⟨r, n, hi⟩).1

/-- A command keeps the stored fields of STATUS, or it is an attempt that failed and ended in the fatal path. -/
theorem Runs.status_cases {c : Config} {s t : State} {i : Instr} (h : Runs c s i t) :
    t.st = s.st ∨ ∃ u, Attempts c s i (.fail u) ∧ t = fatalFrom c FATAL_RESOURCE s u := by
  cases h with
  | nothing => exact .inl rfl
  | registers => exact .inl (setPar_st s _)
  | @envelopes _ p role =>
    obtain ⟨-, -, hst, -⟩ := propagateEnv_frame c role (s.setPar p)
    exact .inl (hst.trans (setPar_st s p))
  | noteOn midi velocity =>
    obtain ⟨-, -, hst, -⟩ := startNote_frame c (allocate s).1 (midiOperand midi) velocity (allocate s).2
    exact .inl (hst.trans (allocate_record s).st)
  | noteOffs which =>
    obtain ⟨-, -, -, hst, -⟩ := gateOffs_spec which s.par.poly s
    exact .inl hst
  | setFreq freq =>
    obtain ⟨-, -, hrec, -⟩ := forBelow_setVoice_spec (fun v => { v with baseFreq := freq }) s.eng.alloc s
    exact .inl hrec.st
  | render n => exact .inl (frames_keep c n.toNat s).st
  | shutdown => exact .inl (teardown_st s)
  | @creates _ x hx =>
    cases x with
    | ok t => exact .inl hx.record.st
    | fail u => exact .inr ⟨u, hx, rfl⟩

/-- Settles O16: only an attempt can fail, none writes STATUS on its way, and the fatal path records FATAL and tears the
engine down. -/
theorem onlyCreatorsReachFatal : Obligations.OnlyCreatorsReachFatal := by
  unfold Obligations.OnlyCreatorsReachFatal
  intro i s t h
  obtain hst | ⟨u, hx, ht⟩ := (exec_runs h).status_cases
  · exact .inl hst
  · refine .inr ⟨?_, ?_, hx.creator⟩
    · have hst : u.st = s.st := hx.record.st
      rw [ht, fatalFrom_st, hst, fatalError_eq]
    · rw [ht, fatalFrom_eng]
      rfl

/-! ## The wait for a word (R275) -/

/-- Settles O13: a step looks at the oldest pending word first, and with none it takes the branch that keeps the state. -/
theorem waitsWithAllStateKept : Obligations.WaitsWithAllStateKept := by
  unfold Obligations.WaitsWithAllStateKept
  intro s hin
  rw [step, receiveNext, hin]

end Sys2Proof.Machine
end

section
/-! # What power-on reset leaves (70_reset_and_hazards.md R290) -/

namespace Sys2Proof.Machine

/-! ## The legal ranges of the integer parameters (R36 to R38) -/

theorem Wave.number_le (w : Wave) : w.number ≤ 4 := by cases w <;> decide

theorem LfoDest.number_le (d : LfoDest) : d.number ≤ 7 := by cases d <;> decide

/-! ## STATUS and the voices -/

/-- With the engine down and no error recorded, STATUS reads 0. -/
theorem statusWord_eq_zero {s : State} (hinit : s.eng.init = false) (hcmd : s.st.errCmd = false)
    (hfatal : s.st.fatal = false) (hcode : s.st.errCode = 0) : statusWord s = 0#32 := by
  rw [statusWord, hinit, hcmd, hfatal, hcode]
  rfl

theorem Voice.blank_idle (f : F32) : (Voice.blank f).Idle ∧ (Voice.blank f).Unitless :=
  ⟨⟨rfl, rfl, rfl, rfl⟩, rfl, rfl, rfl, rfl, rfl⟩

/-- Settles O1: the polyphony's range comes from the clamp of its open value, the idle voices from the blank voice in each slot,
and STATUS from its fields; the other registers are the values reset writes. -/
theorem resetLeavesIdleBlock : Obligations.ResetLeavesIdleBlock := by
  unfold Obligations.ResetLeavesIdleBlock
  have hvoice : ∀ i, i < NV → (State.reset.voice i).Idle ∧ (State.reset.voice i).Unitless := fun i hi => by
    rw [State.reset, voice_powerOn _ hi]
    exact Voice.blank_idle _
  have hstatus : statusWord State.reset = 0#32 := statusWord_eq_zero rfl rfl rfl rfl
  refine ⟨rfl, rfl, rfl, rfl, rfl, rfl, rfl, clampI_poly_bounds _, Wave.number_le _, Wave.number_le _, LfoDest.number_le _,
    fun i hi => ?_, hstatus, rfl, rfl, rfl⟩
  obtain ⟨⟨hactive, hgate, hmidi, hvelocity⟩, hunits⟩ := hvoice i hi
  exact ⟨hactive, hgate, hmidi, hvelocity, hunits⟩

end Sys2Proof.Machine
end
